-- ==== Sys2Proof/Word.lean ====
section
/-!
DEFINITION. The machine word: the one unit of transfer at the ports and in the register space is
the 32-bit word (30_encoding.md R100, 20_memory.md R71, R75).
-/

namespace Sys2Proof

/-- A 32-bit word; bit 0 is its least significant bit (00_scope.md R8). -/
abbrev Word := BitVec 32

end Sys2Proof
end

