-- ==== Sys2Proof/Syntax.lean ====
section
/-!
DEFINITION. The operations of AISC-FE as one inductive type, one constructor per row of
spec/opcode_table.json (00_scope.md R2): the ten host commands and the eight stage operations; with
the records they take as operands, the agents of 00_scope.md R18, and the packets of the command
port.
-/

namespace Sys2Proof

/-- The output channels, NCH_MAX = 2 (00_scope.md R6). -/
inductive Chan where
  | ch0 | ch1
  deriving DecidableEq, Repr, Inhabited

/-- The closed enumeration of demodulator variants (41_demodulator.md R156): 0 NCOH, 1 COH, 2 CHAL. -/
inductive Variant where
  | ncoh | coh | chal
  deriving DecidableEq, Repr, Inhabited

/-- The agents inside the block (00_scope.md R18): the command processor and the pipelines `P[c][v]`. -/
inductive Agent where
  | cp
  | pipe (c : Chan) (v : Variant)
  deriving DecidableEq, Repr, Inhabited

/-- A complex sample, two signed 16-bit components (00_scope.md R11, 20_memory.md R72). -/
structure Sample where
  i : BitVec 16
  q : BitVec 16
  deriving DecidableEq, Repr

/-- CandidateFrame (30_encoding.md R109): the destuffed bits in time order, the pipeline they come
from, and the arrival timestamp. -/
structure CandFrame where
  bits : List Bool
  chan : Chan
  var : Variant
  ts : BitVec 64
  deriving DecidableEq, Repr

/-- A command packet (30_encoding.md R100, R101): a header word and the words after it, the last of
them marked `last`. A packet has at least one word by construction. -/
structure Packet where
  hdr : Word
  body : List Word
  deriving DecidableEq, Repr

/-- What the HOST does at the pins and ports (30_encoding.md R100), one action at a time. -/
inductive HostAct where
  /-- One word on the command port with its mark `cmd_last`. -/
  | sendWord (w : Word) (last : Bool)
  /-- One word taken from the response port. -/
  | takeWord
  /-- The pin `shutdown_req` is driven to a level (45_host_commands.md R248). -/
  | setShutdown (level : Bool)
  /-- A pulse on the pin `rst` (70_reset_and_hazards.md R310). -/
  | rstPulse
  deriving DecidableEq, Repr

/-- Who goes next inside the block: one agent takes its step (00_scope.md R18), or block steps of several
pipelines overlap, their samples taken in the order of the list (20_memory.md R79; log entry 15). -/
inductive Turn where
  | agent (a : Agent)
  | overlap (order : List (Chan × Variant))
  deriving DecidableEq, Repr, Inhabited

/-- What happens next: an agent of the block takes its step, block steps overlap, or the HOST acts (log
entries 1, 2, 15). -/
inductive Move where
  | agent (a : Agent)
  | overlap (order : List (Chan × Variant))
  | host (h : HostAct)
  deriving DecidableEq, Repr

/-- The operations. An argument field the spec calls ignored (30_encoding.md R101) is kept as an
operand `arg`, so that no bit of an encoding is dropped; no meaning reads it (log entry 11). -/
inductive Instr where
  /-- NOP, 45_host_commands.md R241. -/
  | nop (arg : BitVec 24)
  /-- SRESET, 45_host_commands.md R242. -/
  | sreset (arg : BitVec 24)
  /-- CFGWR, 45_host_commands.md R243: register index `idx`, data `val`. -/
  | cfgwr (arg : BitVec 12) (idx : BitVec 12) (val : Word)
  /-- REGRD, 45_host_commands.md R244: register index `idx`. -/
  | regrd (arg : BitVec 12) (idx : BitVec 12)
  /-- START, 45_host_commands.md R245. -/
  | start (arg : BitVec 24)
  /-- STOP, 45_host_commands.md R247. -/
  | stop (arg : BitVec 24)
  /-- FENCE, 45_host_commands.md R249. -/
  | fence (arg : BitVec 24)
  /-- BLOCK, 45_host_commands.md R250: `chid`, the declared length `len`, and the packet's words
  after the header: sequence number, rate, samples (30_encoding.md R104), as many as the packet has. -/
  | block (chid : BitVec 8) (len : BitVec 16) (body : List Word)
  /-- EOS, 45_host_commands.md R251. -/
  | eos (arg : BitVec 24)
  /-- FRPOP, 45_host_commands.md R252. -/
  | frpop (arg : BitVec 24)
  /-- COND.SAMPLE, 40_conditioner.md R133: one acquisition-rate sample. -/
  | condSample (x : Sample)
  /-- DEM.NCOH, 41_demodulator.md R152, in the pipeline of channel `c` and variant 0. -/
  | demNcoh (c : Chan) (z : Sample)
  /-- DEM.COH, 41_demodulator.md R155, in the pipeline of channel `c` and variant 1. -/
  | demCoh (c : Chan) (z : Sample)
  /-- DEM.CHAL, 41_demodulator.md R158, in the pipeline of channel `c` and variant 2. -/
  | demChal (c : Chan) (z : Sample)
  /-- SYN.STEP, 42_synchroniser.md R172: one SymbolStream element (30_encoding.md R107). -/
  | synStep (c : Chan) (v : Variant) (e : BitVec 16)
  /-- NRZI.BIT, 43_deframer.md R191: one raw bit. -/
  | nrziBit (c : Chan) (v : Variant) (r : Bool)
  /-- HDLC.BIT, 43_deframer.md R193: one decoded bit. -/
  | hdlcBit (c : Chan) (v : Variant) (d : Bool)
  /-- VAL.FRAME, 44_validator.md R221: one CandidateFrame, which carries its pipeline. -/
  | valFrame (f : CandFrame)
  deriving DecidableEq, Repr

end Sys2Proof
end

