-- ==== Sys2Proof/Config.lean ====
section
/-!
DEFINITION. What the hardware fixes (00_scope.md R6), the sizes no source gives (QDEPTH, OFDEPTH,
RSPDEPTH; log entry 3), and the free values of the model: which turn comes next when nothing says so, and
how many turns may pass before an agent's turn must come (log entries 1, 12).
-/

namespace Sys2Proof.Config

/-- FS_WORK: the working rate in samples per second (R6). -/
abbrev fsWork : Nat := 48000

/-- SPS * TFR = 5 * 16 ticks per symbol (R6, 42_synchroniser.md R171). -/
abbrev ticksPerSymbol : Int := 80

/-- TFR: ticks per working-rate sample (R6). -/
abbrev ticksPerSample : Int := 16

/-- NTAPS_MAX (R6): the length of the delay line. -/
abbrev ntapsMax : Nat := 64

/-- MAXBLK (R6): the largest SampleBlock, in samples. -/
abbrev maxBlk : Nat := 16384

/-- MAXPAY (R6): the largest payload, in bits. -/
abbrev maxPay : Nat := 1008

/-- FBUF_CAP (R6): the frame buffer's capacity, in bits. -/
abbrev fbufCap : Nat := 1030

/-- The depths of the FIFOs, `none` for unbounded (70_reset_and_hazards.md R322): blocks in each
`Q[c][v]`, records in `OF`, words in `RSP`. -/
structure Depths where
  qDepth : Option Nat
  ofDepth : Option Nat
  rspDepth : Option Nat
  deriving DecidableEq, Repr

/-- FREE VALUE (log entry 1). The turn that comes next when the script of a run is used up and no agent's
turn is due: "Any agent with an enabled step may step next" (00_scope.md R18), so nothing constrains it. -/
opaque arbiter : Nat → Turn

/-- FREE VALUE (log entry 12). How many turns the arbiter gives before the next due turn: weak fairness
(70_reset_and_hazards.md R327) says that an agent's turn comes, and nothing says when. -/
opaque patience : Nat → Nat

end Sys2Proof.Config
end

