-- ==== Sys2Proof/Decode.lean ====
section
/-!
DEFINITION. Decoding, from 30_encoding.md: command packets (R101 to R104, R110 to R113) and the
elements between the stages (R106 to R109, R116); then the encoder, written from the same tables.
Decoding is total: a packet that is no command is rejected by the name of the event it raises.
-/

namespace Sys2Proof

/-! ### Sample words -/

/-- A sample word unpacked (20_memory.md R72): `I` in bits 15:0, `Q` in bits 31:16. -/
def unpackSample (w : Word) : Sample :=
  { i := w.extractLsb' 0 16, q := w.extractLsb' 16 16 }

/-- A sample packed (20_memory.md R72). -/
def packSample (x : Sample) : Word := x.q ++ x.i

/-! ### Opcodes -/

/-- The ten opcodes of the table of R101. -/
inductive Opcode where
  | nop | sreset | cfgwr | regrd | start | stop | fence | block | eos | frpop
  deriving DecidableEq, Repr

/-- The opcode numbers of the table of R101; every other value is reserved (R111). -/
def opcodeOf (op : BitVec 8) : Option Opcode :=
  match op.toNat with
  | 0x00 => some .nop
  | 0x01 => some .sreset
  | 0x02 => some .cfgwr
  | 0x03 => some .regrd
  | 0x04 => some .start
  | 0x05 => some .stop
  | 0x06 => some .fence
  | 0x10 => some .block
  | 0x11 => some .eos
  | 0x20 => some .frpop
  | _ => none

/-- The number of an opcode (R101). -/
def opcodeNum : Opcode → BitVec 8
  | .nop => 0x00#8
  | .sreset => 0x01#8
  | .cfgwr => 0x02#8
  | .regrd => 0x03#8
  | .start => 0x04#8
  | .stop => 0x05#8
  | .fence => 0x06#8
  | .block => 0x10#8
  | .eos => 0x11#8
  | .frpop => 0x20#8

/-! ### Command packets -/

/-- What a packet decodes to: a command, or a rejection named after its event. -/
inductive Decoded where
  /-- A command of the table. -/
  | instr (i : Instr)
  /-- The opcode is reserved: CmdReserved (R111). -/
  | reserved
  /-- The opcode is legal and the word count is not the format's: CmdLength (R112). -/
  | badLength
  deriving DecidableEq, Repr

/-- Format H (R102): the packet is the header alone. -/
def decodeH (p : Packet) (i : Instr) : Decoded :=
  match p.body with
  | [] => .instr i
  | _ :: _ => .badLength

/-- Format RW (R103): the header and one data word. -/
def decodeRW (p : Packet) (i : Word → Instr) : Decoded :=
  match p.body with
  | [val] => .instr (i val)
  | _ => .badLength

/-- Decoding a command packet (R101, R110). The same packet decodes the same way in every lifecycle
state (R113). A BLOCK is never refused for its word count (R112). -/
def decodePacket (p : Packet) : Decoded :=
  let arg : BitVec 24 := p.hdr.extractLsb' 0 24
  let hi : BitVec 12 := p.hdr.extractLsb' 12 12
  let idx : BitVec 12 := p.hdr.extractLsb' 0 12
  match opcodeOf (p.hdr.extractLsb' 24 8) with
  | none => .reserved
  | some .nop => decodeH p (.nop arg)
  | some .sreset => decodeH p (.sreset arg)
  | some .cfgwr => decodeRW p (.cfgwr hi idx)
  | some .regrd => decodeH p (.regrd hi idx)
  | some .start => decodeH p (.start arg)
  | some .stop => decodeH p (.stop arg)
  | some .fence => decodeH p (.fence arg)
  | some .block => .instr (.block (p.hdr.extractLsb' 16 8) (p.hdr.extractLsb' 0 16) p.body)
  | some .eos => decodeH p (.eos arg)
  | some .frpop => decodeH p (.frpop arg)

/-! ### Stream elements -/

/-- The positions of the chain (R116); which stage operation runs is fixed by the position. -/
inductive Stage where
  | cond
  | dem (c : Chan) (v : Variant)
  | syn (c : Chan) (v : Variant)
  | nrzi (c : Chan) (v : Variant)
  | hdlc (c : Chan) (v : Variant)
  | val (c : Chan) (v : Variant)
  deriving DecidableEq, Repr

/-- The formats of the elements that set the stage operations off (R116). -/
inductive Element where
  /-- A sample word (R104, R106). -/
  | sample (w : Word)
  /-- A SymbolStream element (R107). -/
  | symbol (e : BitVec 16)
  /-- A raw or decoded bit (R108). -/
  | bit (b : Bool)
  /-- A CandidateFrame record (R109), which no rule packs into words. -/
  | frame (f : CandFrame)
  deriving DecidableEq, Repr

/-- The demodulator operation of variant `v` (R116, 41_demodulator.md R156). -/
def demInstr (c : Chan) (v : Variant) (z : Sample) : Instr :=
  match v with
  | .ncoh => .demNcoh c z
  | .coh => .demCoh c z
  | .chal => .demChal c z

/-- The stage operation that an element sets off at a position (R116); `none` where the element is
not of the position's format. -/
def decodeElement : Stage → Element → Option Instr
  | .cond, .sample w => some (.condSample (unpackSample w))
  | .dem c v, .sample w => some (demInstr c v (unpackSample w))
  | .syn c v, .symbol e => some (.synStep c v e)
  | .nrzi c v, .bit r => some (.nrziBit c v r)
  | .hdlc c v, .bit d => some (.hdlcBit c v d)
  | .val c v, .frame f => if f.chan = c ∧ f.var = v then some (.valFrame f) else none
  | _, _ => none

/-! ### The encoder -/

/-- An encoded operation: a command packet, or an element at a position of the chain. -/
inductive Encoded where
  | packet (p : Packet)
  | element (st : Stage) (e : Element)
  deriving DecidableEq, Repr

/-- A header word: opcode in bits 31:24, argument in bits 23:0 (R101). -/
def header (op : Opcode) (arg : BitVec 24) : Word := opcodeNum op ++ arg

/-- The encoding of an operation (R101 to R109, R116). -/
def encode : Instr → Encoded
  | .nop arg => .packet { hdr := header .nop arg, body := [] }
  | .sreset arg => .packet { hdr := header .sreset arg, body := [] }
  | .cfgwr arg idx val => .packet { hdr := header .cfgwr (arg ++ idx), body := [val] }
  | .regrd arg idx => .packet { hdr := header .regrd (arg ++ idx), body := [] }
  | .start arg => .packet { hdr := header .start arg, body := [] }
  | .stop arg => .packet { hdr := header .stop arg, body := [] }
  | .fence arg => .packet { hdr := header .fence arg, body := [] }
  | .block chid len body => .packet { hdr := header .block (chid ++ len), body := body }
  | .eos arg => .packet { hdr := header .eos arg, body := [] }
  | .frpop arg => .packet { hdr := header .frpop arg, body := [] }
  | .condSample x => .element .cond (.sample (packSample x))
  | .demNcoh c z => .element (.dem c .ncoh) (.sample (packSample z))
  | .demCoh c z => .element (.dem c .coh) (.sample (packSample z))
  | .demChal c z => .element (.dem c .chal) (.sample (packSample z))
  | .synStep c v e => .element (.syn c v) (.symbol e)
  | .nrziBit c v r => .element (.nrzi c v) (.bit r)
  | .hdlcBit c v d => .element (.hdlc c v) (.bit d)
  | .valFrame f => .element (.val f.chan f.var) (.frame f)

/-- Decoding of either kind of encoding; `none` where it is rejected. -/
def decode : Encoded → Option Instr
  | .packet p =>
    match decodePacket p with
    | .instr i => some i
    | .reserved => none
    | .badLength => none
  | .element st e => decodeElement st e

/-! ### The words of the opcode table -/

/-- The word count a header calls for (R101); a reserved header stands alone. -/
def wordsOfHeader (hdr : Word) : Nat :=
  match opcodeOf (hdr.extractLsb' 24 8) with
  | some .cfgwr => 2
  | some .block => 3 + (hdr.extractLsb' 0 16 : BitVec 16).toNat
  | _ => 1

/-- `n` words read off `w`, low word first. -/
def wordsOf : Nat → Nat → List Word
  | 0, _ => []
  | n + 1, w => BitVec.ofNat 32 w :: wordsOf n (w / 2 ^ 32)

/-- The packet whose bits are `w`: bit 0 of `w` is bit 0 of the header, and a later word's bits count
on from it; the packet has as many words as its header calls for. -/
def packetOfBits (w : Nat) : Packet :=
  let hdr := BitVec.ofNat 32 w
  { hdr := hdr, body := wordsOf (wordsOfHeader hdr - 1) (w / 2 ^ 32) }

/-- The position whose elements are `nbits` wide and not a word: 16 bits is a SymbolStream element,
8 (one bit in whole bytes) a BitStream element. Both are read in pipeline `P[0][0]` (log entry 14). -/
def elementOfBits (nbits w : Nat) : Option (Stage × Element) :=
  match nbits with
  | 16 => some (.syn .ch0 .ncoh, .symbol (BitVec.ofNat 16 w))
  | 8 => some (.nrzi .ch0 .ncoh, .bit (decide (w % 2 = 1)))
  | _ => none

/-- The operation decoded from an encoding of `nbits` bits `w`, numbered as spec/opcode_table.json
numbers them. A 32-bit encoding is a command packet: that is what the block fetches (log entry 14). -/
def decodeTableWord (nbits w : Nat) : Option Instr :=
  match elementOfBits nbits w with
  | some (st, e) => decodeElement st e
  | none => if nbits < 32 then none else decode (.packet (packetOfBits (w % 2 ^ nbits)))

end Sys2Proof
end

