-- ==== Sys2Proof/Machine/State.lean ====
section
/-!
DEFINITION. The state of AISC-FE (10_state.md R20) as plain data, and its reset value (10_state.md
R50). Registers are bit vectors of the width the spec gives them; the three state machines
(10_state.md R23) are inductive types. Signed registers are read with `BitVec.toInt`.
-/

namespace Sys2Proof.Machine

open Sys2Proof

/-! ### State machines (10_state.md R23) -/

/-- LIFE (10_state.md R39). -/
inductive Life where
  | idle | running | stopped | fatal
  deriving DecidableEq, Repr

/-- `sstate` (10_state.md R25 (a), R46). -/
inductive SState where
  | unlocked | acquiring | locked
  deriving DecidableEq, Repr

/-- `fstate` (10_state.md R25 (b), R47). -/
inductive FState where
  | search | fill
  deriving DecidableEq, Repr

/-! ### Replicated groups -/

/-- One value per channel. -/
structure PerChan (α : Type) where
  c0 : α
  c1 : α
  deriving DecidableEq, Repr

/-- One value per pipeline instance `P[c][v]` (10_state.md R20). -/
structure PerPipe (α : Type) where
  ncoh0 : α
  coh0 : α
  chal0 : α
  ncoh1 : α
  coh1 : α
  chal1 : α
  deriving DecidableEq, Repr

/-- A ring of five registers, `r0` the newest (10_state.md R43, R44). -/
structure Ring (n : Nat) where
  r0 : BitVec n
  r1 : BitVec n
  r2 : BitVec n
  r3 : BitVec n
  r4 : BitVec n
  deriving DecidableEq, Repr

/-! ### Configuration (10_state.md R33, R34) -/

/-- The scalar configuration registers, each of its field's width (10_state.md R33). -/
structure Cfg where
  nch : BitVec 2
  varmask : BitVec 3
  srcId : BitVec 8
  fsAcq : BitVec 32
  decim : BitVec 7
  ntaps : BitVec 7
  shCond : BitVec 5
  rotlen0 : BitVec 7
  rotlen1 : BitVec 7
  shDem0 : BitVec 6
  shDem1 : BitVec 6
  shDem2 : BitVec 6
  cohStep : BitVec 6
  chalOffs : BitVec 15
  chalDcsh : BitVec 4
  thSig : BitVec 15
  nLock : BitVec 8
  errInc : BitVec 8
  errMax : BitVec 8
  nSil : BitVec 8
  tgain : BitVec 4
  nrziInv : BitVec 1
  sixbitCheck : BitVec 1
  deriving DecidableEq, Repr

/-- The coefficient memories `H` and `W` (10_state.md R34): pairs of a register index and its word,
indices strictly rising, no pair holding the word an unlisted index reads as (log entry 8). -/
abbrev Memory := List (Nat × Word)

/-! ### Counters (10_state.md R35, R36) -/

/-- The global counters (10_state.md R35). -/
structure GlobalCounters where
  blkAccepted : Word
  blkMalformed : Word
  shutdownDrops : Word
  cmdErr : Word
  overrunDrops : Word
  deriving DecidableEq, Repr

/-- The counters of one pipeline (10_state.md R36). -/
structure PipeCounters where
  locks : Word
  unlocks : Word
  framesAttempted : Word
  aborts : Word
  malformed : Word
  crcFail : Word
  framesValid : Word
  deriving DecidableEq, Repr

/-! ### Conditioner (10_state.md R40) -/

/-- The conditioner group (10_state.md R40), and the lists `out[c]` of 40_conditioner.md R133 while a
block is being conditioned (log entry 5). -/
structure CondState where
  dl : List Sample
  dphase : BitVec 7
  rotidx : PerChan (BitVec 6)
  haveSeq : Bool
  lastSeq : BitVec 32
  out : PerChan (List Sample)
  deriving DecidableEq, Repr

/-! ### Demodulator state (10_state.md R43 to R45) -/

/-- State of variant NCOH (10_state.md R43). -/
structure NcohState where
  zp : Sample
  dring : Ring 32
  deriving DecidableEq, Repr

/-- State of variant COH (10_state.md R44). -/
structure CohState where
  theta : BitVec 6
  uring : Ring 16
  deriving DecidableEq, Repr

/-- State of variant CHAL (10_state.md R45). -/
structure ChalState where
  zp : Sample
  dring : Ring 32
  dc0 : BitVec 16
  dc1 : BitVec 16
  dc2 : BitVec 16
  deriving DecidableEq, Repr

/-- The kernel states of one channel's three pipelines. -/
structure Kernels where
  ncoh : NcohState
  coh : CohState
  chal : ChalState
  deriving DecidableEq, Repr

/-! ### Pipeline-instance group (10_state.md R41, R42, R46, R47) -/

/-- A working-rate SampleBlock (30_encoding.md R106). -/
structure Block where
  chan : Chan
  seq : BitVec 32
  rate : BitVec 32
  samples : List Sample
  deriving DecidableEq, Repr

/-- Synchroniser state (10_state.md R46). -/
structure SynState where
  h1 : BitVec 16
  h2 : BitVec 16
  tcnt : BitVec 8
  sstate : SState
  good : BitVec 8
  err : BitVec 8
  sil : BitVec 8
  deriving DecidableEq, Repr

/-- Deframer state (10_state.md R47). Bit `i` of `fbuf` is the one-bit cell `fbuf[i]`. -/
structure DfrState where
  prevRaw : Bool
  runBit : Bool
  runLen : BitVec 3
  fstate : FState
  fbuf : BitVec 1030
  flen : BitVec 11
  deriving DecidableEq, Repr

/-- One pipeline instance: its queue (10_state.md R41), its group (R42, R46, R47), its counters (R36),
and the internal streams that leave DEM, SYN, NRZI and HDLC (R51 (d); log entry 5). -/
structure Pipe where
  q : List Block
  sampCnt : BitVec 64
  syn : SynState
  dfr : DfrState
  cnt : PipeCounters
  sym : List (BitVec 16)
  raw : List Bool
  dec : List Bool
  cand : List CandFrame
  deriving DecidableEq, Repr

/-! ### The machine -/

/-- The state of the block (10_state.md R20), the inputs it reads, and the sizes of its FIFOs. -/
structure State where
  /-- LIFE, R39. -/
  life : Life
  /-- `shutdown_latch`, R39. -/
  shutdownLatch : Bool
  /-- FATAL_CAUSE, R39. -/
  fatalCause : BitVec 8
  /-- LAST_ERR, R39. -/
  lastErr : BitVec 8
  /-- The sticky flag BLK_ERR, R30. -/
  blkErr : Bool
  /-- The sticky flag OVERRUN, R30. -/
  overrun : Bool
  /-- IRQ_ENABLE, R29. -/
  irqEnable : BitVec 5
  /-- The scalar configuration registers, R33. -/
  cfg : Cfg
  /-- The coefficient memories H and W, R34. -/
  coef : Memory
  /-- The global counters, R35. -/
  glob : GlobalCounters
  /-- The conditioner group, R40. -/
  cond : CondState
  /-- The demodulator states, R43 to R45, per channel. -/
  kern : PerChan Kernels
  /-- The pipeline instances, R41, R42, R46, R47, R36. -/
  pipe : PerPipe Pipe
  /-- CMD, R48: the oldest packet first. -/
  cmd : List Packet
  /-- The words of a packet whose `last` word the host has not sent yet (30_encoding.md R100). -/
  cmdPart : List Word
  /-- RSP, R48: the oldest response packet first, each a list of its remaining words. -/
  rsp : List (List Word)
  /-- OF, R48: the oldest frame record first, each a list of words (44_validator.md R226). -/
  ofifo : List (List Word)
  /-- The level of the input pin `shutdown_req` (30_encoding.md R100; log entry 6). -/
  shutdownReq : Bool
  /-- QDEPTH, OFDEPTH, RSPDEPTH (00_scope.md R6; log entry 3). -/
  depths : Config.Depths
  /-- What happens next, oldest first (log entry 2). -/
  script : List Move
  /-- How many turns the free arbiter has given (log entry 1). -/
  tick : Nat
  deriving DecidableEq, Repr

/-- The reasons a step could stop the machine with a fault: none. "Every operation of this spec is
total, and no input of any kind leads to a state without a defined successor" (60_exceptions.md R270):
the spec's events and fatal events are next states. Nobody raises a fault; that is safe. -/
inductive Fault
  deriving DecidableEq, Repr

/-- The reasons an operation could be refused. -/
inductive Refusal where
  /-- Raised by an arm of `exec` that gives its operation no meaning yet; safe. No arm raises it. -/
  | notModelled (mnemonic : String)
  deriving DecidableEq, Repr

/-! ### Reset values (10_state.md R50) -/

/-- The sample (0, 0). -/
def zeroSample : Sample := { i := 0#16, q := 0#16 }

/-- A ring of zeros. -/
def Ring.zero (n : Nat) : Ring n := { r0 := 0#n, r1 := 0#n, r2 := 0#n, r3 := 0#n, r4 := 0#n }

/-- The reset configuration (10_state.md R33, R50). -/
def Cfg.reset : Cfg where
  nch := 2#2
  varmask := 1#3
  srcId := 0#8
  fsAcq := 48000#32
  decim := 1#7
  ntaps := 1#7
  shCond := 14#5
  rotlen0 := 1#7
  rotlen1 := 1#7
  shDem0 := 15#6
  shDem1 := 3#6
  shDem2 := 15#6
  cohStep := 3#6
  chalOffs := 1024#15
  chalDcsh := 6#4
  thSig := 64#15
  nLock := 8#8
  errInc := 4#8
  errMax := 16#8
  nSil := 16#8
  tgain := 2#4
  nrziInv := 0#1
  sixbitCheck := 0#1

/-- All global counters 0. -/
def GlobalCounters.zero : GlobalCounters where
  blkAccepted := 0#32
  blkMalformed := 0#32
  shutdownDrops := 0#32
  cmdErr := 0#32
  overrunDrops := 0#32

/-- All counters of a pipeline 0. -/
def PipeCounters.zero : PipeCounters where
  locks := 0#32
  unlocks := 0#32
  framesAttempted := 0#32
  aborts := 0#32
  malformed := 0#32
  crcFail := 0#32
  framesValid := 0#32

/-- The conditioner at reset. -/
def CondState.reset : CondState where
  dl := List.replicate Config.ntapsMax zeroSample
  dphase := 0#7
  rotidx := { c0 := 0#6, c1 := 0#6 }
  haveSeq := false
  lastSeq := 0#32
  out := { c0 := [], c1 := [] }

/-- The kernel states at reset. -/
def Kernels.reset : Kernels where
  ncoh := { zp := zeroSample, dring := Ring.zero 32 }
  coh := { theta := 0#6, uring := Ring.zero 16 }
  chal := { zp := zeroSample, dring := Ring.zero 32, dc0 := 0#16, dc1 := 0#16, dc2 := 0#16 }

/-- The synchroniser at reset. -/
def SynState.reset : SynState where
  h1 := 0#16
  h2 := 0#16
  tcnt := 0#8
  sstate := .unlocked
  good := 0#8
  err := 0#8
  sil := 0#8

/-- The deframer at reset. -/
def DfrState.reset : DfrState where
  prevRaw := false
  runBit := false
  runLen := 0#3
  fstate := .search
  fbuf := 0#1030
  flen := 0#11

/-- A pipeline instance at reset. -/
def Pipe.reset : Pipe where
  q := []
  sampCnt := 0#64
  syn := .reset
  dfr := .reset
  cnt := .zero
  sym := []
  raw := []
  dec := []
  cand := []

/-- The same value for every pipeline. -/
def PerPipe.all {α : Type} (a : α) : PerPipe α :=
  { ncoh0 := a, coh0 := a, chal0 := a, ncoh1 := a, coh1 := a, chal1 := a }

/-- The machine right after reset (10_state.md R50, 70_reset_and_hazards.md R310, R311). The pin
`shutdown_req` is low, the FIFOs unbounded, the script empty (log entries 2, 3, 6). -/
def State.reset : State where
  life := .idle
  shutdownLatch := false
  fatalCause := 0#8
  lastErr := 0#8
  blkErr := false
  overrun := false
  irqEnable := 0#5
  cfg := .reset
  coef := []
  glob := .zero
  cond := .reset
  kern := { c0 := .reset, c1 := .reset }
  pipe := .all .reset
  cmd := []
  cmdPart := []
  rsp := []
  ofifo := []
  shutdownReq := false
  depths := { qDepth := none, ofDepth := none, rspDepth := none }
  script := []
  tick := 0

end Sys2Proof.Machine
end

