-- ==== Sys2Proof/Machine/Arith.lean ====
section
/-!
DEFINITION. The arithmetic wrappers of 00_scope.md R9, R10 and R15. All arithmetic of the datapath is
over the integers; the wrappers are the only lossy steps (R16).
-/

namespace Sys2Proof.Machine

open Sys2Proof

/-- `sat(v, lo, hi)` (R9). -/
def sat (v lo hi : Int) : Int := if v < lo then lo else if v > hi then hi else v

/-- `sat16(v)` (R9). -/
def sat16 (v : Int) : Int := sat v (-32768) 32767

/-- `satsoft(v)` (R9). -/
def satsoft (v : Int) : Int := sat v (-32767) 32767

/-- `satcnt(v)` (R9), of a count. -/
def satcnt (v : Nat) : Nat := min v (2 ^ 32 - 1)

/-- `a >> s`: the floor of `a / 2^s` (R9); `Int` division by a positive number is the floor. -/
def shr (a : Int) (s : Nat) : Int := a / 2 ^ s

/-- `rnd_shr(a, s)` (R10): to nearest, ties toward positive infinity. -/
def rndShr (a : Int) (s : Nat) : Int := if s = 0 then a else shr (a + 2 ^ (s - 1)) s

/-- `abs(v)` (R9). -/
def absI (v : Int) : Int := if v < 0 then -v else v

/-- `sgn(v)` (R9). -/
def sgn (v : Int) : Int := if 0 < v then 1 else if v = 0 then 0 else -1

/-- `inc` on a 32-bit counter's value (R15): it sticks at 0xFFFFFFFF. -/
def incWord (w : Word) : Word := BitVec.ofNat 32 (satcnt (w.toNat + 1))

/-- An 8-bit counter that saturates at 255 (42_synchroniser.md R176). -/
def addSat8 (a : BitVec 8) (n : Nat) : BitVec 8 := BitVec.ofNat 8 (min (a.toNat + n) 255)

/-- An 8-bit counter that stops at 0 (42_synchroniser.md R176). -/
def decSat8 (a : BitVec 8) : BitVec 8 := BitVec.ofNat 8 (a.toNat - 1)

/-! ### Rings (10_state.md R43, R44) -/

/-- `for i = 4 down to 1: ring[i] <- ring[i-1]; ring[0] <- x` (41_demodulator.md R152, R155, R158). -/
def Ring.push {n : Nat} (r : Ring n) (x : Int) : Ring n :=
  { r0 := BitVec.ofInt n x, r1 := r.r0, r2 := r.r1, r3 := r.r2, r4 := r.r3 }

/-- The sum of the five registers, read as signed integers (41_demodulator.md R152, R155, R158). -/
def Ring.sum {n : Nat} (r : Ring n) : Int :=
  r.r0.toInt + r.r1.toInt + r.r2.toInt + r.r3.toInt + r.r4.toInt

/-! ### Bit lists in words (20_memory.md R73) -/

/-- The number whose bit `i` is element `i` of the list. -/
def natOfBits : List Bool → Nat
  | [] => 0
  | b :: l => b.toNat + 2 * natOfBits l

/-- Word `j` of a packed bit list: element `32j + i` in bit `i`, zeros beyond the list. -/
def packWord (l : List Bool) (j : Nat) : Word :=
  BitVec.ofNat 32 (natOfBits ((l.drop (32 * j)).take 32))

/-- A bit list packed into `ceil(len / 32)` words. -/
def packBits (l : List Bool) : List Word :=
  (List.range ((l.length + 31) / 32)).map (packWord l)

end Sys2Proof.Machine
end

