-- ==== Sys2Proof/Machine/Ops.lean ====
section
/-!
DEFINITION. The named operations over the state: access to the replicated groups, the coefficient
memory (10_state.md R34), events (60_exceptions.md R271 to R276) and fatal events (R280), which are
this block's counterpart of taking an exception, and reset (70_reset_and_hazards.md R310), its only
way back; the queues and FIFOs (10_state.md R41, R48).
-/

namespace Sys2Proof.Machine

open Sys2Proof

/-! ### Access by channel and by pipeline -/

/-- The value of channel `c`. -/
def PerChan.get {α : Type} (x : PerChan α) : Chan → α
  | .ch0 => x.c0
  | .ch1 => x.c1

/-- The value of channel `c` replaced. -/
def PerChan.set {α : Type} (x : PerChan α) (c : Chan) (a : α) : PerChan α :=
  match c with
  | .ch0 => { x with c0 := a }
  | .ch1 => { x with c1 := a }

/-- The value of pipeline `P[c][v]`. -/
def PerPipe.get {α : Type} (x : PerPipe α) : Chan → Variant → α
  | .ch0, .ncoh => x.ncoh0
  | .ch0, .coh => x.coh0
  | .ch0, .chal => x.chal0
  | .ch1, .ncoh => x.ncoh1
  | .ch1, .coh => x.coh1
  | .ch1, .chal => x.chal1

/-- The value of pipeline `P[c][v]` replaced. -/
def PerPipe.set {α : Type} (x : PerPipe α) (c : Chan) (v : Variant) (a : α) : PerPipe α :=
  match c, v with
  | .ch0, .ncoh => { x with ncoh0 := a }
  | .ch0, .coh => { x with coh0 := a }
  | .ch0, .chal => { x with chal0 := a }
  | .ch1, .ncoh => { x with ncoh1 := a }
  | .ch1, .coh => { x with coh1 := a }
  | .ch1, .chal => { x with chal1 := a }

/-- A function applied to every pipeline. -/
def PerPipe.map {α β : Type} (f : α → β) (x : PerPipe α) : PerPipe β where
  ncoh0 := f x.ncoh0
  coh0 := f x.coh0
  chal0 := f x.chal0
  ncoh1 := f x.ncoh1
  coh1 := f x.coh1
  chal1 := f x.chal1

/-- The six values, `p = 4c + v` rising (10_state.md R36). -/
def PerPipe.toList {α : Type} (x : PerPipe α) : List α :=
  [x.ncoh0, x.coh0, x.chal0, x.ncoh1, x.coh1, x.chal1]

/-- Pipeline `P[c][v]` replaced. -/
def State.setPipe (s : State) (c : Chan) (v : Variant) (p : Pipe) : State :=
  { s with pipe := s.pipe.set c v p }

/-- The kernel states of channel `c` replaced. -/
def State.setKern (s : State) (c : Chan) (k : Kernels) : State :=
  { s with kern := s.kern.set c k }

/-- The channel's number (40_conditioner.md R136). -/
def chanNum : Chan → Nat
  | .ch0 => 0
  | .ch1 => 1

/-- The variant's number (41_demodulator.md R156). -/
def varNum : Variant → Nat
  | .ncoh => 0
  | .coh => 1
  | .chal => 2

/-- Channel `c` is an active output channel: `c < NCH` (10_state.md R20). -/
def chanActive (cfg : Cfg) (c : Chan) : Bool := decide (chanNum c < cfg.nch.toNat)

/-- Bit `v` of VARMASK (10_state.md R33). -/
def varActive (cfg : Cfg) (v : Variant) : Bool := cfg.varmask.getLsbD (varNum v)

/-- The pair `(c, v)` is active (10_state.md R20). -/
def pairActive (cfg : Cfg) (c : Chan) (v : Variant) : Bool := chanActive cfg c && varActive cfg v

/-- Every pair, channel by channel. -/
def allPairs : List (Chan × Variant) :=
  [(.ch0, .ncoh), (.ch0, .coh), (.ch0, .chal), (.ch1, .ncoh), (.ch1, .coh), (.ch1, .chal)]

/-! ### Coefficient memory (10_state.md R34) -/

/-- The register index of `H[c][k]`: `0x100 + 64c + k`. -/
def hIndex (c : Chan) (k : Nat) : Nat := 0x100 + 64 * chanNum c + k

/-- The register index of `W[c][i]`: `0x200 + 64c + i`. -/
def wIndex (c : Chan) (i : Nat) : Nat := 0x200 + 64 * chanNum c + i

/-- What an unlisted index reads as: the reset contents, (16384, 0) at `H[c][0]` and `W[c][0]`, else
(0, 0) (10_state.md R34, R50). -/
def coefReset (a : Nat) : Word :=
  if a = 0x100 ∨ a = 0x140 ∨ a = 0x200 ∨ a = 0x240 then 0x00004000#32 else 0#32

/-- The word at a register index. -/
def Memory.read : Memory → Nat → Word
  | [], a => coefReset a
  | (b, w) :: m, a => if a = b then w else Memory.read m a

/-- A word put in front of a memory whose indices all lie above `a`, left out where it is what an
unlisted index reads as. -/
def Memory.put (a : Nat) (v : Word) (m : Memory) : Memory :=
  if v = coefReset a then m else (a, v) :: m

/-- The memory with a word written; the canonical form is kept. -/
def Memory.write : Memory → Nat → Word → Memory
  | [], a, v => Memory.put a v []
  | (b, w) :: m, a, v =>
    if a < b then Memory.put a v ((b, w) :: m)
    else if a = b then Memory.put a v m
    else (b, w) :: Memory.write m a v

/-- Every index of the memory lies above `a`. -/
def Memory.above (a : Nat) : Memory → Bool
  | [] => true
  | (b, _) :: _ => decide (a < b)

/-- The canonical form: indices strictly rising, no entry equal to what an unlisted index reads as. -/
def Memory.wf : Memory → Bool
  | [] => true
  | (a, w) :: m => decide (w ≠ coefReset a) && Memory.above a m && Memory.wf m

/-! ### Events (60_exceptions.md R271 to R276) -/

/-- The recoverable events (60_exceptions.md R272). -/
inductive Event where
  | blkMalformed (code : BitVec 8)
  | cmdReserved
  | cmdLength
  | cmdState
  | regUnmapped
  | regReadOnly
  | overrun
  | shutdownDrop
  deriving DecidableEq, Repr

/-- A command error (60_exceptions.md R276): `inc(CMD_ERR)`, `LAST_ERR <- code`. -/
def raiseCmdErr (code : BitVec 8) (s : State) : State :=
  { s with glob := { s.glob with cmdErr := incWord s.glob.cmdErr }, lastErr := code }

/-- `raise E` for a recoverable event (60_exceptions.md R271), with the codes of R272. -/
def raise (e : Event) (s : State) : State :=
  match e with
  | .blkMalformed code =>
    { s with
      glob := { s.glob with blkMalformed := incWord s.glob.blkMalformed }
      lastErr := code
      blkErr := true }
  | .cmdReserved => raiseCmdErr 0x10#8 s
  | .cmdLength => raiseCmdErr 0x11#8 s
  | .cmdState => raiseCmdErr 0x12#8 s
  | .regUnmapped => raiseCmdErr 0x13#8 s
  | .regReadOnly => raiseCmdErr 0x14#8 s
  | .overrun =>
    { s with
      glob := { s.glob with overrunDrops := incWord s.glob.overrunDrops }
      overrun := true }
  | .shutdownDrop =>
    { s with glob := { s.glob with shutdownDrops := incWord s.glob.shutdownDrops } }

/-- An event raised `n` times. -/
def raiseTimes : Nat → Event → State → State
  | 0, _, s => s
  | n + 1, e, s => raiseTimes n e (raise e s)

/-- The causes of FATAL (60_exceptions.md R280). -/
inductive FatalCause where
  | configInvalid
  | srcClosed
  deriving DecidableEq, Repr

/-- The number of a cause (60_exceptions.md R280). -/
def fatalNum : FatalCause → BitVec 8
  | .configInvalid => 0x01#8
  | .srcClosed => 0x02#8

/-- A fatal event (60_exceptions.md R280): `LIFE <- FATAL`, `FATAL_CAUSE <- cause`, nothing else. -/
def raiseFatal (k : FatalCause) (s : State) : State :=
  { s with life := .fatal, fatalCause := fatalNum k }

/-! ### Reset (70_reset_and_hazards.md R310), the way out of STOPPED and FATAL (60_exceptions.md R290) -/

/-- Every state element at its reset value (10_state.md R50), but for what is no element of the block:
the pin's level, the FIFO sizes, the script and its counter. A pin that is high sets the latch again
at once (45_host_commands.md R242, 70_reset_and_hazards.md R311). -/
def pinReset (s : State) : State :=
  { State.reset with
    shutdownReq := s.shutdownReq
    shutdownLatch := s.shutdownReq
    depths := s.depths
    script := s.script
    tick := s.tick }

/-- Reset by SRESET: as the pin's, but "SRESET leaves those two alone" (R310): CMD, with a packet in
flight to it, and RSP. -/
def softReset (s : State) : State :=
  { pinReset s with cmd := s.cmd, cmdPart := s.cmdPart, rsp := s.rsp }

/-! ### Queues and FIFOs -/

/-- Whether a FIFO of this depth that holds `n` elements is full. -/
def fullAt (depth : Option Nat) (n : Nat) : Bool :=
  match depth with
  | none => false
  | some d => decide (d ≤ n)

/-- `push(Q[c][v], B)`, or Overrun where the queue already holds QDEPTH blocks (40_conditioner.md
R136). -/
def pushQueue (b : Block) (s : State) (cv : Chan × Variant) : State :=
  let p := s.pipe.get cv.1 cv.2
  if fullAt s.depths.qDepth p.q.length then raise .overrun s
  else s.setPipe cv.1 cv.2 { p with q := p.q ++ [b] }

/-- The number of blocks in all six queues. -/
def queuedBlocks (s : State) : Nat := (s.pipe.toList.map fun p => p.q.length).sum

/-- Every `Q[c][v]` emptied. -/
def emptyQueues (s : State) : State :=
  { s with pipe := s.pipe.map fun p => { p with q := [] } }

/-- Every `Q[c][v]` is empty. -/
def queuesEmpty (s : State) : Bool := s.pipe.toList.all fun p => p.q.isEmpty

/-- `push(OF, rec)`, or Overrun where `OF` is full (44_validator.md R221, R228). -/
def pushFrame (rec : List Word) (s : State) : State :=
  if fullAt s.depths.ofDepth s.ofifo.length then raise .overrun s
  else { s with ofifo := s.ofifo ++ [rec] }

/-- `push(RSP, packet)`. -/
def pushRsp (ws : List Word) (s : State) : State := { s with rsp := s.rsp ++ [ws] }

/-- The words waiting in RSP. -/
def rspWords (s : State) : Nat := (s.rsp.map List.length).sum

/-- RSP has room for `n` more words (45_host_commands.md R240). -/
def rspRoom (n : Nat) (s : State) : Bool :=
  match s.depths.rspDepth with
  | none => true
  | some d => decide (rspWords s + n ≤ d)

/-- What STOP does in IDLE and RUNNING (45_host_commands.md R247): one ShutdownDrop per queued block,
the queues emptied, `LIFE <- STOPPED`. -/
def shutdown (s : State) : State :=
  { emptyQueues (raiseTimes (queuedBlocks s) .shutdownDrop s) with life := .stopped }

end Sys2Proof.Machine
end

