-- ==== Sys2Proof/Machine/Operands.lean ====
section
/-!
DEFINITION. The operand forms: the words of a BLOCK packet (30_encoding.md R104, R110), the
SymbolStream element and the soft value it stands for (R107), and the sample operands read as signed
integers (20_memory.md R72).
-/

namespace Sys2Proof.Machine

open Sys2Proof

/-- `seq = pkt[1]`; "a missing `seq` or `rate` word ... reads as 0" (40_conditioner.md R131). -/
def blockSeq (body : List Word) : Word := (body[0]?).getD 0#32

/-- `rate = pkt[2]` (40_conditioner.md R131). -/
def blockRate (body : List Word) : Word := (body[1]?).getD 0#32

/-- `samples = pkt[3..]` (45_host_commands.md R250). -/
def blockSamples (body : List Word) : List Sample := (body.drop 2).map unpackSample

/-- `nsamp = max(0, words - 3)` (45_host_commands.md R250). -/
def blockNsamp (body : List Word) : Nat := body.length - 2

/-- The soft value of a SymbolStream element (30_encoding.md R107): `conf` if value = 1, else `-conf`.
"Minus zero" reads as 0. -/
def softOf (e : BitVec 16) : Int :=
  let conf : BitVec 15 := e.extractLsb' 0 15
  if e.getLsbD 15 then (conf.toNat : Int) else -(conf.toNat : Int)

/-- The SymbolStream element of a soft value (30_encoding.md R107). -/
def symOf (soft : Int) : BitVec 16 :=
  if 0 < soft then 1#1 ++ BitVec.ofInt 15 soft else 0#1 ++ BitVec.ofInt 15 (-soft)

/-- The sample at place `k` of the delay line (10_state.md R40); (0, 0) where there is none. -/
def dlAt (dl : List Sample) (k : Nat) : Sample := (dl[k]?).getD zeroSample

end Sys2Proof.Machine
end

