-- ==== Sys2Proof/Machine/Conditioner.lean ====
section
/-!
DEFINITION. The Sample Conditioner (40_conditioner.md): the filter FIR (R134), the derotator DEROT
(R135), COND.SAMPLE (R133), the block check (R132) and the output blocks (R136).
-/

namespace Sys2Proof.Machine

open Sys2Proof

/-- The tap `H[c][k]` (10_state.md R34). -/
def tapH (s : State) (c : Chan) (k : Nat) : Sample := unpackSample (Memory.read s.coef (hIndex c k))

/-- The factor `W[c][i]` (10_state.md R34). -/
def factorW (s : State) (c : Chan) (i : Nat) : Sample := unpackSample (Memory.read s.coef (wIndex c i))

/-- The real part of a complex product (00_scope.md R11). -/
def mulRe (a b : Sample) : Int := a.i.toInt * b.i.toInt - a.q.toInt * b.q.toInt

/-- The imaginary part of a complex product (00_scope.md R11). -/
def mulIm (a b : Sample) : Int := a.i.toInt * b.q.toInt + a.q.toInt * b.i.toInt

/-- A sample of two integers saturated to 16 bits (40_conditioner.md R134, R135). -/
def satSample (i q : Int) : Sample := { i := BitVec.ofInt 16 (sat16 i), q := BitVec.ofInt 16 (sat16 q) }

/-- The exact sum over `k = 0 .. n - 1` (00_scope.md R16). -/
def sumTo (f : Nat → Int) : Nat → Int
  | 0 => 0
  | n + 1 => sumTo f n + f n

/-- FIR(c) (40_conditioner.md R134). -/
def fir (s : State) (c : Chan) : Sample :=
  let n := s.cfg.ntaps.toNat
  let aI := sumTo (fun k => mulRe (tapH s c k) (dlAt s.cond.dl k)) n
  let aQ := sumTo (fun k => mulIm (tapH s c k) (dlAt s.cond.dl k)) n
  satSample (rndShr aI s.cfg.shCond.toNat) (rndShr aQ s.cfg.shCond.toNat)

/-- ROTLEN_c (40_conditioner.md R135). -/
def rotlen (cfg : Cfg) : Chan → Nat
  | .ch0 => cfg.rotlen0.toNat
  | .ch1 => cfg.rotlen1.toNat

/-- The sample `z` of DEROT(c, y) (40_conditioner.md R135). -/
def derot (s : State) (c : Chan) (y : Sample) : Sample :=
  let w := factorW s c (s.cond.rotidx.get c).toNat
  satSample (rndShr (mulRe y w) 14) (rndShr (mulIm y w) 14)

/-- `(rotidx[c] + 1) mod ROTLEN_c` (40_conditioner.md R135). -/
def nextRot (s : State) (c : Chan) : BitVec 6 :=
  BitVec.ofNat 6 (((s.cond.rotidx.get c).toNat + 1) % rotlen s.cfg c)

/-- One output sample of channel `c`: FIR, DEROT, appended to `out[c]` (40_conditioner.md R133). -/
def condOutput (s : State) (c : Chan) : State :=
  let z := derot s c (fir s c)
  { s with cond := { s.cond with
      rotidx := s.cond.rotidx.set c (nextRot s c)
      out := s.cond.out.set c (s.cond.out.get c ++ [z]) } }

/-- The active channels, `c = 0 .. NCH-1`. -/
def activeChans (cfg : Cfg) : List Chan := [Chan.ch0, Chan.ch1].filter (chanActive cfg)

/-- The delay line shifted by one, `dl[0] <- x` (40_conditioner.md R133). -/
def shiftDl (x : Sample) (dl : List Sample) : List Sample := (x :: dl).take Config.ntapsMax

/-- COND.SAMPLE (40_conditioner.md R133). -/
def condSample (x : Sample) (s : State) : State :=
  let dl := shiftDl x s.cond.dl
  let n := s.cond.dphase.toNat + 1
  if n = s.cfg.decim.toNat then
    (activeChans s.cfg).foldl condOutput { s with cond := { s.cond with dl := dl, dphase := 0#7 } }
  else
    { s with cond := { s.cond with dl := dl, dphase := BitVec.ofNat 7 n } }

/-- The block check (40_conditioner.md R132): the code of the first test that fails. -/
def blockCheck (chid : BitVec 8) (len : BitVec 16) (body : List Word) (s : State) : Option (BitVec 8) :=
  if len.toNat = 0 ∨ Config.maxBlk < len.toNat then some 0x01#8
  else if blockNsamp body ≠ len.toNat then some 0x02#8
  else if chid ≠ s.cfg.srcId then some 0x03#8
  else if blockRate body ≠ s.cfg.fsAcq then some 0x04#8
  else if s.cond.haveSeq = true ∧ (blockSeq body).toNat < s.cond.lastSeq.toNat then some 0x05#8
  else none

/-- A block accepted (40_conditioner.md R132), the lists `out[c]` empty (R133). -/
def acceptBlock (seq : Word) (s : State) : State :=
  { s with
    cond := { s.cond with haveSeq := true, lastSeq := seq, out := { c0 := [], c1 := [] } }
    glob := { s.glob with blkAccepted := incWord s.glob.blkAccepted } }

/-- The output block of channel `c` (40_conditioner.md R136). -/
def outBlock (seq : Word) (s : State) (c : Chan) : Block :=
  { chan := c, seq := seq, rate := BitVec.ofNat 32 Config.fsWork, samples := s.cond.out.get c }

/-- Every active pair gets its channel's output block (40_conditioner.md R136). -/
def pushBlocks (seq : Word) (s : State) : State :=
  (allPairs.filter fun cv => pairActive s.cfg cv.1 cv.2).foldl
    (fun t cv => pushQueue (outBlock seq s cv.1) t cv) s

/-- The lists `out[c]` emptied at the end of a block (log entry 5). -/
def clearOut (s : State) : State := { s with cond := { s.cond with out := { c0 := [], c1 := [] } } }

/-- An accepted block conditioned: every sample in order, then the output blocks. -/
def condAccepted (body : List Word) (s : State) : State :=
  let s1 := (blockSamples body).foldl (fun t x => condSample x t) (acceptBlock (blockSeq body) s)
  clearOut (pushBlocks (blockSeq body) s1)

/-- COND.BLOCK (40_conditioner.md R132 to R136). -/
def condBlock (chid : BitVec 8) (len : BitVec 16) (body : List Word) (s : State) : State :=
  match blockCheck chid len body s with
  | some code => raise (.blkMalformed code) s
  | none => condAccepted body s

/-- The meaning of COND.SAMPLE. -/
def execCondSample (x : Sample) (s : State) : Host.Outcome State Fault Refusal :=
  .next (condSample x s)

end Sys2Proof.Machine
end

