-- ==== Sys2Proof/Machine/Flags.lean ====
section
/-!
DEFINITION. The status words and pins computed from the state: STATUS (10_state.md R28), IRQ_STATUS
(R30), PSTATE (R38), and the pins `irq` and `fatal` (60_exceptions.md R285).
-/

namespace Sys2Proof.Machine

open Sys2Proof

/-- The code of LIFE (10_state.md R39). -/
def lifeCode : Life → BitVec 3
  | .idle => 0#3
  | .running => 1#3
  | .stopped => 3#3
  | .fatal => 4#3

/-- The code of `sstate` (10_state.md R25). -/
def sstateCode : SState → BitVec 2
  | .unlocked => 0#2
  | .acquiring => 1#2
  | .locked => 2#2

/-- The code of `fstate` (10_state.md R25). -/
def fstateCode : FState → BitVec 1
  | .search => 0#1
  | .fill => 1#1

/-- One bit. -/
def bit (b : Bool) : BitVec 1 := BitVec.ofBool b

/-- STATUS (10_state.md R28), highest field first. -/
def statusWord (s : State) : Word :=
  0#8 ++ s.lastErr ++ s.fatalCause ++ bit s.shutdownReq ++ bit s.blkErr ++ bit s.overrun
    ++ bit (!s.ofifo.isEmpty) ++ bit (!queuesEmpty s) ++ lifeCode s.life

/-- The five bits of IRQ_STATUS (10_state.md R30, 60_exceptions.md R286), highest first: STOPPED,
OVERRUN, BLK_ERR, FATAL, FRAME_AVAIL. -/
def irqBits (s : State) : BitVec 5 :=
  bit (decide (s.life = .stopped)) ++ bit s.overrun ++ bit s.blkErr
    ++ bit (decide (s.life = .fatal)) ++ bit (!s.ofifo.isEmpty)

/-- IRQ_STATUS (10_state.md R30). -/
def irqStatusWord (s : State) : Word := 0#27 ++ irqBits s

/-- The `irq` pin (60_exceptions.md R285). -/
def irqPin (s : State) : Bool := decide (irqBits s &&& s.irqEnable ≠ 0#5)

/-- The `fatal` pin (60_exceptions.md R285). -/
def fatalPin (s : State) : Bool := decide (s.life = .fatal)

/-- PSTATE (10_state.md R38), highest field first. -/
def pstateWord (p : Pipe) : Word :=
  0#13 ++ p.dfr.flen ++ bit p.dfr.prevRaw ++ bit p.dfr.runBit ++ p.dfr.runLen
    ++ fstateCode p.dfr.fstate ++ sstateCode p.syn.sstate

end Sys2Proof.Machine
end

