-- ==== Sys2Proof/Machine/Registers.lean ====
section
/-!
DEFINITION. The register space (10_state.md R26 to R38) by its map (20_memory.md R76): which register
an index names, its access class, what a read of it returns (`MemRead`, 20_memory.md R75) and what a
write of it stores (`MemWrite`, 10_state.md R32).
-/

namespace Sys2Proof.Machine

open Sys2Proof

/-- The scalar configuration registers (10_state.md R33). -/
inductive CfgReg where
  | nch
  | varmask
  | srcId
  | fsAcq
  | decim
  | ntaps
  | shCond
  | rotlen0
  | rotlen1
  | shDem0
  | shDem1
  | shDem2
  | cohStep
  | chalOffs
  | chalDcsh
  | thSig
  | nLock
  | errInc
  | errMax
  | nSil
  | tgain
  | nrziInv
  | sixbitCheck
  deriving DecidableEq, Repr

/-- The global counters (10_state.md R35). -/
inductive GlobReg where
  | blkAccepted | blkMalformed | shutdownDrops | cmdErr | overrunDrops
  deriving DecidableEq, Repr

/-- The per-pipeline counters (10_state.md R36). -/
inductive CntReg where
  | locks | unlocks | framesAttempted | aborts | malformed | crcFail | framesValid
  deriving DecidableEq, Repr

/-- The registers of the map (20_memory.md R76). -/
inductive Reg where
  | id
  | version
  | status
  | irqEnable
  | irqStatus
  | params
  | fsWork
  | maxBlk
  | cfg (r : CfgReg)
  | coefH (c : Chan) (k : BitVec 6)
  | coefW (c : Chan) (i : BitVec 6)
  | glob (g : GlobReg)
  | sum (j : CntReg)
  | cnt (c : Chan) (v : Variant) (j : CntReg)
  | pstate (c : Chan) (v : Variant)
  deriving DecidableEq, Repr

/-- The access classes of the map (10_state.md R26). -/
inductive Access where
  /-- Read-only. -/
  | ro
  /-- Writable in every lifecycle state. -/
  | rw
  /-- Writable in IDLE only. -/
  | cfg
  /-- IRQ_STATUS: writing 1 clears (10_state.md R30). -/
  | w1c
  deriving DecidableEq, Repr

/-! ### The map -/

/-- Counter number `j` (10_state.md R36). -/
def cntOfNum : Nat → Option CntReg
  | 0 => some .locks
  | 1 => some .unlocks
  | 2 => some .framesAttempted
  | 3 => some .aborts
  | 4 => some .malformed
  | 5 => some .crcFail
  | 6 => some .framesValid
  | _ => none

/-- The number of a counter (10_state.md R36). -/
def cntNum : CntReg → Nat
  | .locks => 0
  | .unlocks => 1
  | .framesAttempted => 2
  | .aborts => 3
  | .malformed => 4
  | .crcFail => 5
  | .framesValid => 6

/-- The pipeline of number `p = 4c + v`; 3 and 7 do not exist (10_state.md R36). -/
def pipeOfNum : Nat → Option (Chan × Variant)
  | 0 => some (.ch0, .ncoh)
  | 1 => some (.ch0, .coh)
  | 2 => some (.ch0, .chal)
  | 4 => some (.ch1, .ncoh)
  | 5 => some (.ch1, .coh)
  | 6 => some (.ch1, .chal)
  | _ => none

/-- The register `0x320 + 8p + j` (10_state.md R36, R38). -/
def pipeRegOf (c : Chan) (v : Variant) (j : Nat) : Reg :=
  match cntOfNum j with
  | some r => .cnt c v r
  | none => .pstate c v

/-- The registers below 0x100 (20_memory.md R76). -/
def scalarReg : Nat → Option Reg
  | 0x000 => some .id
  | 0x001 => some .version
  | 0x002 => some .status
  | 0x003 => some .irqEnable
  | 0x004 => some .irqStatus
  | 0x005 => some .params
  | 0x006 => some .fsWork
  | 0x007 => some .maxBlk
  | 0x010 => some (.cfg .nch)
  | 0x011 => some (.cfg .varmask)
  | 0x012 => some (.cfg .srcId)
  | 0x013 => some (.cfg .fsAcq)
  | 0x014 => some (.cfg .decim)
  | 0x015 => some (.cfg .ntaps)
  | 0x016 => some (.cfg .shCond)
  | 0x017 => some (.cfg .rotlen0)
  | 0x018 => some (.cfg .rotlen1)
  | 0x020 => some (.cfg .shDem0)
  | 0x021 => some (.cfg .shDem1)
  | 0x022 => some (.cfg .shDem2)
  | 0x023 => some (.cfg .cohStep)
  | 0x024 => some (.cfg .chalOffs)
  | 0x025 => some (.cfg .chalDcsh)
  | 0x030 => some (.cfg .thSig)
  | 0x031 => some (.cfg .nLock)
  | 0x032 => some (.cfg .errInc)
  | 0x033 => some (.cfg .errMax)
  | 0x034 => some (.cfg .nSil)
  | 0x035 => some (.cfg .tgain)
  | 0x040 => some (.cfg .nrziInv)
  | 0x041 => some (.cfg .sixbitCheck)
  | _ => none

/-- The registers from 0x300 on (20_memory.md R76). -/
def counterReg (n : Nat) : Option Reg :=
  match n with
  | 0x300 => some (.glob .blkAccepted)
  | 0x301 => some (.glob .blkMalformed)
  | 0x302 => some (.glob .shutdownDrops)
  | 0x303 => some (.glob .cmdErr)
  | 0x304 => some (.glob .overrunDrops)
  | n =>
    if 0x308 ≤ n ∧ n ≤ 0x30E then (cntOfNum (n - 0x308)).map .sum
    else if 0x320 ≤ n then
      (pipeOfNum ((n - 0x320) / 8)).map fun cv => pipeRegOf cv.1 cv.2 ((n - 0x320) % 8)
    else none

/-- The register an index names, `none` where the map lists none (20_memory.md R76); every index from
0x400 on is unmapped (45_host_commands.md R243). -/
def regOfIndex (idx : BitVec 12) : Option Reg :=
  let n := idx.toNat
  if n < 0x100 then scalarReg n
  else if n < 0x140 then some (.coefH .ch0 (BitVec.ofNat 6 n))
  else if n < 0x180 then some (.coefH .ch1 (BitVec.ofNat 6 n))
  else if n < 0x200 then none
  else if n < 0x240 then some (.coefW .ch0 (BitVec.ofNat 6 n))
  else if n < 0x280 then some (.coefW .ch1 (BitVec.ofNat 6 n))
  else if n < 0x300 then none
  else if n < 0x400 then counterReg n
  else none

/-- The index of a scalar configuration register (10_state.md R33). -/
def cfgIndex : CfgReg → Nat
  | .nch => 0x010
  | .varmask => 0x011
  | .srcId => 0x012
  | .fsAcq => 0x013
  | .decim => 0x014
  | .ntaps => 0x015
  | .shCond => 0x016
  | .rotlen0 => 0x017
  | .rotlen1 => 0x018
  | .shDem0 => 0x020
  | .shDem1 => 0x021
  | .shDem2 => 0x022
  | .cohStep => 0x023
  | .chalOffs => 0x024
  | .chalDcsh => 0x025
  | .thSig => 0x030
  | .nLock => 0x031
  | .errInc => 0x032
  | .errMax => 0x033
  | .nSil => 0x034
  | .tgain => 0x035
  | .nrziInv => 0x040
  | .sixbitCheck => 0x041

/-- The index of a global counter (10_state.md R35). -/
def globIndex : GlobReg → Nat
  | .blkAccepted => 0x300
  | .blkMalformed => 0x301
  | .shutdownDrops => 0x302
  | .cmdErr => 0x303
  | .overrunDrops => 0x304

/-- The index the map gives a register (20_memory.md R76). -/
def indexOfReg : Reg → BitVec 12
  | .id => 0x000#12
  | .version => 0x001#12
  | .status => 0x002#12
  | .irqEnable => 0x003#12
  | .irqStatus => 0x004#12
  | .params => 0x005#12
  | .fsWork => 0x006#12
  | .maxBlk => 0x007#12
  | .cfg r => BitVec.ofNat 12 (cfgIndex r)
  | .coefH c k => BitVec.ofNat 12 (hIndex c k.toNat)
  | .coefW c i => BitVec.ofNat 12 (wIndex c i.toNat)
  | .glob g => BitVec.ofNat 12 (globIndex g)
  | .sum j => BitVec.ofNat 12 (0x308 + cntNum j)
  | .cnt c v j => BitVec.ofNat 12 (0x320 + 8 * (4 * chanNum c + varNum v) + cntNum j)
  | .pstate c v => BitVec.ofNat 12 (0x320 + 8 * (4 * chanNum c + varNum v) + 7)

/-- The access class of a register (20_memory.md R76). -/
def regAccess : Reg → Access
  | .irqEnable => .rw
  | .irqStatus => .w1c
  | .cfg _ => .cfg
  | .coefH _ _ => .cfg
  | .coefW _ _ => .cfg
  | .id => .ro
  | .version => .ro
  | .status => .ro
  | .params => .ro
  | .fsWork => .ro
  | .maxBlk => .ro
  | .glob _ => .ro
  | .sum _ => .ro
  | .cnt _ _ _ => .ro
  | .pstate _ _ => .ro

/-! ### Reads -/

/-- A configuration register read: `zext` of the stored field (10_state.md R32). -/
def readCfg (c : Cfg) : CfgReg → Word
  | .nch => c.nch.setWidth 32
  | .varmask => c.varmask.setWidth 32
  | .srcId => c.srcId.setWidth 32
  | .fsAcq => c.fsAcq.setWidth 32
  | .decim => c.decim.setWidth 32
  | .ntaps => c.ntaps.setWidth 32
  | .shCond => c.shCond.setWidth 32
  | .rotlen0 => c.rotlen0.setWidth 32
  | .rotlen1 => c.rotlen1.setWidth 32
  | .shDem0 => c.shDem0.setWidth 32
  | .shDem1 => c.shDem1.setWidth 32
  | .shDem2 => c.shDem2.setWidth 32
  | .cohStep => c.cohStep.setWidth 32
  | .chalOffs => c.chalOffs.setWidth 32
  | .chalDcsh => c.chalDcsh.setWidth 32
  | .thSig => c.thSig.setWidth 32
  | .nLock => c.nLock.setWidth 32
  | .errInc => c.errInc.setWidth 32
  | .errMax => c.errMax.setWidth 32
  | .nSil => c.nSil.setWidth 32
  | .tgain => c.tgain.setWidth 32
  | .nrziInv => c.nrziInv.setWidth 32
  | .sixbitCheck => c.sixbitCheck.setWidth 32

/-- A configuration register written: the low bits the field has (10_state.md R32). -/
def writeCfg (c : Cfg) (r : CfgReg) (val : Word) : Cfg :=
  match r with
  | .nch => { c with nch := val.setWidth 2 }
  | .varmask => { c with varmask := val.setWidth 3 }
  | .srcId => { c with srcId := val.setWidth 8 }
  | .fsAcq => { c with fsAcq := val.setWidth 32 }
  | .decim => { c with decim := val.setWidth 7 }
  | .ntaps => { c with ntaps := val.setWidth 7 }
  | .shCond => { c with shCond := val.setWidth 5 }
  | .rotlen0 => { c with rotlen0 := val.setWidth 7 }
  | .rotlen1 => { c with rotlen1 := val.setWidth 7 }
  | .shDem0 => { c with shDem0 := val.setWidth 6 }
  | .shDem1 => { c with shDem1 := val.setWidth 6 }
  | .shDem2 => { c with shDem2 := val.setWidth 6 }
  | .cohStep => { c with cohStep := val.setWidth 6 }
  | .chalOffs => { c with chalOffs := val.setWidth 15 }
  | .chalDcsh => { c with chalDcsh := val.setWidth 4 }
  | .thSig => { c with thSig := val.setWidth 15 }
  | .nLock => { c with nLock := val.setWidth 8 }
  | .errInc => { c with errInc := val.setWidth 8 }
  | .errMax => { c with errMax := val.setWidth 8 }
  | .nSil => { c with nSil := val.setWidth 8 }
  | .tgain => { c with tgain := val.setWidth 4 }
  | .nrziInv => { c with nrziInv := val.setWidth 1 }
  | .sixbitCheck => { c with sixbitCheck := val.setWidth 1 }

/-- A global counter (10_state.md R35). -/
def readGlob (g : GlobalCounters) : GlobReg → Word
  | .blkAccepted => g.blkAccepted
  | .blkMalformed => g.blkMalformed
  | .shutdownDrops => g.shutdownDrops
  | .cmdErr => g.cmdErr
  | .overrunDrops => g.overrunDrops

/-- A per-pipeline counter (10_state.md R36). -/
def readCnt (k : PipeCounters) : CntReg → Word
  | .locks => k.locks
  | .unlocks => k.unlocks
  | .framesAttempted => k.framesAttempted
  | .aborts => k.aborts
  | .malformed => k.malformed
  | .crcFail => k.crcFail
  | .framesValid => k.framesValid

/-- A sum view (10_state.md R37): `satcnt` of the sum over the six pipelines. -/
def readSum (x : PerPipe Pipe) (j : CntReg) : Word :=
  BitVec.ofNat 32 (satcnt ((x.toList.map fun p => (readCnt p.cnt j).toNat).sum))

/-- `MemRead` (20_memory.md R75): the word a register reads as. No read has a side effect. -/
def readReg (r : Reg) (s : State) : Word :=
  match r with
  | .id => 0x41495343#32
  | .version => 0x00000007#32
  | .status => statusWord s
  | .irqEnable => s.irqEnable.setWidth 32
  | .irqStatus => irqStatusWord s
  | .params => 0x10050302#32
  | .fsWork => 0x0000BB80#32
  | .maxBlk => 0x00004000#32
  | .cfg k => readCfg s.cfg k
  | .coefH c k => Memory.read s.coef (hIndex c k.toNat)
  | .coefW c i => Memory.read s.coef (wIndex c i.toNat)
  | .glob g => readGlob s.glob g
  | .sum j => readSum s.pipe j
  | .cnt c v j => readCnt (s.pipe.get c v).cnt j
  | .pstate c v => pstateWord (s.pipe.get c v)

/-! ### Writes -/

/-- The write-1-to-clear of IRQ_STATUS (10_state.md R30): bit 2 clears BLK_ERR, bit 3 clears OVERRUN. -/
def clearSticky (val : Word) (s : State) : State :=
  { s with
    blkErr := s.blkErr && !val.getLsbD 2
    overrun := s.overrun && !val.getLsbD 3 }

/-- `MemWrite` (20_memory.md R75): the write of a writable register. A read-only register is never
written (45_host_commands.md R243); its line leaves the state alone. -/
def writeReg (r : Reg) (val : Word) (s : State) : State :=
  match r with
  | .irqEnable => { s with irqEnable := val.setWidth 5 }
  | .irqStatus => clearSticky val s
  | .cfg k => { s with cfg := writeCfg s.cfg k val }
  | .coefH c k => { s with coef := Memory.write s.coef (hIndex c k.toNat) val }
  | .coefW c i => { s with coef := Memory.write s.coef (wIndex c i.toNat) val }
  | .id => s
  | .version => s
  | .status => s
  | .params => s
  | .fsWork => s
  | .maxBlk => s
  | .glob _ => s
  | .sum _ => s
  | .cnt _ _ _ => s
  | .pstate _ _ => s

end Sys2Proof.Machine
end

