-- ==== Sys2Proof/Machine/Commands.lean ====
section
/-!
DEFINITION. The meanings of the ten host commands (45_host_commands.md R241 to R252), each with its
legality in the present LIFE (R240's table).
-/

namespace Sys2Proof.Machine

open Sys2Proof

/-- NOP (R241): no effect. -/
def execNop (_arg : BitVec 24) (s : State) : Host.Outcome State Fault Refusal := .next s

/-- SRESET (R242). -/
def execSreset (_arg : BitVec 24) (s : State) : Host.Outcome State Fault Refusal := .next (softReset s)

/-- A write of register `r` by CFGWR (R243): read-only, then lifecycle, then the write. -/
def cfgWrite (r : Reg) (val : Word) (s : State) : State :=
  match regAccess r with
  | .ro => raise .regReadOnly s
  | .w1c => writeReg r val s
  | .cfg => if s.life = .idle then writeReg r val s else raise .cmdState s
  | .rw => writeReg r val s

/-- CFGWR (R243). -/
def execCfgwr (idx : BitVec 12) (val : Word) (s : State) : Host.Outcome State Fault Refusal :=
  match regOfIndex idx with
  | none => .next (raise .regUnmapped s)
  | some r => .next (cfgWrite r val s)

/-- REGRD (R244): a response is always produced. -/
def execRegrd (idx : BitVec 12) (s : State) : Host.Outcome State Fault Refusal :=
  match regOfIndex idx with
  | none => .next (pushRsp [0#32] (raise .regUnmapped s))
  | some r => .next (pushRsp [readReg r s] s)

/-- The configuration check of START (R246). -/
def cfgLegal (c : Cfg) : Bool :=
  (decide (c.nch = 1#2) || decide (c.nch = 2#2))
    && decide (c.varmask ≠ 0#3)
    && decide (1 ≤ c.decim.toNat ∧ c.decim.toNat ≤ 64)
    && decide (1 ≤ c.ntaps.toNat ∧ c.ntaps.toNat ≤ 64)
    && decide (1 ≤ c.rotlen0.toNat ∧ c.rotlen0.toNat ≤ 64)
    && decide (1 ≤ c.rotlen1.toNat ∧ c.rotlen1.toNat ≤ 64)
    && decide (c.fsAcq.toNat = c.decim.toNat * Config.fsWork)
    && decide (1 ≤ c.nLock.toNat)
    && decide (1 ≤ c.errMax.toNat)
    && decide (1 ≤ c.nSil.toNat)

/-- START (R245). -/
def execStart (_arg : BitVec 24) (s : State) : Host.Outcome State Fault Refusal :=
  match s.life with
  | .idle => if cfgLegal s.cfg then .next { s with life := .running } else .next (raiseFatal .configInvalid s)
  | .running => .next (raise .cmdState s)
  | .stopped => .next (raise .cmdState s)
  | .fatal => .next (raise .cmdState s)

/-- STOP (R247). -/
def execStop (_arg : BitVec 24) (s : State) : Host.Outcome State Fault Refusal :=
  match s.life with
  | .idle => .next (shutdown s)
  | .running => .next (shutdown s)
  | .stopped => .next s
  | .fatal => .next s

/-- FENCE (R249): no effect on state. That it completes only when every queue is empty is the
command processor's readiness test (R240). -/
def execFence (_arg : BitVec 24) (s : State) : Host.Outcome State Fault Refusal := .next s

/-- BLOCK (R250). -/
def execBlock (chid : BitVec 8) (len : BitVec 16) (body : List Word) (s : State) :
    Host.Outcome State Fault Refusal :=
  match s.life with
  | .idle => .next (raise .cmdState s)
  | .running => .next (condBlock chid len body s)
  | .stopped => .next (raise .shutdownDrop s)
  | .fatal => .next (raise .cmdState s)

/-- EOS (R251). -/
def execEos (_arg : BitVec 24) (s : State) : Host.Outcome State Fault Refusal :=
  match s.life with
  | .idle => .next (raise .cmdState s)
  | .running => .next (raiseFatal .srcClosed s)
  | .stopped => .next s
  | .fatal => .next s

/-- FRPOP (R252). -/
def execFrpop (_arg : BitVec 24) (s : State) : Host.Outcome State Fault Refusal :=
  match s.ofifo with
  | [] => .next (pushRsp [0#32] s)
  | frame :: rest => .next (pushRsp frame { s with ofifo := rest })

end Sys2Proof.Machine
end

