-- ==== Sys2Proof/Machine/Deframer.lean ====
section
/-!
DEFINITION. The Link Deframer (43_deframer.md): NRZI.BIT (R191) and HDLC.BIT (R193) with its seven
classes (R195 to R201).
-/

namespace Sys2Proof.Machine

open Sys2Proof

/-! ### NRZI.BIT -/

/-- The decoded bit `r xor prev_raw xor NRZI_INV` (R191). -/
def nrziDecode (cfg : Cfg) (prev r : Bool) : Bool := r ^^ prev ^^ cfg.nrziInv.getLsbD 0

/-- NRZI.BIT in pipeline `P[c][v]` (R191): the decoded bit joins the stream to HDLC.BIT. -/
def nrziBit (c : Chan) (v : Variant) (r : Bool) (s : State) : State :=
  let p := s.pipe.get c v
  s.setPipe c v { p with
    dfr := { p.dfr with prevRaw := r }
    dec := p.dec ++ [nrziDecode s.cfg p.dfr.prevRaw r] }

/-! ### The run counter and the classes -/

/-- `ones`: the decoded 1s just before this bit (R193, 10_state.md R47). -/
def onesRun (d : DfrState) : Nat := if d.runBit then d.runLen.toNat else 0

/-- The run counter updated with a bit (R194). -/
def runUpdate (b : Bool) (d : DfrState) : DfrState :=
  if b = d.runBit ∧ 0 < d.runLen.toNat then { d with runLen := BitVec.ofNat 3 (min (d.runLen.toNat + 1) 7) }
  else { d with runBit := b, runLen := 1#3 }

/-- The seven classes of a decoded bit (R193). -/
inductive BitClass where
  | data1 | six | abort | data0 | stuff | flag | idle0
  deriving DecidableEq, Repr

/-- The class of bit `d` after `p` ones (R193). -/
def classify (d : Bool) (p : Nat) : BitClass :=
  if d then
    if p ≤ 4 then .data1 else if p = 5 then .six else .abort
  else
    if p ≤ 4 then .data0 else if p = 5 then .stuff else if p = 6 then .flag else .idle0

/-! ### The frame buffer -/

/-- `fbuf[i] <- b`. -/
def fbufSet (f : BitVec 1030) (i : Nat) (b : Bool) : BitVec 1030 :=
  (f &&& ~~~(1#1030 <<< i)) ||| ((BitVec.ofBool b).setWidth 1030 <<< i)

/-- `fbuf[0 .. n)` in time order. -/
def fbufList (f : BitVec 1030) (n : Nat) : List Bool := (List.range n).map f.getLsbD

/-- What a bit does besides changing the deframer's state: a counter, or a CandidateFrame. -/
inductive DfrOut where
  | quiet
  | aborted
  | malformed
  | emit (bits : List Bool)
  deriving DecidableEq, Repr

/-- The deframer back in SEARCH with an empty buffer (R197, R201). -/
def toSearch (d : DfrState) : DfrState := { d with fstate := .search, flen := 0#11 }

/-- `append(b)` (R201). -/
def append (b : Bool) (d : DfrState) : DfrState × DfrOut :=
  match d.fstate with
  | .search => (d, .quiet)
  | .fill =>
    if Config.fbufCap ≤ d.flen.toNat then (toSearch d, .malformed)
    else ({ d with fbuf := fbufSet d.fbuf d.flen.toNat b, flen := d.flen + 1#11 }, .quiet)

/-- ABORT (R197). -/
def abortFrame (d : DfrState) : DfrState × DfrOut :=
  match d.fstate with
  | .search => (d, .quiet)
  | .fill => (toSearch d, .aborted)

/-- The length rule of a closing delimiter on `n` bits (R199). -/
def lengthBad (cfg : Cfg) (n : Nat) : Bool :=
  decide (n < 24) || decide (n % 8 ≠ 0) || decide (Config.maxPay < n - 16)
    || (decide (cfg.sixbitCheck = 1#1) && decide ((n - 16) % 6 ≠ 0))

/-- What FLAG does with the bits accumulated in FILL (R199). -/
def closeFrame (cfg : Cfg) (d : DfrState) : DfrOut :=
  let n := d.flen.toNat - 6
  if n = 0 then .quiet
  else if lengthBad cfg n then .malformed
  else .emit (fbufList d.fbuf n)

/-- FLAG (R199). -/
def flagSeen (cfg : Cfg) (d : DfrState) : DfrState × DfrOut :=
  ({ d with fstate := .fill, flen := 0#11 },
    match d.fstate with
    | .search => .quiet
    | .fill => closeFrame cfg d)

/-- HDLC.BIT as a pure transition (R193). -/
def hdlcTrans (cfg : Cfg) (b : Bool) (d : DfrState) : DfrState × DfrOut :=
  let d' := runUpdate b d
  match classify b (onesRun d) with
  | .data1 => append true d'
  | .six => (d', .quiet)
  | .abort => abortFrame d'
  | .data0 => append false d'
  | .stuff => (d', .quiet)
  | .flag => flagSeen cfg d'
  | .idle0 => (d', .quiet)

/-- The counters of the deframer (R197, R199, R201). -/
def countDfr (o : DfrOut) (k : PipeCounters) : PipeCounters :=
  match o with
  | .quiet => k
  | .aborted => { k with aborts := incWord k.aborts }
  | .malformed => { k with malformed := incWord k.malformed }
  | .emit _ => { k with framesAttempted := incWord k.framesAttempted }

/-- The CandidateFrames emitted: zero or one (R199), with the pipeline and `ts = samp_cnt`. -/
def framesOf (c : Chan) (v : Variant) (ts : BitVec 64) : DfrOut → List CandFrame
  | .quiet => []
  | .aborted => []
  | .malformed => []
  | .emit bits => [{ bits := bits, chan := c, var := v, ts := ts }]

/-- HDLC.BIT in pipeline `P[c][v]` (R192, R193). -/
def hdlcBit (c : Chan) (v : Variant) (d : Bool) (s : State) : State :=
  let p := s.pipe.get c v
  let r := hdlcTrans s.cfg d p.dfr
  s.setPipe c v { p with
    dfr := r.1
    cnt := countDfr r.2 p.cnt
    cand := p.cand ++ framesOf c v p.sampCnt r.2 }

/-- The meaning of NRZI.BIT. -/
def execNrziBit (c : Chan) (v : Variant) (r : Bool) (s : State) : Host.Outcome State Fault Refusal :=
  .next (nrziBit c v r s)

/-- The meaning of HDLC.BIT. -/
def execHdlcBit (c : Chan) (v : Variant) (d : Bool) (s : State) : Host.Outcome State Fault Refusal :=
  .next (hdlcBit c v d s)

end Sys2Proof.Machine
end

