-- ==== Sys2Proof/Machine/Demodulator.lean ====
section
/-!
DEFINITION. The Demodulator Bank (41_demodulator.md): the three kernels DEM.NCOH (R152), DEM.COH (R154,
R155) and DEM.CHAL (R158). Each reads its own state, the sample and its configuration registers (R150)
and sends its soft value on as a SymbolStream element (30_encoding.md R107).
-/

namespace Sys2Proof.Machine

open Sys2Proof

/-! ### The kernels (41_demodulator.md R150) -/

/-- The discriminator term `Q * Ip - I * Qp` (R152, R158). -/
def discr (z zp : Sample) : Int := z.q.toInt * zp.i.toInt - z.i.toInt * zp.q.toInt

/-- The kernel of variant NCOH (R152). -/
def kernelNcoh (cfg : Cfg) (z : Sample) (k : NcohState) : NcohState × Int :=
  let ring := k.dring.push (discr z k.zp)
  ({ zp := z, dring := ring }, satsoft (rndShr ring.sum cfg.shDem0.toNat))

/-- The constant table ROT64 (R154): 16384 times cosine and sine of `i/64` of a turn. -/
def rot64 : List (Int × Int) :=
  [(16384, 0), (16305, 1606), (16069, 3196), (15679, 4756), (15137, 6270), (14449, 7723), (13623, 9102), (12665, 10394)] ++
  [(11585, 11585), (10394, 12665), (9102, 13623), (7723, 14449), (6270, 15137), (4756, 15679), (3196, 16069), (1606, 16305)] ++
  [(0, 16384), (-1606, 16305), (-3196, 16069), (-4756, 15679), (-6270, 15137), (-7723, 14449), (-9102, 13623), (-10394, 12665)] ++
  [(-11585, 11585), (-12665, 10394), (-13623, 9102), (-14449, 7723), (-15137, 6270), (-15679, 4756), (-16069, 3196), (-16305, 1606)] ++
  [(-16384, 0), (-16305, -1606), (-16069, -3196), (-15679, -4756), (-15137, -6270), (-14449, -7723), (-13623, -9102), (-12665, -10394)] ++
  [(-11585, -11585), (-10394, -12665), (-9102, -13623), (-7723, -14449), (-6270, -15137), (-4756, -15679), (-3196, -16069), (-1606, -16305)] ++
  [(0, -16384), (1606, -16305), (3196, -16069), (4756, -15679), (6270, -15137), (7723, -14449), (9102, -13623), (10394, -12665)] ++
  [(11585, -11585), (12665, -10394), (13623, -9102), (14449, -7723), (15137, -6270), (15679, -4756), (16069, -3196), (16305, -1606)]

/-- `ROT64[i]` (R154). -/
def rotAt (i : BitVec 6) : Int × Int := (rot64[i.toNat]?).getD (0, 0)

/-- The kernel of variant COH (R155). -/
def kernelCoh (cfg : Cfg) (z : Sample) (k : CohState) : CohState × Int :=
  let cs := rotAt k.theta
  let es := sgn (z.q.toInt * cs.1 - z.i.toInt * cs.2)
  let a := min (shr (absI z.i.toInt + absI z.q.toInt) 1) 32767
  let ring := k.uring.push (es * a)
  ({ theta := BitVec.ofInt 6 ((k.theta.toNat : Int) + es * (cfg.cohStep.toNat : Int)), uring := ring },
    satsoft (rndShr ring.sum cfg.shDem1.toNat))

/-- Hypothesis `h[k]` of variant CHAL (R158): `satsoft(base - (k - 1) * CHAL_OFFS)`. -/
def chalHyp (cfg : Cfg) (base k : Int) : Int := satsoft (base - (k - 1) * (cfg.chalOffs.toNat : Int))

/-- The tracked mean of a hypothesis (R158): `dc + ((h - dc) >> CHAL_DCSH)`. -/
def chalMean (cfg : Cfg) (dc h : Int) : Int := dc + shr (h - dc) cfg.chalDcsh.toNat

/-- The hypothesis whose mean is nearest zero, ties to the lower number (R158). -/
def chalBest (h0 h1 h2 dc0 dc1 dc2 : Int) : Int :=
  if absI dc1 < absI dc0 then
    if absI dc2 < absI dc1 then h2 else h1
  else
    if absI dc2 < absI dc0 then h2 else h0

/-- The kernel of variant CHAL (R158). -/
def kernelChal (cfg : Cfg) (z : Sample) (k : ChalState) : ChalState × Int :=
  let ring := k.dring.push (discr z k.zp)
  let base := rndShr ring.sum cfg.shDem2.toNat
  let h0 := chalHyp cfg base 0
  let h1 := chalHyp cfg base 1
  let h2 := chalHyp cfg base 2
  let dc0 := chalMean cfg k.dc0.toInt h0
  let dc1 := chalMean cfg k.dc1.toInt h1
  let dc2 := chalMean cfg k.dc2.toInt h2
  ({ zp := z, dring := ring, dc0 := BitVec.ofInt 16 dc0, dc1 := BitVec.ofInt 16 dc1,
     dc2 := BitVec.ofInt 16 dc2 },
    chalBest h0 h1 h2 dc0 dc1 dc2)

/-! ### The stage operations -/

/-- A soft value sent on as an element of the pipeline's SymbolStream (30_encoding.md R107). -/
def emitSym (c : Chan) (v : Variant) (soft : Int) (s : State) : State :=
  let p := s.pipe.get c v
  s.setPipe c v { p with sym := p.sym ++ [symOf soft] }

/-- DEM.NCOH (R152). -/
def demNcoh (c : Chan) (z : Sample) (s : State) : State :=
  let k := s.kern.get c
  let r := kernelNcoh s.cfg z k.ncoh
  emitSym c .ncoh r.2 (s.setKern c { k with ncoh := r.1 })

/-- DEM.COH (R155). -/
def demCoh (c : Chan) (z : Sample) (s : State) : State :=
  let k := s.kern.get c
  let r := kernelCoh s.cfg z k.coh
  emitSym c .coh r.2 (s.setKern c { k with coh := r.1 })

/-- DEM.CHAL (R158). -/
def demChal (c : Chan) (z : Sample) (s : State) : State :=
  let k := s.kern.get c
  let r := kernelChal s.cfg z k.chal
  emitSym c .chal r.2 (s.setKern c { k with chal := r.1 })

/-- The demodulator operation of variant `v` (R151). -/
def demStep (c : Chan) (v : Variant) (z : Sample) (s : State) : State :=
  match v with
  | .ncoh => demNcoh c z s
  | .coh => demCoh c z s
  | .chal => demChal c z s

/-- The meaning of DEM.NCOH. -/
def execDemNcoh (c : Chan) (z : Sample) (s : State) : Host.Outcome State Fault Refusal :=
  .next (demNcoh c z s)

/-- The meaning of DEM.COH. -/
def execDemCoh (c : Chan) (z : Sample) (s : State) : Host.Outcome State Fault Refusal :=
  .next (demCoh c z s)

/-- The meaning of DEM.CHAL. -/
def execDemChal (c : Chan) (z : Sample) (s : State) : Host.Outcome State Fault Refusal :=
  .next (demChal c z s)

end Sys2Proof.Machine
end

