-- ==== Sys2Proof/Machine/Synchroniser.lean ====
section
/-!
DEFINITION. The Bit Synchronizer (42_synchroniser.md): SYN.STEP (R172) with its timing-error detector
(R173), signal and phase-error tests (R174), bit decision (R175) and lock state machine (R176).
-/

namespace Sys2Proof.Machine

open Sys2Proof

/-- What one call of SYN.STEP leaves: the new state, the raw bit it emits, and which of the counters
LOCKS and UNLOCKS it increments. -/
structure SynResult where
  st : SynState
  bit : Option Bool
  locked : Bool
  unlocked : Bool
  deriving DecidableEq, Repr

/-- `ted`, the early/late decision (R173). -/
def synTed (early late : Int) : Int := sgn (absI late - absI early)

/-- `sig`: signal present (R174). -/
def synSig (cfg : Cfg) (on : Int) : Bool := decide ((cfg.thSig.toNat : Int) ≤ absI on)

/-- `pe`: phase error (R174). -/
def synPe (cfg : Cfg) (early on late : Int) : Bool :=
  synSig cfg on && (decide (early * on < 0) || decide (late * on < 0))

/-- The lock state machine (R176), run once per strobe with the raw bit `r` of the decision (R175). -/
def lockStep (cfg : Cfg) (sig pe r : Bool) (st : SynState) : SynResult :=
  match st.sstate with
  | .unlocked =>
    if sig then
      { st := { st with sstate := .acquiring, good := if pe then 0#8 else 1#8 }
        bit := none, locked := false, unlocked := false }
    else { st := st, bit := none, locked := false, unlocked := false }
  | .acquiring =>
    if sig then
      let good := if pe then 0#8 else addSat8 st.good 1
      if cfg.nLock.toNat ≤ good.toNat then
        { st := { st with sstate := .locked, good := good, err := 0#8, sil := 0#8 }
          bit := none, locked := true, unlocked := false }
      else { st := { st with good := good }, bit := none, locked := false, unlocked := false }
    else { st := { st with sstate := .unlocked }, bit := none, locked := false, unlocked := false }
  | .locked =>
    let sil := if sig then 0#8 else addSat8 st.sil 1
    let err := if pe then addSat8 st.err cfg.errInc.toNat else decSat8 st.err
    if cfg.errMax.toNat ≤ err.toNat ∨ cfg.nSil.toNat ≤ sil.toNat then
      { st := { st with sstate := .unlocked, sil := sil, err := err }
        bit := some r, locked := false, unlocked := true }
    else { st := { st with sil := sil, err := err }, bit := some r, locked := false, unlocked := false }

/-- The two history registers shifted: `h2 <- h1; h1 <- x` (R172). -/
def synShift (x : Int) (st : SynState) : SynState := { st with h2 := st.h1, h1 := BitVec.ofInt 16 x }

/-- SYN.STEP(x) as a pure transition (R172). -/
def synTrans (cfg : Cfg) (x : Int) (st : SynState) : SynResult :=
  let t := st.tcnt.toInt + Config.ticksPerSample
  if Config.ticksPerSymbol ≤ t then
    let early := st.h2.toInt
    let on := st.h1.toInt
    let t' := t - Config.ticksPerSymbol - (cfg.tgain.toNat : Int) * synTed early x
    let r := lockStep cfg (synSig cfg on) (synPe cfg early on x) (decide (0 < on))
      { st with tcnt := BitVec.ofInt 8 t' }
    { r with st := synShift x r.st }
  else
    { st := synShift x { st with tcnt := BitVec.ofInt 8 t }, bit := none, locked := false, unlocked := false }

/-- The counters LOCKS and UNLOCKS after a call (R176). -/
def countLocks (r : SynResult) (k : PipeCounters) : PipeCounters :=
  { k with
    locks := if r.locked then incWord k.locks else k.locks
    unlocks := if r.unlocked then incWord k.unlocks else k.unlocks }

/-- SYN.STEP in pipeline `P[c][v]`, of a SymbolStream element (R171, R172): the raw bit it emits joins
the pipeline's BitStream. -/
def synStep (c : Chan) (v : Variant) (e : BitVec 16) (s : State) : State :=
  let p := s.pipe.get c v
  let r := synTrans s.cfg (softOf e) p.syn
  s.setPipe c v { p with syn := r.st, cnt := countLocks r p.cnt, raw := p.raw ++ r.bit.toList }

/-- The meaning of SYN.STEP. -/
def execSynStep (c : Chan) (v : Variant) (e : BitVec 16) (s : State) : Host.Outcome State Fault Refusal :=
  .next (synStep c v e s)

end Sys2Proof.Machine
end

