-- ==== Sys2Proof/Machine/Validator.lean ====
section
/-!
DEFINITION. The Frame Validator (44_validator.md): VAL.FRAME (R221) with the length recheck (R222), the
CRC (R223) and the ValidatedFrame record (R226).
-/

namespace Sys2Proof.Machine

open Sys2Proof

/-- One bit through the CRC register (R223). -/
def crcStep (crc : BitVec 16) (b : Bool) : BitVec 16 :=
  if (b ^^ crc.getLsbD 15) then (crc <<< 1) ^^^ 0x1021#16 else crc <<< 1

/-- The register after a bit list, from the preset 0xFFFF (R223). -/
def crcRun (bits : List Bool) : BitVec 16 := bits.foldl crcStep 0xFFFF#16

/-- The field of a register: its complement, highest bit first (R223). -/
def crcField (crc : BitVec 16) : List Bool := (List.range 16).map fun i => !crc.getLsbD (15 - i)

/-- FCS16 (R223). -/
def fcs16 (payload : List Bool) : List Bool := crcField (crcRun payload)

/-- The length recheck (R222). -/
def frameLenBad (n : Nat) : Bool := decide (n < 24) || decide (n % 8 ≠ 0) || decide (1024 < n)

/-- The payload, `bits[0 .. n-16)` (R221). -/
def payloadOf (bits : List Bool) : List Bool := bits.take (bits.length - 16)

/-- The CRC field, `bits[n-16 .. n)` (R221). -/
def fieldOf (bits : List Bool) : List Bool := bits.drop (bits.length - 16)

/-- The ValidatedFrame record (R226). -/
def frameRecord (f : CandFrame) : List Word :=
  let pay := payloadOf f.bits
  [ 0xA5#8 ++ 0#8 ++ BitVec.ofNat 8 (varNum f.var) ++ BitVec.ofNat 8 (chanNum f.chan),
    BitVec.ofNat 16 (natOfBits (fieldOf f.bits)) ++ BitVec.ofNat 16 pay.length,
    f.ts.extractLsb' 0 32,
    f.ts.extractLsb' 32 32 ] ++ packBits pay

/-- The counters of pipeline `P[c][v]` replaced. -/
def setCnt (c : Chan) (v : Variant) (k : PipeCounters) (s : State) : State :=
  s.setPipe c v { s.pipe.get c v with cnt := k }

/-- VAL.FRAME (R221), in the pipeline the frame comes from. -/
def valFrame (f : CandFrame) (s : State) : State :=
  let k := (s.pipe.get f.chan f.var).cnt
  if frameLenBad f.bits.length then setCnt f.chan f.var { k with malformed := incWord k.malformed } s
  else if fcs16 (payloadOf f.bits) ≠ fieldOf f.bits then
    setCnt f.chan f.var { k with crcFail := incWord k.crcFail } s
  else
    pushFrame (frameRecord f) (setCnt f.chan f.var { k with framesValid := incWord k.framesValid } s)

/-- The meaning of VAL.FRAME. -/
def execValFrame (f : CandFrame) (s : State) : Host.Outcome State Fault Refusal :=
  .next (valFrame f s)

end Sys2Proof.Machine
end

