-- ==== Sys2Proof/Machine/Dispatch.lean ====
section
/-!
DEFINITION. Which meaning each operation has: one arm per constructor of Instr.
-/

namespace Sys2Proof.Machine

open Sys2Proof

def exec (i : Instr) (s : State) : Host.Outcome State Fault Refusal :=
  match i with
  | .nop arg => Sys2Proof.Machine.execNop arg s
  | .sreset arg => Sys2Proof.Machine.execSreset arg s
  | .cfgwr _ idx val => Sys2Proof.Machine.execCfgwr idx val s
  | .regrd _ idx => Sys2Proof.Machine.execRegrd idx s
  | .start arg => Sys2Proof.Machine.execStart arg s
  | .stop arg => Sys2Proof.Machine.execStop arg s
  | .fence arg => Sys2Proof.Machine.execFence arg s
  | .block chid len body => Sys2Proof.Machine.execBlock chid len body s
  | .eos arg => Sys2Proof.Machine.execEos arg s
  | .frpop arg => Sys2Proof.Machine.execFrpop arg s
  | .condSample x => Sys2Proof.Machine.execCondSample x s
  | .demNcoh c z => Sys2Proof.Machine.execDemNcoh c z s
  | .demCoh c z => Sys2Proof.Machine.execDemCoh c z s
  | .demChal c z => Sys2Proof.Machine.execDemChal c z s
  | .synStep c v e => Sys2Proof.Machine.execSynStep c v e s
  | .nrziBit c v r => Sys2Proof.Machine.execNrziBit c v r s
  | .hdlcBit c v d => Sys2Proof.Machine.execHdlcBit c v d s
  | .valFrame f => Sys2Proof.Machine.execValFrame f s

end Sys2Proof.Machine
end

