-- ==== Sys2Proof/Machine/Pipeline.lean ====
section
/-!
DEFINITION. The step of a pipeline instance (41_demodulator.md R151): one SampleBlock through DEM, SYN,
NRZI, HDLC and VAL. Each stage takes the elements the stage before it left in the pipeline's internal
stream, in order, and runs its operation on each. Then the overlap of block steps of different pipelines,
by which every interleaving of their records in OF comes about (20_memory.md R79).
-/

namespace Sys2Proof.Machine

open Sys2Proof

/-- VAL.FRAME on every CandidateFrame that HDLC.BIT left (R151). -/
def drainCand (c : Chan) (v : Variant) (s : State) : State :=
  let p := s.pipe.get c v
  p.cand.foldl (fun t f => valFrame f t) (s.setPipe c v { p with cand := [] })

/-- HDLC.BIT on every decoded bit that NRZI.BIT left, and what follows from it (R151). -/
def drainDec (c : Chan) (v : Variant) (s : State) : State :=
  let p := s.pipe.get c v
  p.dec.foldl (fun t d => drainCand c v (hdlcBit c v d t)) (s.setPipe c v { p with dec := [] })

/-- NRZI.BIT on every raw bit that SYN.STEP left, and what follows from it (R151). -/
def drainRaw (c : Chan) (v : Variant) (s : State) : State :=
  let p := s.pipe.get c v
  p.raw.foldl (fun t r => drainDec c v (nrziBit c v r t)) (s.setPipe c v { p with raw := [] })

/-- SYN.STEP on every SymbolStream element that DEM left, and what follows from it (R151). -/
def drainSym (c : Chan) (v : Variant) (s : State) : State :=
  let p := s.pipe.get c v
  p.sym.foldl (fun t e => drainRaw c v (synStep c v e t)) (s.setPipe c v { p with sym := [] })

/-- `samp_cnt <- samp_cnt + 1` (R151, 10_state.md R42). -/
def countSample (c : Chan) (v : Variant) (s : State) : State :=
  let p := s.pipe.get c v
  s.setPipe c v { p with sampCnt := p.sampCnt + 1#64 }

/-- One working-rate sample through the pipeline (the body of R151's outer loop). -/
def pipeSample (c : Chan) (v : Variant) (z : Sample) (s : State) : State :=
  drainSym c v (demStep c v z (countSample c v s))

/-- The samples of a popped block, in order (R151). -/
def pipeSamples (c : Chan) (v : Variant) (zs : List Sample) (s : State) : State :=
  zs.foldl (fun t z => pipeSample c v z t) s

/-- Elements stand in the internal streams of the pipeline. No step leaves any there (log entry 5). -/
def streamsPending (p : Pipe) : Bool :=
  !(p.sym.isEmpty && p.raw.isEmpty && p.dec.isEmpty && p.cand.isEmpty)

/-- The internal streams worked off, the last stage's first, so that elements keep their order. -/
def drainAll (c : Chan) (v : Variant) (s : State) : State :=
  drainSym c v (drainRaw c v (drainDec c v (drainCand c v s)))

/-- A pipeline steps only in RUNNING and FATAL (R151), and only if its pair is active (10_state.md
R20). -/
def pipeMayStep (c : Chan) (v : Variant) (s : State) : Bool :=
  (decide (s.life = .running) || decide (s.life = .fatal)) && pairActive s.cfg c v

/-- `B <- pop(Q[c][v])` (R151): the samples to run, and the state without the block; no change where the
step is not enabled. -/
def pipeBegin (c : Chan) (v : Variant) (s : State) : List Sample × State :=
  let p := s.pipe.get c v
  if pipeMayStep c v s then
    if streamsPending p then ([], drainAll c v s)
    else
      match p.q with
      | [] => ([], s)
      | b :: rest => (b.samples, s.setPipe c v { p with q := rest })
  else ([], s)

/-- The step of `P[c][v]` (R151): the whole block; no change where it is not enabled. -/
def pipeStep (c : Chan) (v : Variant) (s : State) : State :=
  pipeSamples c v (pipeBegin c v s).1 (pipeBegin c v s).2

/-! ### Overlapping block steps (20_memory.md R79; log entry 15) -/

/-- Block steps under way: per pipeline the samples of its block still to run, and the state. -/
structure Overlap where
  left : PerPipe (List Sample)
  now : State
  deriving DecidableEq, Repr

/-- The turn of `P[c][v]` in an overlap: one sample of the block it has begun, or else it begins its next
block. -/
def overlapTurn (w : Overlap) (cv : Chan × Variant) : Overlap :=
  match w.left.get cv.1 cv.2 with
  | z :: zs => { left := w.left.set cv.1 cv.2 zs, now := pipeSample cv.1 cv.2 z w.now }
  | [] =>
    { left := w.left.set cv.1 cv.2 (pipeBegin cv.1 cv.2 w.now).1, now := (pipeBegin cv.1 cv.2 w.now).2 }

/-- Every block begun is finished. -/
def overlapFinish (w : Overlap) : State :=
  allPairs.foldl (fun t cv => pipeSamples cv.1 cv.2 (w.left.get cv.1 cv.2) t) w.now

/-- Block steps of several pipelines at once, their samples in the given order. No other agent steps
before every block begun is finished, so none sees a block half done (R81, item U5). -/
def overlapSteps (order : List (Chan × Variant)) (s : State) : State :=
  overlapFinish (order.foldl overlapTurn { left := .all [], now := s })

end Sys2Proof.Machine
end

