-- ==== Sys2Proof/Machine/Processor.lean ====
section
/-!
DEFINITION. The command processor's step (45_host_commands.md R240), the HOST's actions at the pins and
ports (30_encoding.md R100), and how the next instruction is put where the machine fetches it.
-/

namespace Sys2Proof.Machine

open Sys2Proof

/-! ### The agent CP (R240) -/

/-- The shutdown step is enabled: `shutdown_latch = 1` and LIFE is IDLE or RUNNING (R240 (1)). -/
def shutdownEnabled (s : State) : Bool :=
  s.shutdownLatch && (decide (s.life = .idle) || decide (s.life = .running))

/-- The words of the answer an FRPOP would give (R252). -/
def frpopLen (s : State) : Nat :=
  match s.ofifo with
  | [] => 1
  | frame :: _ => frame.length

/-- A decoded command is ready (R240 (2)): FENCE when every queue is empty, REGRD and FRPOP when RSP has
room for the whole answer, every other command always. A rejected packet is always ready (log entry 4). -/
def ready (i : Instr) (s : State) : Bool :=
  match i with
  | .fence _ => queuesEmpty s
  | .regrd _ _ => rspRoom 1 s
  | .frpop _ => rspRoom (frpopLen s) s
  | _ => true

/-- The packet at the head of CMD executed or rejected (R240 (2), 30_encoding.md R111, R112); `s` is the
state with the packet popped. -/
def execPacket (p : Packet) (s : State) : Host.Outcome State Fault Refusal :=
  match decodePacket p with
  | .reserved => .next (raise .cmdReserved s)
  | .badLength => .next (raise .cmdLength s)
  | .instr i => exec i s

/-- The packet is ready to be popped (R240 (2)). -/
def packetReady (p : Packet) (s : State) : Bool :=
  match decodePacket p with
  | .reserved => true
  | .badLength => true
  | .instr i => ready i s

/-- The step of CP (R240): the shutdown step where it is enabled, else the packet at the head of CMD if
there is one and it is ready, else no change. -/
def cpStep (s : State) : Host.Outcome State Fault Refusal :=
  if shutdownEnabled s then .next (shutdown s)
  else
    match s.cmd with
    | [] => .next s
    | p :: rest => if packetReady p s then execPacket p { s with cmd := rest } else .next s

/-! ### The HOST (30_encoding.md R100) -/

/-- The packet that a first run of words and its last word make. -/
def packetOf (ws : List Word) (w : Word) : Packet :=
  match ws with
  | [] => { hdr := w, body := [] }
  | h :: t => { hdr := h, body := t ++ [w] }

/-- One word received on the command port: a word marked `last` ends its packet (30_encoding.md R100,
R113). -/
def receiveWord (w : Word) (last : Bool) (s : State) : State :=
  if last then { s with cmd := s.cmd ++ [packetOf s.cmdPart w], cmdPart := [] }
  else { s with cmdPart := s.cmdPart ++ [w] }

/-- What the response port shows: the oldest word and its mark `rsp_last` (30_encoding.md R100). -/
def rspPort (s : State) : Option (Word × Bool) :=
  match s.rsp with
  | (w :: ws) :: _ => some (w, ws.isEmpty)
  | _ => none

/-- One word taken from the response port (30_encoding.md R100). -/
def takeWord (s : State) : State :=
  match s.rsp with
  | [] => s
  | [] :: rest => { s with rsp := rest }
  | [_] :: rest => { s with rsp := rest }
  | (_ :: w :: ws) :: rest => { s with rsp := (w :: ws) :: rest }

/-- The pin `shutdown_req` driven to a level; a high level sets the latch at once, in any lifecycle
state (45_host_commands.md R248). -/
def setShutdown (level : Bool) (s : State) : State :=
  { s with shutdownReq := level, shutdownLatch := s.shutdownLatch || level }

/-- An action of the HOST. -/
def hostAct (h : HostAct) (s : State) : State :=
  match h with
  | .sendWord w last => receiveWord w last s
  | .takeWord => takeWord s
  | .setShutdown level => setShutdown level s
  | .rstPulse => pinReset s

/-! ### One move -/

/-- The step of an agent (00_scope.md R18). -/
def agentStep (a : Agent) (s : State) : Host.Outcome State Fault Refusal :=
  match a with
  | .cp => cpStep s
  | .pipe c v => .next (pipeStep c v s)

/-- One turn inside the block: an agent's step, or overlapping block steps (20_memory.md R79). -/
def turnStep (t : Turn) (s : State) : Host.Outcome State Fault Refusal :=
  match t with
  | .agent a => agentStep a s
  | .overlap order => .next (overlapSteps order s)

/-- One move: a turn inside the block or an action of the HOST. -/
def moveStep (m : Move) (s : State) : Host.Outcome State Fault Refusal :=
  match m with
  | .agent a => turnStep (.agent a) s
  | .overlap order => turnStep (.overlap order) s
  | .host h => .next (hostAct h s)

/-! ### Fair turns (70_reset_and_hazards.md R327; log entries 1, 12) -/

/-- The agents in turn: the one whose turn the `k`-th due turn is. -/
def dueAgent (k : Nat) : Agent :=
  match k % 7 with
  | 0 => .cp
  | 1 => .pipe .ch0 .ncoh
  | 2 => .pipe .ch0 .coh
  | 3 => .pipe .ch0 .chal
  | 4 => .pipe .ch1 .ncoh
  | 5 => .pipe .ch1 .coh
  | _ => .pipe .ch1 .chal

/-- At tick `n`: the number of the next due turn, and how many free turns come before it. -/
def due : Nat → Nat × Nat
  | 0 => (0, Config.patience 0)
  | n + 1 =>
    match due n with
    | (k, 0) => (k + 1, Config.patience (k + 1))
    | (k, m + 1) => (k, m)

/-- The turn at tick `n`: the due agent's when no free turn is left before it, else the free arbiter's. So
every agent's turn comes again and again, after any number of other turns. -/
def turnAt (n : Nat) : Turn :=
  match due n with
  | (k, 0) => .agent (dueAgent k)
  | (_, _ + 1) => Config.arbiter n

/-! ### Placing an instruction where the machine fetches (log entry 14) -/

/-- The packet at the head of CMD, CP's turn next, and no shutdown step in its way. -/
def placePacket (p : Packet) (s : State) : State :=
  { s with
    cmd := p :: s.cmd
    script := .agent .cp :: s.script
    shutdownReq := s.shutdownReq && !shutdownEnabled s
    shutdownLatch := s.shutdownLatch && !shutdownEnabled s }

/-- A pipeline with the element in the stream its stage reads, and nothing else waiting. -/
def placedPipe (e : Element) (st : Stage) (p : Pipe) : Pipe :=
  let p0 := { p with sym := [], raw := [], dec := [], cand := [] }
  match st, e with
  | .syn _ _, .symbol x => { p0 with sym := [x] }
  | .nrzi _ _, .bit b => { p0 with raw := [b] }
  | _, _ => p0

/-- The element in `P[0][0]`, that pipeline's turn next, the pipeline active and LIFE one in which it
steps. -/
def placeElement (st : Stage) (e : Element) (s : State) : State :=
  { s with
    pipe := s.pipe.set .ch0 .ncoh (placedPipe e st (s.pipe.get .ch0 .ncoh))
    script := .agent (.pipe .ch0 .ncoh) :: s.script
    cfg := { s.cfg with
      nch := if s.cfg.nch = 0#2 then 1#2 else s.cfg.nch
      varmask := s.cfg.varmask ||| 1#3 }
    life := if s.life = .fatal then .fatal else .running }

/-- An encoding of `nbits` bits `w` placed where the next step fetches. -/
def placeBits (s : State) (nbits w : Nat) : State :=
  match elementOfBits nbits w with
  | some (st, e) => placeElement st e s
  | none => placePacket (packetOfBits (w % 2 ^ nbits)) s

end Sys2Proof.Machine
end

