-- ==== Sys2Proof/Machine/Step.lean ====
section
/-!
DEFINITION. One step of the machine: the next move of the script, or, where the script is used up, the
turn that the free and fair schedule gives (00_scope.md R18, 70_reset_and_hazards.md R327; log entries 1, 2,
12).
-/

namespace Sys2Proof.Machine

open Sys2Proof

/-- One step. A move whose agent is not enabled changes nothing but the script. -/
def step (s : State) : Host.Outcome State Fault Refusal :=
  match s.script with
  | m :: rest => moveStep m { s with script := rest }
  | [] => turnStep (turnAt s.tick) { s with tick := s.tick + 1 }

/-- `s` with the instruction of `nbits` bits `w` stored where `step` fetches its next instruction. -/
def State.withFetchWord (s : State) (nbits w : Nat) : State := placeBits s nbits w

end Sys2Proof.Machine
end

