-- ==== Sys2Proof/Safety.lean ====
section
/-!
DEFINITION. What the claims speak of: sequences of operations and of steps, the invariants of the
machine (each cites the rule that gives it), and the transmitter whose frames the deframer takes
(95_test_vectors.md, `stuff`).
-/

namespace Sys2Proof.Machine

open Sys2Proof

/-! ### Sequences -/

/-- Operations one after another, stopping at the first that does not answer a next state. -/
def execAll : List Instr → State → Host.Outcome State Fault Refusal
  | [], s => .next s
  | i :: is, s =>
    match exec i s with
    | .next t => execAll is t
    | .fault r => .fault r
    | .refused r => .refused r

/-- The moves of a script, one after another, as `step` takes them. -/
def stepAll : Nat → State → Host.Outcome State Fault Refusal
  | 0, s => .next s
  | n + 1, s =>
    match step s with
    | .next t => stepAll n t
    | .fault r => .fault r
    | .refused r => .refused r

/-! ### Invariants -/

/-- Memory in canonical form (10_state.md R34; log entry 8). -/
def MemoryOk (s : State) : Prop := Memory.wf s.coef = true

/-- A signed 16-bit register whose value is in [-32767, 32767] (10_state.md R44 to R46). -/
def SoftReg (b : BitVec 16) : Prop := -32767 ≤ b.toInt

/-- The ranges of a pipeline's registers: `h1`, `h2`, `tcnt` (10_state.md R46, 42_synchroniser.md R173),
`flen` (R47), and `fstate = SEARCH` implies `flen = 0` (43_deframer.md R204). -/
structure PipeRanges (p : Pipe) : Prop where
  h1 : SoftReg p.syn.h1
  h2 : SoftReg p.syn.h2
  tcnt_low : -15 ≤ p.syn.tcnt.toInt
  tcnt_high : p.syn.tcnt.toInt ≤ 79
  flen : p.dfr.flen.toNat ≤ 1030
  search : p.dfr.fstate = .search → p.dfr.flen = 0#11

/-- The ranges of a channel's kernel registers `uring` (10_state.md R44) and `dc` (R45). -/
structure KernelRanges (k : Kernels) : Prop where
  u0 : SoftReg k.coh.uring.r0
  u1 : SoftReg k.coh.uring.r1
  u2 : SoftReg k.coh.uring.r2
  u3 : SoftReg k.coh.uring.r3
  u4 : SoftReg k.coh.uring.r4
  dc0 : SoftReg k.chal.dc0
  dc1 : SoftReg k.chal.dc1
  dc2 : SoftReg k.chal.dc2

/-- The registers of the kernels, the synchronisers and the deframers are in the ranges the spec gives them, and
the delay line has its 64 places (10_state.md R40). `dphase` and `rotidx` are in PhaseOk. -/
structure DatapathOk (s : State) : Prop where
  pipes : ∀ c v, PipeRanges (s.pipe.get c v)
  kernels : ∀ c, KernelRanges (s.kern.get c)
  dl : s.cond.dl.length = 64

/-- The internal streams hold nothing between steps (10_state.md R51 (d): an element is consumed once;
log entry 5). -/
structure StreamsEmpty (s : State) : Prop where
  sym : ∀ c v, (s.pipe.get c v).sym = []
  raw : ∀ c v, (s.pipe.get c v).raw = []
  dec : ∀ c v, (s.pipe.get c v).dec = []
  cand : ∀ c v, (s.pipe.get c v).cand = []
  out : ∀ c, s.cond.out.get c = []

/-- The lifecycle group (10_state.md R39; 60_exceptions.md R280, R290): FATAL_CAUSE is 0 outside FATAL
and 1 or 2 in it; RUNNING has a legal configuration; the queues are empty in IDLE and STOPPED, in FATAL by
CONFIG_INVALID, and of every pair that is not active (10_state.md R20); a high pin has set the latch
(45_host_commands.md R248). -/
structure LifecycleOk (s : State) : Prop where
  no_cause : s.life ≠ .fatal → s.fatalCause = 0#8
  cause : s.life = .fatal → s.fatalCause = 1#8 ∨ s.fatalCause = 2#8
  legal : s.life = .running → cfgLegal s.cfg = true
  idle_queues : s.life = .idle → ∀ c v, (s.pipe.get c v).q = []
  stopped_queues : s.life = .stopped → ∀ c v, (s.pipe.get c v).q = []
  invalid_queues : s.life = .fatal → s.fatalCause = 1#8 → ∀ c v, (s.pipe.get c v).q = []
  inactive_queues : ∀ c v, pairActive s.cfg c v = false → (s.pipe.get c v).q = []
  latch : s.shutdownReq = true → s.shutdownLatch = true

/-- The phases of the conditioner (10_state.md R40): `dphase` in [0, DECIM - 1] and `rotidx[c]` in
[0, ROTLEN_c - 1] while blocks are accepted. In IDLE both are 0, so that START establishes the rest. -/
structure PhaseOk (s : State) : Prop where
  legal : s.life = .running → cfgLegal s.cfg = true
  idle_dphase : s.life = .idle → s.cond.dphase = 0#7
  idle_rotidx : s.life = .idle → ∀ c, s.cond.rotidx.get c = 0#6
  dphase : s.life = .running → s.cond.dphase.toNat < s.cfg.decim.toNat
  rotidx : s.life = .running → ∀ c, (s.cond.rotidx.get c).toNat < rotlen s.cfg c

/-- In IDLE everything but the configuration, CMD_ERR, LAST_ERR, IRQ_ENABLE and the ports is as reset
left it (45_host_commands.md R245). -/
structure IdleFresh (s : State) : Prop where
  cond : s.life = .idle → s.cond = .reset
  kern : s.life = .idle → ∀ c, s.kern.get c = .reset
  pipe : s.life = .idle → ∀ c v, s.pipe.get c v = .reset
  ofifo : s.life = .idle → s.ofifo = []
  sticky : s.life = .idle → s.blkErr = false ∧ s.overrun = false
  cause : s.life = .idle → s.fatalCause = 0#8
  counters : s.life = .idle →
    s.glob.blkAccepted = 0#32 ∧ s.glob.blkMalformed = 0#32 ∧ s.glob.shutdownDrops = 0#32
      ∧ s.glob.overrunDrops = 0#32

/-- No counter of `s` is above its value in `t`. -/
structure CountersLe (s t : State) : Prop where
  blkAccepted : s.glob.blkAccepted.toNat ≤ t.glob.blkAccepted.toNat
  blkMalformed : s.glob.blkMalformed.toNat ≤ t.glob.blkMalformed.toNat
  shutdownDrops : s.glob.shutdownDrops.toNat ≤ t.glob.shutdownDrops.toNat
  cmdErr : s.glob.cmdErr.toNat ≤ t.glob.cmdErr.toNat
  overrunDrops : s.glob.overrunDrops.toNat ≤ t.glob.overrunDrops.toNat
  perPipe : ∀ c v j, (readCnt (s.pipe.get c v).cnt j).toNat ≤ (readCnt (t.pipe.get c v).cnt j).toNat

/-- `t` is `s` after a reset by SRESET or the pin (70_reset_and_hazards.md R310): every element of the
block at its reset value, CMD and RSP kept or emptied, the latch following the pin. -/
def ResetOf (s t : State) : Prop :=
  ∃ cmd part rsp script,
    t = { State.reset with
          cmd := cmd, cmdPart := part, rsp := rsp
          shutdownReq := s.shutdownReq, shutdownLatch := s.shutdownReq
          depths := s.depths, script := script, tick := t.tick }

/-- The lifecycle transitions of 60_exceptions.md R290, other than by reset. -/
inductive LifeStep : Life → Life → Prop where
  | stay (l : Life) : LifeStep l l
  | start : LifeStep .idle .running
  | invalid : LifeStep .idle .fatal
  | stopIdle : LifeStep .idle .stopped
  | stopRunning : LifeStep .running .stopped
  | closed : LifeStep .running .fatal

/-! ### Counters and queues, as the claims speak of them -/

/-- A 32-bit counter one higher, or all ones where it is all ones (00_scope.md R15). -/
def oneMore (w : Word) : Word := BitVec.ofNat 32 (min (w.toNat + 1) 4294967295)

/-- How many blocks wait in the six queues. -/
def waiting (s : State) : Nat :=
  (s.pipe.get .ch0 .ncoh).q.length + (s.pipe.get .ch0 .coh).q.length + (s.pipe.get .ch0 .chal).q.length
    + (s.pipe.get .ch1 .ncoh).q.length + (s.pipe.get .ch1 .coh).q.length
    + (s.pipe.get .ch1 .chal).q.length

/-- A CMD_ERR event's whole effect (60_exceptions.md R276): the counter and LAST_ERR. -/
def cmdErrWith (code : BitVec 8) (s : State) : State :=
  { s with glob := { s.glob with cmdErr := oneMore s.glob.cmdErr }, lastErr := code }

/-- To nearest, ties toward positive infinity (00_scope.md R10). -/
def roundShift (a : Int) (n : Nat) : Int := if n = 0 then a else (a + 2 ^ (n - 1)) / 2 ^ n

/-- Clipped to the range from `lo` to `hi` (00_scope.md R9). -/
def clip (lo hi a : Int) : Int := max lo (min hi a)

/-! ### A transmitter (95_test_vectors.md, conventions) -/

/-- `stuff(x)`: a 0 inserted after every five consecutive 1s; `k` counts the 1s just sent. -/
def stuffFrom : Nat → List Bool → List Bool
  | _, [] => []
  | _, false :: l => false :: stuffFrom 0 l
  | k, true :: l => if k = 4 then true :: false :: stuffFrom 0 l else true :: stuffFrom (k + 1) l

/-- The delimiter, 0 1 1 1 1 1 1 0 (43_deframer.md R202). -/
def delimiter : List Bool := [false, true, true, true, true, true, true, false]

/-- The raw bits a transmitter sends for decoded bits: the inverse of NRZI.BIT (43_deframer.md R191),
from the raw level before. -/
def nrziEncode (inv : Bool) : Bool → List Bool → List Bool
  | _, [] => []
  | level, d :: l =>
    let r := level ^^ d ^^ inv
    r :: nrziEncode inv r l

end Sys2Proof.Machine
end

