-- ==== Sys2Proof/Certificates/Slice0/Obligations.lean ====
section
/-!
DEFINITION. The statements for the provers. Each cites the rules of spec/ it formalises; where a clause
rests on a choice of the model, its docstring names the log entry.
-/

open Sys2Proof Sys2Proof.Machine

/-! ### Encoding -/

/-- Every operation, with every operand at every value, is read back from its encoding (30_encoding.md
R101 to R104, R106 to R110, R116). Ignored argument bits are kept (log entry 11). -/
def Obligations.DecodeOfEncodeIsTheOperation : Prop :=
  ∀ i : Instr, decode (encode i) = some i

/-- A command packet that decodes is the encoding of what it decodes to: no bit of it is dropped
(30_encoding.md R101, R110). That the header bits the spec calls ignored are kept as operands, and so are not
dropped, is the model's choice (log entry 11). -/
def Obligations.EncodeOfDecodeIsThePacket : Prop :=
  ∀ (p : Packet) (i : Instr), decodePacket p = .instr i → encode i = .packet p

/-- A packet is rejected as reserved exactly when its opcode is none of the ten of the table
(30_encoding.md R101, R111), and a BLOCK packet is never rejected (R112). -/
def Obligations.ReservedExactlyOutsideTheTable : Prop :=
  (∀ p : Packet, decodePacket p = .reserved ↔
    p.hdr.toNat / 2 ^ 24 ∉ [0x00, 0x01, 0x02, 0x03, 0x04, 0x05, 0x06, 0x10, 0x11, 0x20]) ∧
  (∀ p : Packet, p.hdr.toNat / 2 ^ 24 = 0x10 → ∃ i, decodePacket p = .instr i)

/-- Packets written out in the spec decode to the commands they stand for, or are rejected as the spec says:
a FRPOP, a REGRD, a CFGWR and a NOP (45_host_commands.md R241 to R252, 95_test_vectors.md Q1), a START of two
words and a reserved opcode (Q2; 30_encoding.md R111, R112). A sanity statement. That the ignored bits of a
header, 0xABCDEF and 0xFFF here, appear as operands is the model's choice (log entry 11). -/
def Obligations.SpecPacketsDecode : Prop :=
  decodePacket ⟨0x00000000#32, []⟩ = .instr (.nop 0#24) ∧
  decodePacket ⟨0x00ABCDEF#32, []⟩ = .instr (.nop 0xABCDEF#24) ∧
  decodePacket ⟨0x02000014#32, [2#32]⟩ = .instr (.cfgwr 0#12 0x014#12 2#32) ∧
  decodePacket ⟨0x02FFF014#32, [2#32]⟩ = .instr (.cfgwr 0xFFF#12 0x014#12 2#32) ∧
  decodePacket ⟨0x03000327#32, []⟩ = .instr (.regrd 0#12 0x327#12) ∧
  decodePacket ⟨0x20000000#32, []⟩ = .instr (.frpop 0#24) ∧
  decodePacket ⟨0x04000000#32, [0#32]⟩ = .badLength ∧
  decodePacket ⟨0x07000000#32, []⟩ = .reserved

/-- The register map of 20_memory.md R76: the index and the access class of every register, row by row;
every register is found at its index, and an index that names a register is that register's, so that
every other index is unmapped. -/
def Obligations.RegisterMapIsExact : Prop :=
  (∀ r : Reg, regOfIndex (indexOfReg r) = some r) ∧
  (∀ (idx : BitVec 12) (r : Reg), regOfIndex idx = some r → indexOfReg r = idx) ∧
  (∀ r : Reg, (indexOfReg r).toNat =
    match r with
    | .id => 0x000 | .version => 0x001 | .status => 0x002 | .irqEnable => 0x003
    | .irqStatus => 0x004 | .params => 0x005 | .fsWork => 0x006 | .maxBlk => 0x007
    | .cfg .nch => 0x010 | .cfg .varmask => 0x011 | .cfg .srcId => 0x012 | .cfg .fsAcq => 0x013
    | .cfg .decim => 0x014 | .cfg .ntaps => 0x015 | .cfg .shCond => 0x016
    | .cfg .rotlen0 => 0x017 | .cfg .rotlen1 => 0x018
    | .cfg .shDem0 => 0x020 | .cfg .shDem1 => 0x021 | .cfg .shDem2 => 0x022
    | .cfg .cohStep => 0x023 | .cfg .chalOffs => 0x024 | .cfg .chalDcsh => 0x025
    | .cfg .thSig => 0x030 | .cfg .nLock => 0x031 | .cfg .errInc => 0x032
    | .cfg .errMax => 0x033 | .cfg .nSil => 0x034 | .cfg .tgain => 0x035
    | .cfg .nrziInv => 0x040 | .cfg .sixbitCheck => 0x041
    | .coefH .ch0 k => 0x100 + k.toNat | .coefH .ch1 k => 0x140 + k.toNat
    | .coefW .ch0 k => 0x200 + k.toNat | .coefW .ch1 k => 0x240 + k.toNat
    | .glob .blkAccepted => 0x300 | .glob .blkMalformed => 0x301 | .glob .shutdownDrops => 0x302
    | .glob .cmdErr => 0x303 | .glob .overrunDrops => 0x304
    | .sum .locks => 0x308 | .sum .unlocks => 0x309 | .sum .framesAttempted => 0x30A
    | .sum .aborts => 0x30B | .sum .malformed => 0x30C | .sum .crcFail => 0x30D
    | .sum .framesValid => 0x30E
    | .cnt c v j => 0x320 +
        8 * (match c, v with
          | .ch0, .ncoh => 0 | .ch0, .coh => 1 | .ch0, .chal => 2
          | .ch1, .ncoh => 4 | .ch1, .coh => 5 | .ch1, .chal => 6) +
        (match j with
          | .locks => 0 | .unlocks => 1 | .framesAttempted => 2 | .aborts => 3 | .malformed => 4
          | .crcFail => 5 | .framesValid => 6)
    | .pstate c v => 0x320 +
        8 * (match c, v with
          | .ch0, .ncoh => 0 | .ch0, .coh => 1 | .ch0, .chal => 2
          | .ch1, .ncoh => 4 | .ch1, .coh => 5 | .ch1, .chal => 6) + 7) ∧
  (∀ r : Reg, regAccess r =
    match r with
    | .irqEnable => .rw
    | .irqStatus => .w1c
    | .cfg _ => .cfg
    | .coefH _ _ => .cfg
    | .coefW _ _ => .cfg
    | _ => .ro)

/-! ### The step of the machine -/

/-- On CP's turn a packet at the head of CMD that decodes to a command is popped and the command executed
(45_host_commands.md R240), where no shutdown step is enabled (the latch is 0, or LIFE is STOPPED or FATAL)
and the packet is ready: a FENCE when every queue is empty, a REGRD or FRPOP when RSP is unbounded or has room
for the whole answer, every other command always. -/
def Obligations.StepExecutesTheHeadPacket : Prop :=
  ∀ (s : State) (p : Packet) (ps : List Packet) (ms : List Move) (i : Instr),
    s.script = .agent .cp :: ms → s.cmd = p :: ps →
    (s.shutdownLatch = false ∨ s.life = .stopped ∨ s.life = .fatal) →
    decodePacket p = .instr i →
    (match i with
      | .fence _ => ∀ c v, (s.pipe.get c v).q = []
      | .regrd _ _ => ∀ d, s.depths.rspDepth = some d → (s.rsp.map List.length).sum + 1 ≤ d
      | .frpop _ => ∀ d, s.depths.rspDepth = some d → (s.rsp.map List.length).sum +
          (match s.ofifo with | [] => 1 | f :: _ => f.length) ≤ d
      | _ => True) →
    step s = exec i { s with script := ms, cmd := ps }

/-- A packet with a reserved opcode is consumed whole, CMD_ERR is incremented, LAST_ERR becomes 0x10, no
response is produced and nothing else changes (30_encoding.md R111); a format H command of more than one
word and a CFGWR of a word count other than 2 likewise with 0x11 (R112); a BLOCK is executed whatever its
word count. That a FENCE, REGRD or FRPOP of a wrong word count does not wait for empty queues or for room in
RSP is the model's reading of 45_host_commands.md R240 (log entry 4). -/
def Obligations.StepRejectsBadPackets : Prop :=
  ∀ (s : State) (p : Packet) (ps : List Packet) (ms : List Move),
    s.script = .agent .cp :: ms → s.cmd = p :: ps → shutdownEnabled s = false →
    let op := p.hdr.toNat / 2 ^ 24
    let after : State := { s with script := ms, cmd := ps }
    ((0x07 ≤ op ∧ op ≤ 0x0F ∨ 0x12 ≤ op ∧ op ≤ 0x1F ∨ 0x21 ≤ op ∧ op ≤ 0xFF) →
      step s = .next (cmdErrWith 0x10#8 after)) ∧
    ((op ∈ [0x00, 0x01, 0x03, 0x04, 0x05, 0x06, 0x11, 0x20] ∧ p.body ≠ []) →
      step s = .next (cmdErrWith 0x11#8 after)) ∧
    ((op = 0x02 ∧ p.body.length ≠ 1) → step s = .next (cmdErrWith 0x11#8 after)) ∧
    (op = 0x10 →
      step s = exec (.block (p.hdr.extractLsb' 16 8) (p.hdr.extractLsb' 0 16) p.body) after)

/-- The shutdown step comes before any command (45_host_commands.md R240 (1), R248): it empties every
queue, counts one SHUTDOWN_DROPS per block dropped, goes to STOPPED, and leaves CMD and everything else
alone (R247). -/
def Obligations.ShutdownStepPreemptsCommands : Prop :=
  ∀ (s : State) (ms : List Move),
    s.script = .agent .cp :: ms → s.shutdownLatch = true → (s.life = .idle ∨ s.life = .running) →
    ∃ t, step s = .next t ∧
      t = { s with script := ms, life := .stopped, glob := t.glob, pipe := t.pipe } ∧
      t.glob = { s.glob with shutdownDrops := t.glob.shutdownDrops } ∧
      t.glob.shutdownDrops.toNat = min (s.glob.shutdownDrops.toNat + waiting s) 4294967295 ∧
      ∀ c v, t.pipe.get c v = { s.pipe.get c v with q := [] }

/-- A packet that is not ready stays at the head (45_host_commands.md R240): a FENCE while some queue
holds a block, a REGRD or FRPOP while RSP has no room for the whole answer. -/
def Obligations.UnreadyCommandWaits : Prop :=
  ∀ (s : State) (p : Packet) (ps : List Packet) (ms : List Move),
    s.script = .agent .cp :: ms → s.cmd = p :: ps → shutdownEnabled s = false →
    (((∃ a, decodePacket p = .instr (.fence a)) ∧ ∃ c v, (s.pipe.get c v).q ≠ []) ∨
      (∃ a idx d, decodePacket p = .instr (.regrd a idx) ∧ s.depths.rspDepth = some d ∧
        d < (s.rsp.map List.length).sum + 1) ∨
      (∃ a d, decodePacket p = .instr (.frpop a) ∧ s.depths.rspDepth = some d ∧
        s.ofifo = [] ∧ d < (s.rsp.map List.length).sum + 1) ∨
      (∃ a d f fs, decodePacket p = .instr (.frpop a) ∧ s.depths.rspDepth = some d ∧
        s.ofifo = f :: fs ∧ d < (s.rsp.map List.length).sum + f.length)) →
    step s = .next { s with script := ms }

/-- The step of a pipeline runs the stage operations of its block, sample by sample (41_demodulator.md
R151), here of a block of one sample: `samp_cnt` is counted, the demodulator operation of the variant
sends one element, SYN.STEP takes it and sends at most one raw bit, NRZI.BIT takes that and sends one
decoded bit, HDLC.BIT takes that and sends at most one CandidateFrame of this pipeline, VAL.FRAME takes
that; where a stage sends nothing the sample ends. That the elements between the stages stand in fields
of the state, and that `samp_cnt` wraps, is the model's (log entries 5, 7). -/
def Obligations.PipelineStepRunsTheStages : Prop :=
  ∀ (s : State) (c : Chan) (v : Variant) (b : Block) (bs : List Block) (z : Sample) (ms : List Move),
    s.script = .agent (.pipe c v) :: ms → (s.life = .running ∨ s.life = .fatal) →
    pairActive s.cfg c v = true → StreamsEmpty s → (s.pipe.get c v).q = b :: bs → b.samples = [z] →
    ∃ (t u : State) (e : BitVec 16),
      exec (demInstr c v z) (({ s with script := ms }).setPipe c v
        { s.pipe.get c v with q := bs, sampCnt := (s.pipe.get c v).sampCnt + 1#64 }) = .next t ∧
      (t.pipe.get c v).sym = [e] ∧
      exec (.synStep c v e) (t.setPipe c v { t.pipe.get c v with sym := [] }) = .next u ∧
      ((u.pipe.get c v).raw = [] ∧ step s = .next u ∨
        ∃ (r d : Bool) (n h : State), (u.pipe.get c v).raw = [r] ∧
          exec (.nrziBit c v r) (u.setPipe c v { u.pipe.get c v with raw := [] }) = .next n ∧
          (n.pipe.get c v).dec = [d] ∧
          exec (.hdlcBit c v d) (n.setPipe c v { n.pipe.get c v with dec := [] }) = .next h ∧
          ((h.pipe.get c v).cand = [] ∧ step s = .next h ∨
            ∃ f : CandFrame, (h.pipe.get c v).cand = [f] ∧ f.chan = c ∧ f.var = v ∧
              step s = exec (.valFrame f) (h.setPipe c v { h.pipe.get c v with cand := [] })))

/-- Where a block is cut does not matter to the pipeline: two blocks one after another leave what one
block of all their samples leaves (41_demodulator.md R151: the state is carried from sample to sample and
from block to block). -/
def Obligations.PipelineBlocksConcatenate : Prop :=
  ∀ (s : State) (c : Chan) (v : Variant) (a b : Block) (bs : List Block) (ms : List Move),
    (s.life = .running ∨ s.life = .fatal) → pairActive s.cfg c v = true → StreamsEmpty s →
    ∃ t, step ({ s with script := .agent (.pipe c v) :: ms }.setPipe c v
          { s.pipe.get c v with q := { a with samples := a.samples ++ b.samples } :: bs }) = .next t ∧
      stepAll 2 ({ s with script := .agent (.pipe c v) :: .agent (.pipe c v) :: ms }.setPipe c v
          { s.pipe.get c v with q := a :: b :: bs }) = .next t

/-- A pipeline that is not active, or in IDLE or STOPPED, does nothing on its turn, and neither does one
with an empty queue (41_demodulator.md R151, 10_state.md R20); an empty block is popped and changes
nothing else (R151). -/
def Obligations.PipelineWithoutWorkChangesNothing : Prop :=
  ∀ (s : State) (c : Chan) (v : Variant) (ms : List Move),
    s.script = .agent (.pipe c v) :: ms → StreamsEmpty s →
    ((s.life = .idle ∨ s.life = .stopped ∨ pairActive s.cfg c v = false ∨ (s.pipe.get c v).q = []) →
      step s = .next { s with script := ms }) ∧
    (∀ b bs, (s.life = .running ∨ s.life = .fatal) → pairActive s.cfg c v = true →
      (s.pipe.get c v).q = b :: bs → b.samples = [] →
      step s = .next (({ s with script := ms }).setPipe c v { s.pipe.get c v with q := bs }))

/-- The ports carry packets by the mark `last` alone (30_encoding.md R100, R113): the words of a packet
sent one by one join CMD as that packet and nothing else changes; taking as many words as the oldest
response packet has removes it and nothing else. -/
def Obligations.PortsCarryPackets : Prop :=
  (∀ (s : State) (p : Packet) (ws : List Word) (w : Word) (ms : List Move),
    s.cmdPart = [] → p.hdr :: p.body = ws ++ [w] →
    s.script = ws.map (fun x => .host (.sendWord x false)) ++ .host (.sendWord w true) :: ms →
    stepAll (ws.length + 1) s = .next { s with script := ms, cmd := s.cmd ++ [p] }) ∧
  (∀ (s : State) (r : List Word) (rs : List (List Word)) (ms : List Move),
    s.rsp = r :: rs → r ≠ [] → s.script = List.replicate r.length (.host .takeWord) ++ ms →
    stepAll r.length s = .next { s with script := ms, rsp := rs })

/-- A pulse on `rst` puts every element of the block at its reset value, CMD and RSP emptied, whatever
the state; SRESET does the same but keeps CMD and RSP (70_reset_and_hazards.md R310, 10_state.md R50,
45_host_commands.md R242); a pin `shutdown_req` still high sets the latch again at once (R242, R311).
What the model keeps besides: log entries 1, 2, 3, 6. -/
def Obligations.ResetRestoresTheResetState : Prop :=
  (∀ (s : State) (ms : List Move), s.script = .host .rstPulse :: ms →
    step s = .next { State.reset with
      shutdownReq := s.shutdownReq, shutdownLatch := s.shutdownReq
      depths := s.depths, script := ms, tick := s.tick }) ∧
  (∀ (arg : BitVec 24) (s : State),
    exec (.sreset arg) s = .next { State.reset with
      cmd := s.cmd, cmdPart := s.cmdPart, rsp := s.rsp
      shutdownReq := s.shutdownReq, shutdownLatch := s.shutdownReq
      depths := s.depths, script := s.script, tick := s.tick })

/-- The reset values of 10_state.md R50, element by element. A sanity statement. The values of `shutdownReq`,
`depths`, `script` and `tick`, which are the model's (log entries 1, 2, 3, 6), are not stated. The four
internal streams of a pipeline, which the table does not list, are the model's fields, and that they are empty
is its choice (log entry 5). -/
def Obligations.ResetValuesAreTheSpecs : Prop :=
  State.reset.life = .idle ∧ State.reset.shutdownLatch = false ∧ State.reset.fatalCause = 0#8 ∧
  State.reset.lastErr = 0#8 ∧ State.reset.blkErr = false ∧ State.reset.overrun = false ∧
  State.reset.irqEnable = 0#5 ∧
  State.reset.cfg = ⟨2#2, 1#3, 0#8, 48000#32, 1#7, 1#7, 14#5, 1#7, 1#7, 15#6, 3#6, 15#6, 3#6, 1024#15,
    6#4, 64#15, 8#8, 4#8, 16#8, 16#8, 2#4, 0#1, 0#1⟩ ∧
  (∀ c k, k < 64 →
    Memory.read State.reset.coef (hIndex c k) = (if k = 0 then 0x4000#32 else 0#32) ∧
    Memory.read State.reset.coef (wIndex c k) = (if k = 0 then 0x4000#32 else 0#32)) ∧
  State.reset.glob = ⟨0#32, 0#32, 0#32, 0#32, 0#32⟩ ∧
  State.reset.cond.dl = List.replicate 64 ⟨0#16, 0#16⟩ ∧ State.reset.cond.dphase = 0#7 ∧
  (∀ c, State.reset.cond.rotidx.get c = 0#6) ∧ State.reset.cond.haveSeq = false ∧
  State.reset.cond.lastSeq = 0#32 ∧
  (∀ c, State.reset.kern.get c = ⟨⟨⟨0#16, 0#16⟩, Ring.zero 32⟩, ⟨0#6, Ring.zero 16⟩,
    ⟨⟨0#16, 0#16⟩, Ring.zero 32, 0#16, 0#16, 0#16⟩⟩) ∧
  (∀ c v, State.reset.pipe.get c v = ⟨[], 0#64, ⟨0#16, 0#16, 0#8, .unlocked, 0#8, 0#8, 0#8⟩,
    ⟨false, false, 0#3, .search, 0#1030, 0#11⟩, ⟨0#32, 0#32, 0#32, 0#32, 0#32, 0#32, 0#32⟩,
    [], [], [], []⟩) ∧
  State.reset.cmd = [] ∧ State.reset.rsp = [] ∧ State.reset.ofifo = [] ∧
  irqPin State.reset = false ∧ fatalPin State.reset = false

/-- Every step answers a next state: no input leads to a state without a successor (60_exceptions.md R270);
and runs make progress (70_reset_and_hazards.md R327). Weak fairness: from every state, once the script is
used up, each agent's turn comes, and with it its step. So a FENCE at the head of CMD completes, whatever
waits in the queues, and with nothing in CMD every queued block is worked off, by the pipelines and not by
dropping it where the shutdown latch is 0.
The premises are the invariants StepKeepsLifecycle and StepLeavesStreamsEmpty; how turns are given is the
model's (log entries 1, 2, 12). -/
def Obligations.EveryStepHasASuccessor : Prop :=
  (∀ s : State, ∃ t, step s = .next t) ∧ (∀ (i : Instr) (s : State), ∃ t, exec i s = .next t) ∧
  (∀ (s : State) (a : Agent), ∃ n u, stepAll n s = .next u ∧ u.script = [] ∧
    step u = step { u with script := [.agent a], tick := u.tick + 1 }) ∧
  (∀ (s : State) (p : Packet) (ps : List Packet) (arg : BitVec 24),
    s.script = [] → s.cmd = p :: ps → decodePacket p = .instr (.fence arg) →
    LifecycleOk s → StreamsEmpty s → ∃ n t, stepAll n s = .next t ∧ t.cmd = ps) ∧
  (∀ s : State, s.script = [] → s.cmd = [] → LifecycleOk s → StreamsEmpty s →
    ∃ n t, stepAll n s = .next t ∧ (∀ c v, (t.pipe.get c v).q = []) ∧
      (s.shutdownLatch = false → t.life = s.life ∧ t.glob.shutdownDrops = s.glob.shutdownDrops))

/-! ### Host commands -/

/-- NOP and FENCE change nothing (45_host_commands.md R241, R249), in every lifecycle state. -/
def Obligations.NopAndFenceChangeNothing : Prop :=
  ∀ (arg : BitVec 24) (s : State), exec (.nop arg) s = .next s ∧ exec (.fence arg) s = .next s

/-- CFGWR refuses in this order: an unmapped index (RegUnmapped 0x13), a read-only register (RegReadOnly
0x14), a configuration register outside IDLE (CmdState 0x12); each changes CMD_ERR and LAST_ERR only
(45_host_commands.md R243, 60_exceptions.md R276, R288). -/
def Obligations.CfgwrRefusalsInOrder : Prop :=
  ∀ (arg idx : BitVec 12) (val : Word) (s : State),
    (regOfIndex idx = none → exec (.cfgwr arg idx val) s = .next (cmdErrWith 0x13#8 s)) ∧
    (∀ r, regOfIndex idx = some r → regAccess r = .ro →
      exec (.cfgwr arg idx val) s = .next (cmdErrWith 0x14#8 s)) ∧
    (∀ r, regOfIndex idx = some r → regAccess r = .cfg → s.life ≠ .idle →
      exec (.cfgwr arg idx val) s = .next (cmdErrWith 0x12#8 s))

/-- A CFGWR of a scalar configuration register in IDLE stores the low bits its field has: a read of it
returns them zero-extended, every other register reads as before, and nothing but the configuration
changes (10_state.md R32, 45_host_commands.md R243). The widths are those of 10_state.md R33. -/
def Obligations.CfgwrStoresTheField : Prop :=
  ∀ (arg : BitVec 12) (k : CfgReg) (val : Word) (s : State), s.life = .idle →
    ∃ t, exec (.cfgwr arg (indexOfReg (.cfg k)) val) s = .next t ∧ t = { s with cfg := t.cfg } ∧
      (readReg (.cfg k) t).toNat = val.toNat % 2 ^ (match k with
        | .nch => 2 | .varmask => 3 | .srcId => 8 | .fsAcq => 32 | .decim => 7 | .ntaps => 7
        | .shCond => 5 | .rotlen0 => 7 | .rotlen1 => 7 | .shDem0 => 6 | .shDem1 => 6 | .shDem2 => 6
        | .cohStep => 6 | .chalOffs => 15 | .chalDcsh => 4 | .thSig => 15 | .nLock => 8
        | .errInc => 8 | .errMax => 8 | .nSil => 8 | .tgain => 4 | .nrziInv => 1 | .sixbitCheck => 1) ∧
      ∀ r, r ≠ .cfg k → readReg r t = readReg r s

/-- A CFGWR of a coefficient word in IDLE changes that word to the value written and no other register
(10_state.md R34, 45_host_commands.md R243). The premise on the memory is the invariant
StepKeepsMemoryCanonical. -/
def Obligations.CoefficientWriteReadsBack : Prop :=
  ∀ (arg : BitVec 12) (r : Reg) (val : Word) (s : State),
    (∃ c k, r = .coefH c k ∨ r = .coefW c k) → s.life = .idle → MemoryOk s →
    ∃ t, exec (.cfgwr arg (indexOfReg r) val) s = .next t ∧ t = { s with coef := t.coef } ∧
      readReg r t = val ∧ (∀ r', r' ≠ r → readReg r' t = readReg r' s)

/-- REGRD of a mapped index answers one word, the register's, and changes nothing else; of an unmapped
index, such as every one from 0x400 on, it answers 0 and raises RegUnmapped (45_host_commands.md R244). What
the word is, for the registers no other statement gives: the constants of ID, VERSION, PARAMS, FS_WORK and
MAXBLK (10_state.md R27, R31), IRQ_ENABLE (R29), each global counter (R35) and each pipeline's (R36). -/
def Obligations.RegrdAnswersOneWord : Prop :=
  ∀ (arg idx : BitVec 12) (s : State),
    (∀ r, regOfIndex idx = some r →
      exec (.regrd arg idx) s = .next { s with rsp := s.rsp ++ [[readReg r s]] }) ∧
    (regOfIndex idx = none →
      exec (.regrd arg idx) s = .next { cmdErrWith 0x13#8 s with rsp := s.rsp ++ [[0#32]] }) ∧
    (0x400 ≤ idx.toNat → regOfIndex idx = none) ∧
    readReg .id s = 0x41495343#32 ∧ readReg .version s = 7#32 ∧ readReg .params s = 0x10050302#32 ∧
    readReg .fsWork s = 48000#32 ∧ readReg .maxBlk s = 16384#32 ∧
    (readReg .irqEnable s).toNat = s.irqEnable.toNat ∧
    readReg (.glob .blkAccepted) s = s.glob.blkAccepted ∧
    readReg (.glob .blkMalformed) s = s.glob.blkMalformed ∧
    readReg (.glob .shutdownDrops) s = s.glob.shutdownDrops ∧
    readReg (.glob .cmdErr) s = s.glob.cmdErr ∧
    readReg (.glob .overrunDrops) s = s.glob.overrunDrops ∧
    ∀ c v, readReg (.cnt c v .locks) s = (s.pipe.get c v).cnt.locks ∧
      readReg (.cnt c v .unlocks) s = (s.pipe.get c v).cnt.unlocks ∧
      readReg (.cnt c v .framesAttempted) s = (s.pipe.get c v).cnt.framesAttempted ∧
      readReg (.cnt c v .aborts) s = (s.pipe.get c v).cnt.aborts ∧
      readReg (.cnt c v .malformed) s = (s.pipe.get c v).cnt.malformed ∧
      readReg (.cnt c v .crcFail) s = (s.pipe.get c v).cnt.crcFail ∧
      readReg (.cnt c v .framesValid) s = (s.pipe.get c v).cnt.framesValid

/-- STATUS: a REGRD of index 0x002 answers it and has no side effect, a CFGWR of it raises RegReadOnly,
and its fields (10_state.md R28). PSTATE: its fields (R38). -/
def Obligations.StatusAndPstateFields : Prop :=
  (∀ (arg : BitVec 12) (val : Word) (s : State),
    exec (.regrd arg 0x002#12) s = .next { s with rsp := s.rsp ++ [[readReg .status s]] } ∧
    exec (.cfgwr arg 0x002#12 val) s = .next (cmdErrWith 0x14#8 s)) ∧
  (∀ s : State,
    (readReg .status s).extractLsb' 0 3 =
      (match s.life with | .idle => 0#3 | .running => 1#3 | .stopped => 3#3 | .fatal => 4#3) ∧
    ((readReg .status s).getLsbD 3 = true ↔ ∃ c v, (s.pipe.get c v).q ≠ []) ∧
    ((readReg .status s).getLsbD 4 = true ↔ s.ofifo ≠ []) ∧
    (readReg .status s).getLsbD 5 = s.overrun ∧
    (readReg .status s).getLsbD 6 = s.blkErr ∧
    (readReg .status s).getLsbD 7 = s.shutdownReq ∧
    (readReg .status s).extractLsb' 8 8 = s.fatalCause ∧
    (readReg .status s).extractLsb' 16 8 = s.lastErr ∧
    (readReg .status s).extractLsb' 24 8 = 0#8) ∧
  (∀ (s : State) (c : Chan) (v : Variant),
    (readReg (.pstate c v) s).extractLsb' 0 2 =
      (match (s.pipe.get c v).syn.sstate with | .unlocked => 0#2 | .acquiring => 1#2 | .locked => 2#2) ∧
    (readReg (.pstate c v) s).getLsbD 2 = decide ((s.pipe.get c v).dfr.fstate = .fill) ∧
    (readReg (.pstate c v) s).extractLsb' 3 3 = (s.pipe.get c v).dfr.runLen ∧
    (readReg (.pstate c v) s).getLsbD 6 = (s.pipe.get c v).dfr.runBit ∧
    (readReg (.pstate c v) s).getLsbD 7 = (s.pipe.get c v).dfr.prevRaw ∧
    (readReg (.pstate c v) s).extractLsb' 8 11 = (s.pipe.get c v).dfr.flen ∧
    (readReg (.pstate c v) s).extractLsb' 19 13 = 0#13)

/-- The interrupt registers and pins: CFGWR of IRQ_ENABLE stores the low five bits, in every lifecycle
state (10_state.md R29); CFGWR of IRQ_STATUS clears BLK_ERR where bit 2 is 1 and OVERRUN where bit 3 is
1, ignores every other bit and raises nothing; the bits IRQ_STATUS reads as (R30, 60_exceptions.md R286);
the levels of the pins `irq` and `fatal` (R285). -/
def Obligations.InterruptRegistersAndPins : Prop :=
  (∀ (arg : BitVec 12) (val : Word) (s : State),
    exec (.cfgwr arg 0x003#12 val) s = .next { s with irqEnable := val.extractLsb' 0 5 } ∧
    exec (.cfgwr arg 0x004#12 val) s = .next { s with
      blkErr := s.blkErr && !val.getLsbD 2
      overrun := s.overrun && !val.getLsbD 3 }) ∧
  (∀ s : State,
    ((readReg .irqStatus s).getLsbD 0 = true ↔ s.ofifo ≠ []) ∧
    ((readReg .irqStatus s).getLsbD 1 = true ↔ s.life = .fatal) ∧
    (readReg .irqStatus s).getLsbD 2 = s.blkErr ∧
    (readReg .irqStatus s).getLsbD 3 = s.overrun ∧
    ((readReg .irqStatus s).getLsbD 4 = true ↔ s.life = .stopped) ∧
    (readReg .irqStatus s).extractLsb' 5 27 = 0#27 ∧
    (irqPin s = true ↔ ∃ i, i < 5 ∧ (readReg .irqStatus s).getLsbD i = true ∧ s.irqEnable.getLsbD i = true) ∧
    (fatalPin s = true ↔ s.life = .fatal))

/-- The sum views at 0x308 to 0x30E, in the order of the counters, read-only: each reads as the sum of its
counter over the six pipelines, saturated (10_state.md R37). -/
def Obligations.SumViewsSaturate : Prop :=
  (∀ n, n < 7 → (regOfIndex (BitVec.ofNat 12 (0x308 + n)) = some (.sum
    ([CntReg.locks, .unlocks, .framesAttempted, .aborts, .malformed, .crcFail, .framesValid][n]?.getD
      .locks)))) ∧
  (∀ j : CntReg, regAccess (.sum j) = .ro) ∧
  ∀ (s : State) (j : CntReg),
    let n := fun c v => (readReg (.cnt c v j) s).toNat
    (readReg (.sum j) s).toNat = min (n .ch0 .ncoh + n .ch0 .coh + n .ch0 .chal
      + n .ch1 .ncoh + n .ch1 .coh + n .ch1 .chal) 4294967295

/-- START (45_host_commands.md R245, R246): in IDLE a legal configuration goes to RUNNING and an illegal
one to FATAL with cause 0x01, nothing else changing; elsewhere it raises CmdState. -/
def Obligations.StartChecksTheConfiguration : Prop :=
  ∀ (arg : BitVec 24) (s : State),
    let legal : Prop :=
      (s.cfg.nch.toNat = 1 ∨ s.cfg.nch.toNat = 2) ∧ s.cfg.varmask.toNat ≠ 0 ∧
      1 ≤ s.cfg.decim.toNat ∧ s.cfg.decim.toNat ≤ 64 ∧
      1 ≤ s.cfg.ntaps.toNat ∧ s.cfg.ntaps.toNat ≤ 64 ∧
      1 ≤ s.cfg.rotlen0.toNat ∧ s.cfg.rotlen0.toNat ≤ 64 ∧
      1 ≤ s.cfg.rotlen1.toNat ∧ s.cfg.rotlen1.toNat ≤ 64 ∧
      s.cfg.fsAcq.toNat = s.cfg.decim.toNat * 48000 ∧
      1 ≤ s.cfg.nLock.toNat ∧ 1 ≤ s.cfg.errMax.toNat ∧ 1 ≤ s.cfg.nSil.toNat
    (s.life = .idle → legal → exec (.start arg) s = .next { s with life := .running }) ∧
    (s.life = .idle → ¬legal →
      exec (.start arg) s = .next { s with life := .fatal, fatalCause := 0x01#8 }) ∧
    (s.life ≠ .idle → exec (.start arg) s = .next (cmdErrWith 0x12#8 s))

/-- STOP (45_host_commands.md R247): in IDLE and RUNNING every queued block is dropped and counted once
per queue entry, the queues are emptied and LIFE becomes STOPPED, nothing else changing; in STOPPED and
FATAL it has no effect. -/
def Obligations.StopDropsAndCountsQueuedBlocks : Prop :=
  ∀ (arg : BitVec 24) (s : State),
    ((s.life = .idle ∨ s.life = .running) →
      ∃ t, exec (.stop arg) s = .next t ∧
        t = { s with life := .stopped, glob := t.glob, pipe := t.pipe } ∧
        t.glob = { s.glob with shutdownDrops := t.glob.shutdownDrops } ∧
        t.glob.shutdownDrops.toNat = min (s.glob.shutdownDrops.toNat + waiting s) 4294967295 ∧
        ∀ c v, t.pipe.get c v = { s.pipe.get c v with q := [] }) ∧
    ((s.life = .stopped ∨ s.life = .fatal) → exec (.stop arg) s = .next s)

/-- BLOCK outside RUNNING (45_host_commands.md R250): in IDLE and FATAL CmdState, in STOPPED one
SHUTDOWN_DROPS, nothing being checked and nothing else changing. EOS (R251, 60_exceptions.md R282):
CmdState in IDLE, FATAL with cause 0x02 in RUNNING, no effect in STOPPED and FATAL; nothing else
changes. -/
def Obligations.BlockAndEosByLifecycle : Prop :=
  (∀ (chid : BitVec 8) (len : BitVec 16) (body : List Word) (s : State),
    ((s.life = .idle ∨ s.life = .fatal) →
      exec (.block chid len body) s = .next (cmdErrWith 0x12#8 s)) ∧
    (s.life = .stopped → exec (.block chid len body) s = .next { s with
      glob := { s.glob with shutdownDrops := oneMore s.glob.shutdownDrops } })) ∧
  (∀ (arg : BitVec 24) (s : State),
    (s.life = .idle → exec (.eos arg) s = .next (cmdErrWith 0x12#8 s)) ∧
    (s.life = .running → exec (.eos arg) s = .next { s with life := .fatal, fatalCause := 0x02#8 }) ∧
    ((s.life = .stopped ∨ s.life = .fatal) → exec (.eos arg) s = .next s))

/-- The five tests of a BLOCK in RUNNING, in order (40_conditioner.md R132): the first that fails gives
the code in LAST_ERR; BLK_MALFORMED is incremented, BLK_ERR set, the block skipped whole and nothing else
changed (60_exceptions.md R273). -/
def Obligations.MalformedBlockIsSkippedWhole : Prop :=
  ∀ (chid : BitVec 8) (len : BitVec 16) (body : List Word) (s : State) (code : BitVec 8),
    let a : Prop := 1 ≤ len.toNat ∧ len.toNat ≤ 16384
    let b : Prop := body.length - 2 = len.toNat
    let c : Prop := chid = s.cfg.srcId
    let d : Prop := (body[1]?).getD 0#32 = s.cfg.fsAcq
    let e : Prop := s.cond.haveSeq = true ∧ ((body[0]?).getD 0#32).toNat < s.cond.lastSeq.toNat
    s.life = .running →
    ((¬a ∧ code = 0x01#8) ∨ (a ∧ ¬b ∧ code = 0x02#8) ∨ (a ∧ b ∧ ¬c ∧ code = 0x03#8) ∨
      (a ∧ b ∧ c ∧ ¬d ∧ code = 0x04#8) ∨ (a ∧ b ∧ c ∧ d ∧ e ∧ code = 0x05#8)) →
    exec (.block chid len body) s = .next { s with
      lastErr := code
      blkErr := true
      glob := { s.glob with blkMalformed := oneMore s.glob.blkMalformed } }

/-- A BLOCK in RUNNING that passes the tests (40_conditioner.md R132, R136; 60_exceptions.md R274):
`have_seq` and `last_seq` are set, BLK_ACCEPTED is incremented, and every active pair whose queue has room
gets one block with its channel, the input's sequence number, rate 48000, and the samples that
COND.SAMPLE, run over the input samples in order, appends to `out[c]`; every active pair whose queue is
full misses it and counts one Overrun; inactive pairs get none, and nothing else changes but the
conditioner's own registers. -/
def Obligations.AcceptedBlockFansOut : Prop :=
  ∀ (chid : BitVec 8) (len : BitVec 16) (sq rt : Word) (ws : List Word) (s : State),
    s.life = .running → 1 ≤ len.toNat → len.toNat ≤ 16384 → ws.length = len.toNat →
    chid = s.cfg.srcId → rt = s.cfg.fsAcq → (s.cond.haveSeq = true → s.cond.lastSeq.toNat ≤ sq.toNat) →
    ∃ t u, exec (.block chid len (sq :: rt :: ws)) s = .next t ∧
      execAll (ws.map fun w => .condSample (unpackSample w))
        { s with cond := { s.cond with out := ⟨[], []⟩ } } = .next u ∧
      let active := fun c v => chanNum c < s.cfg.nch.toNat ∧ s.cfg.varmask.getLsbD (varNum v) = true
      let full := fun c v => ∃ d, s.depths.qDepth = some d ∧ d ≤ (s.pipe.get c v).q.length
      t = { s with
        cond := { u.cond with haveSeq := true, lastSeq := sq, out := ⟨[], []⟩ }
        glob := { s.glob with
          blkAccepted := oneMore s.glob.blkAccepted, overrunDrops := t.glob.overrunDrops }
        overrun := t.overrun
        pipe := t.pipe } ∧
      (∀ c v, active c v → ¬full c v →
        t.pipe.get c v = { s.pipe.get c v with
          q := (s.pipe.get c v).q ++
            [{ chan := c, seq := sq, rate := 48000#32, samples := u.cond.out.get c }] }) ∧
      (∀ c v, ¬(active c v ∧ ¬full c v) → t.pipe.get c v = s.pipe.get c v) ∧
      (t.overrun = true ↔ s.overrun = true ∨ ∃ c v, active c v ∧ full c v) ∧
      ∃ miss : List (Chan × Variant),
        miss.Nodup ∧ (∀ c v, (c, v) ∈ miss ↔ active c v ∧ full c v) ∧
        t.glob.overrunDrops.toNat = min (s.glob.overrunDrops.toNat + miss.length) 4294967295

/-- FRPOP (45_host_commands.md R252): the oldest record of OF moves to RSP; with OF empty the answer is
the one word 0. -/
def Obligations.FrpopMovesTheOldestRecord : Prop :=
  ∀ (arg : BitVec 24) (s : State),
    (s.ofifo = [] → exec (.frpop arg) s = .next { s with rsp := s.rsp ++ [[0#32]] }) ∧
    (∀ f fs, s.ofifo = f :: fs →
      exec (.frpop arg) s = .next { s with ofifo := fs, rsp := s.rsp ++ [f] })

/-! ### The Sample Conditioner -/

/-- COND.SAMPLE between outputs (40_conditioner.md R133): the delay line shifts and `dphase` rises by
one; nothing else changes. -/
def Obligations.CondSampleBetweenOutputs : Prop :=
  ∀ (x : Sample) (s : State), s.cond.dl.length = 64 →
    s.cond.dphase.toNat + 1 < s.cfg.decim.toNat →
    ∃ t, exec (.condSample x) s = .next t ∧
      t = { s with cond := { s.cond with dl := t.cond.dl, dphase := t.cond.dphase } } ∧
      t.cond.dphase.toNat = s.cond.dphase.toNat + 1 ∧
      t.cond.dl.length = 64 ∧ t.cond.dl[0]? = some x ∧
      ∀ k, k < 63 → t.cond.dl[k + 1]? = s.cond.dl[k]?

/-- COND.SAMPLE on the sample that completes an output (40_conditioner.md R133 to R135): `dphase` becomes
0, and each active channel appends one sample, the FIR sum over the shifted delay line, rounded, shifted
and saturated, multiplied by the factor at `rotidx[c]`, rounded by 14 and saturated; `rotidx[c]` moves on
modulo ROTLEN_c. Inactive channels and everything else stay. -/
def Obligations.CondSampleOutput : Prop :=
  ∀ (x : Sample) (s : State), s.cond.dl.length = 64 →
    s.cond.dphase.toNat + 1 = s.cfg.decim.toNat → s.cfg.ntaps.toNat ≤ 64 →
    let dl : Nat → Sample := fun k => if k = 0 then x else (s.cond.dl[k - 1]?).getD ⟨0#16, 0#16⟩
    let h : Chan → Nat → Sample := fun c k => unpackSample (Memory.read s.coef (0x100 + 64 * chanNum c + k))
    let w : Chan → Sample := fun c =>
      unpackSample (Memory.read s.coef (0x200 + 64 * chanNum c + (s.cond.rotidx.get c).toNat))
    let aI : Chan → Int := fun c => ((List.range s.cfg.ntaps.toNat).map fun k =>
      (h c k).i.toInt * (dl k).i.toInt - (h c k).q.toInt * (dl k).q.toInt).sum
    let aQ : Chan → Int := fun c => ((List.range s.cfg.ntaps.toNat).map fun k =>
      (h c k).i.toInt * (dl k).q.toInt + (h c k).q.toInt * (dl k).i.toInt).sum
    let yI : Chan → Int := fun c => clip (-32768) 32767 (roundShift (aI c) s.cfg.shCond.toNat)
    let yQ : Chan → Int := fun c => clip (-32768) 32767 (roundShift (aQ c) s.cfg.shCond.toNat)
    ∃ t, exec (.condSample x) s = .next t ∧
      t = { s with cond := { s.cond with
        dl := (x :: s.cond.dl).take 64, dphase := 0#7, rotidx := t.cond.rotidx, out := t.cond.out } } ∧
      ∀ c,
        (s.cfg.nch.toNat ≤ chanNum c →
          t.cond.rotidx.get c = s.cond.rotidx.get c ∧ t.cond.out.get c = s.cond.out.get c) ∧
        (chanNum c < s.cfg.nch.toNat →
          (1 ≤ rotlen s.cfg c → rotlen s.cfg c ≤ 64 →
            (t.cond.rotidx.get c).toNat = ((s.cond.rotidx.get c).toNat + 1) % rotlen s.cfg c) ∧
          ∃ z : Sample, t.cond.out.get c = s.cond.out.get c ++ [z] ∧
            z.i.toInt = clip (-32768) 32767
              (roundShift (yI c * (w c).i.toInt - yQ c * (w c).q.toInt) 14) ∧
            z.q.toInt = clip (-32768) 32767
              (roundShift (yI c * (w c).q.toInt + yQ c * (w c).i.toInt) 14))

/-- No loss, no duplication (40_conditioner.md R137): over any list of samples, however it is cut,
`dphase` counts modulo DECIM, every active channel gains exactly floor((dphase + N) / DECIM) samples,
`rotidx` counts them modulo ROTLEN_c, and the delay line holds the last 64 samples. -/
def Obligations.ConditionerLosesAndRepeatsNothing : Prop :=
  ∀ (xs : List Sample) (s : State),
    s.cond.dphase.toNat < s.cfg.decim.toNat → s.cfg.decim.toNat ≤ 64 → s.cond.dl.length = 64 →
    ∃ t, execAll (xs.map .condSample) s = .next t ∧
      t = { s with cond := { t.cond with haveSeq := s.cond.haveSeq, lastSeq := s.cond.lastSeq } } ∧
      t.cond.dphase.toNat = (s.cond.dphase.toNat + xs.length) % s.cfg.decim.toNat ∧
      t.cond.dl = (xs.reverse ++ s.cond.dl).take 64 ∧
      ∀ c, chanNum c < s.cfg.nch.toNat →
        (t.cond.out.get c).length =
          (s.cond.out.get c).length + (s.cond.dphase.toNat + xs.length) / s.cfg.decim.toNat ∧
        (∃ new, t.cond.out.get c = s.cond.out.get c ++ new) ∧
        (1 ≤ rotlen s.cfg c → rotlen s.cfg c ≤ 64 → (s.cond.rotidx.get c).toNat < rotlen s.cfg c →
          (t.cond.rotidx.get c).toNat =
            ((s.cond.rotidx.get c).toNat + (s.cond.dphase.toNat + xs.length) / s.cfg.decim.toNat)
              % rotlen s.cfg c)

/-- With the reset configuration of the conditioner it is the identity on every active channel
(40_conditioner.md R139). -/
def Obligations.ResetConditionerIsTheIdentity : Prop :=
  ∀ (xs : List Sample) (s : State),
    s.cfg.decim = 1#7 → s.cfg.ntaps = 1#7 → s.cfg.shCond = 14#5 → s.cfg.rotlen0 = 1#7 →
    s.cfg.rotlen1 = 1#7 → s.cond.dphase = 0#7 → (∀ c, s.cond.rotidx.get c = 0#6) →
    (∀ c, Memory.read s.coef (0x100 + 64 * chanNum c) = 0x00004000#32 ∧
      Memory.read s.coef (0x200 + 64 * chanNum c) = 0x00004000#32) →
    ∃ t, execAll (xs.map .condSample) s = .next t ∧
      ∀ c, chanNum c < s.cfg.nch.toNat → t.cond.out.get c = s.cond.out.get c ++ xs

/-! ### The demodulator bank -/

/-- DEM.NCOH (41_demodulator.md R152): the discriminator term enters the ring exactly, the previous
sample is replaced, and one element goes out whose soft value is the ring's sum shifted and clipped to
±32767, value 1 exactly where that is positive (30_encoding.md R107). Nothing else changes. -/
def Obligations.NcohDiscriminates : Prop :=
  ∀ (c : Chan) (z : Sample) (s : State), ∃ (d : BitVec 32) (e : BitVec 16),
    let k := (s.kern.get c).ncoh
    let sum := d.toInt + k.dring.r0.toInt + k.dring.r1.toInt + k.dring.r2.toInt + k.dring.r3.toInt
    d.toInt = z.q.toInt * k.zp.i.toInt - z.i.toInt * k.zp.q.toInt ∧
    softOf e = clip (-32767) 32767 (roundShift sum s.cfg.shDem0.toNat) ∧
    (e.getLsbD 15 = true ↔ 0 < softOf e) ∧
    exec (.demNcoh c z) s = .next ((s.setKern c { s.kern.get c with
        ncoh := { zp := z, dring := ⟨d, k.dring.r0, k.dring.r1, k.dring.r2, k.dring.r3⟩ } }).setPipe c .ncoh
          { s.pipe.get c .ncoh with sym := (s.pipe.get c .ncoh).sym ++ [e] })

/-- DEM.COH (41_demodulator.md R155): the phase moves COH_STEP toward the sign of the phase error, modulo
64, and the amplitude, signed by it, enters the ring; one element goes out, value 1 exactly where its soft
value is positive (30_encoding.md R107). Nothing else changes. The table entry is named by `rotAt` (R154),
which RotTableIsTheSpecs states. -/
def Obligations.CohTracksThePhase : Prop :=
  ∀ (c : Chan) (z : Sample) (s : State), ∃ (u e : BitVec 16) (th : BitVec 6),
    let k := (s.kern.get c).coh
    let err := z.q.toInt * (rotAt k.theta).1 - z.i.toInt * (rotAt k.theta).2
    let es : Int := if 0 < err then 1 else if err < 0 then -1 else 0
    let sum := u.toInt + k.uring.r0.toInt + k.uring.r1.toInt + k.uring.r2.toInt + k.uring.r3.toInt
    (th.toNat : Int) = ((k.theta.toNat : Int) + es * (s.cfg.cohStep.toNat : Int)) % 64 ∧
    u.toInt = es * ((min ((z.i.toInt.natAbs + z.q.toInt.natAbs) / 2) 32767 : Nat) : Int) ∧
    softOf e = clip (-32767) 32767 (roundShift sum s.cfg.shDem1.toNat) ∧
    (e.getLsbD 15 = true ↔ 0 < softOf e) ∧
    exec (.demCoh c z) s = .next ((s.setKern c { s.kern.get c with
        coh := { theta := th, uring := ⟨u, k.uring.r0, k.uring.r1, k.uring.r2, k.uring.r3⟩ } }).setPipe c .coh
          { s.pipe.get c .coh with sym := (s.pipe.get c .coh).sym ++ [e] })

/-- The table ROT64 (41_demodulator.md R154): its first quarter of a turn entry by entry, and the two
symmetries that give the rest. -/
def Obligations.RotTableIsTheSpecs : Prop :=
  (List.range 16).map (fun i => rotAt (BitVec.ofNat 6 i)) =
    [(16384, 0), (16305, 1606), (16069, 3196), (15679, 4756), (15137, 6270), (14449, 7723),
     (13623, 9102), (12665, 10394), (11585, 11585), (10394, 12665), (9102, 13623), (7723, 14449),
     (6270, 15137), (4756, 15679), (3196, 16069), (1606, 16305)] ∧
  ∀ i : BitVec 6,
    rotAt (i + 16#6) = (-(rotAt i).2, (rotAt i).1) ∧ rotAt (i + 32#6) = (-(rotAt i).1, -(rotAt i).2)

/-- DEM.CHAL (41_demodulator.md R158): the three hypotheses and their leaky means, the means staying in
±32767, and the output the hypothesis whose new mean is nearest zero, ties to the lower number, value 1
exactly where it is positive (30_encoding.md R107). Nothing else changes. The premises on `dc` are the
invariant StepKeepsDatapathRanges. -/
def Obligations.ChalPicksTheNearestMean : Prop :=
  ∀ (c : Chan) (z : Sample) (s : State), KernelRanges (s.kern.get c) →
    ∃ (d : BitVec 32) (m0 m1 m2 e : BitVec 16),
    let k := (s.kern.get c).chal
    let sum := d.toInt + k.dring.r0.toInt + k.dring.r1.toInt + k.dring.r2.toInt + k.dring.r3.toInt
    let base := roundShift sum s.cfg.shDem2.toNat
    let offs : Int := s.cfg.chalOffs.toNat
    let h0 := clip (-32767) 32767 (base + offs)
    let h1 := clip (-32767) 32767 base
    let h2 := clip (-32767) 32767 (base - offs)
    let g := 2 ^ s.cfg.chalDcsh.toNat
    d.toInt = z.q.toInt * k.zp.i.toInt - z.i.toInt * k.zp.q.toInt ∧
    m0.toInt = k.dc0.toInt + (h0 - k.dc0.toInt) / g ∧
    m1.toInt = k.dc1.toInt + (h1 - k.dc1.toInt) / g ∧
    m2.toInt = k.dc2.toInt + (h2 - k.dc2.toInt) / g ∧
    m0.toInt.natAbs ≤ 32767 ∧ m1.toInt.natAbs ≤ 32767 ∧ m2.toInt.natAbs ≤ 32767 ∧
    (m0.toInt.natAbs ≤ m1.toInt.natAbs → m0.toInt.natAbs ≤ m2.toInt.natAbs → softOf e = h0) ∧
    (m1.toInt.natAbs < m0.toInt.natAbs → m1.toInt.natAbs ≤ m2.toInt.natAbs → softOf e = h1) ∧
    (m2.toInt.natAbs < m0.toInt.natAbs → m2.toInt.natAbs < m1.toInt.natAbs → softOf e = h2) ∧
    (e.getLsbD 15 = true ↔ 0 < softOf e) ∧
    exec (.demChal c z) s = .next ((s.setKern c { s.kern.get c with
        chal := { zp := z, dring := ⟨d, k.dring.r0, k.dring.r1, k.dring.r2, k.dring.r3⟩,
                  dc0 := m0, dc1 := m1, dc2 := m2 } }).setPipe c .chal
          { s.pipe.get c .chal with sym := (s.pipe.get c .chal).sym ++ [e] })

/-! ### The Bit Synchronizer -/

/-- SYN.STEP on a call that is not a strobe (42_synchroniser.md R172, R177): `tcnt` rises by 16 and the
history shifts; nothing else changes and no bit goes out. -/
def Obligations.SynStepBetweenStrobes : Prop :=
  ∀ (c : Chan) (v : Variant) (e : BitVec 16) (s : State),
    (s.pipe.get c v).syn.tcnt.toInt + 16 < 80 →
    ∃ (t : BitVec 8) (x : BitVec 16),
      t.toInt = (s.pipe.get c v).syn.tcnt.toInt + 16 ∧ x.toInt = softOf e ∧
      exec (.synStep c v e) s = .next (s.setPipe c v { s.pipe.get c v with
        syn := { (s.pipe.get c v).syn with tcnt := t, h1 := x, h2 := (s.pipe.get c v).syn.h1 } })

/-- SYN.STEP on a strobe (42_synchroniser.md R172 to R176): the early/late correction of `tcnt`, the
history, one raw bit if and only if the state was LOCKED (1 if the decision sample is positive, else 0),
and the transition table of R176 with its side effects. Nothing else changes. -/
def Obligations.SynStepOnAStrobe : Prop :=
  ∀ (c : Chan) (v : Variant) (e : BitVec 16) (s : State),
    80 ≤ (s.pipe.get c v).syn.tcnt.toInt + 16 →
    ∃ t, exec (.synStep c v e) s = .next t ∧
      t = s.setPipe c v { s.pipe.get c v with
        syn := (t.pipe.get c v).syn, raw := (t.pipe.get c v).raw
        cnt := { (s.pipe.get c v).cnt with
          locks := (t.pipe.get c v).cnt.locks, unlocks := (t.pipe.get c v).cnt.unlocks } } ∧
      let a := (s.pipe.get c v).syn
      let b := (t.pipe.get c v).syn
      let late := softOf e
      let on := a.h1.toInt
      let early := a.h2.toInt
      let ted : Int := if early.natAbs < late.natAbs then 1 else if late.natAbs < early.natAbs then -1 else 0
      let sig : Prop := s.cfg.thSig.toNat ≤ on.natAbs
      let pe : Prop := sig ∧ (early * on < 0 ∨ late * on < 0)
      let lk := (s.pipe.get c v).cnt.locks
      let ul := (s.pipe.get c v).cnt.unlocks
      b.tcnt.toInt = a.tcnt.toInt + 16 - 80 - (s.cfg.tgain.toNat : Int) * ted ∧
      b.h1.toInt = late ∧ b.h2 = a.h1 ∧
      (t.pipe.get c v).raw =
        (s.pipe.get c v).raw ++ (if a.sstate = .locked then [decide (0 < on)] else []) ∧
      (a.sstate = .unlocked →
        (¬sig → b.sstate = .unlocked ∧ b.good = a.good) ∧
        (sig → b.sstate = .acquiring ∧ (pe → b.good = 0#8) ∧ (¬pe → b.good = 1#8)) ∧
        b.err = a.err ∧ b.sil = a.sil ∧
        (t.pipe.get c v).cnt.locks = lk ∧ (t.pipe.get c v).cnt.unlocks = ul) ∧
      (a.sstate = .acquiring →
        (¬sig → b.sstate = .unlocked ∧ b.good = a.good) ∧
        (sig → (pe → b.good.toNat = 0) ∧ (¬pe → b.good.toNat = min (a.good.toNat + 1) 255) ∧
          (b.good.toNat < s.cfg.nLock.toNat → b.sstate = .acquiring) ∧
          (s.cfg.nLock.toNat ≤ b.good.toNat → b.sstate = .locked)) ∧
        (b.sstate = .locked → b.err = 0#8 ∧ b.sil = 0#8 ∧ (t.pipe.get c v).cnt.locks = oneMore lk) ∧
        (b.sstate ≠ .locked → b.err = a.err ∧ b.sil = a.sil ∧ (t.pipe.get c v).cnt.locks = lk) ∧
        (t.pipe.get c v).cnt.unlocks = ul) ∧
      (a.sstate = .locked →
        b.good = a.good ∧ (t.pipe.get c v).cnt.locks = lk ∧
        (sig → b.sil.toNat = 0) ∧ (¬sig → b.sil.toNat = min (a.sil.toNat + 1) 255) ∧
        (pe → b.err.toNat = min (a.err.toNat + s.cfg.errInc.toNat) 255) ∧
        (¬pe → b.err.toNat = a.err.toNat - 1) ∧
        ((s.cfg.errMax.toNat ≤ b.err.toNat ∨ s.cfg.nSil.toNat ≤ b.sil.toNat) →
          b.sstate = .unlocked ∧ (t.pipe.get c v).cnt.unlocks = oneMore ul) ∧
        (¬(s.cfg.errMax.toNat ≤ b.err.toNat ∨ s.cfg.nSil.toNat ≤ b.sil.toNat) →
          b.sstate = .locked ∧ (t.pipe.get c v).cnt.unlocks = ul))

/-! ### The Link Deframer -/

/-- NRZI.BIT (43_deframer.md R191): the decoded bit is the XOR of the raw bit, the previous raw bit and
NRZI_INV, the raw bit becomes the previous one and nothing else changes; so what a transmitter encodes with
either polarity, NRZI.BIT decodes. The value of the previous raw bit at reset (10_state.md R50) is stated by
ResetValuesAreTheSpecs. -/
def Obligations.NrziUndoesItsEncoding : Prop :=
  (∀ (c : Chan) (v : Variant) (r : Bool) (s : State),
    exec (.nrziBit c v r) s = .next (s.setPipe c v { s.pipe.get c v with
      dfr := { (s.pipe.get c v).dfr with prevRaw := r }
      dec := (s.pipe.get c v).dec ++
        [(r ^^ (s.pipe.get c v).dfr.prevRaw) ^^ s.cfg.nrziInv.getLsbD 0] })) ∧
  ∀ (c : Chan) (v : Variant) (ds : List Bool) (s : State),
    ∃ t, execAll ((nrziEncode (s.cfg.nrziInv.getLsbD 0) (s.pipe.get c v).dfr.prevRaw ds).map
        (.nrziBit c v)) s = .next t ∧
      (t.pipe.get c v).dec = (s.pipe.get c v).dec ++ ds ∧
      t = s.setPipe c v { s.pipe.get c v with
        dfr := { (s.pipe.get c v).dfr with prevRaw := (t.pipe.get c v).dfr.prevRaw }
        dec := (s.pipe.get c v).dec ++ ds }

/-- HDLC.BIT class by class (43_deframer.md R193 to R198, R200, R201, the table R204), where `p` is the
number of 1s just before the bit: DATA bits are stored in FILL or overflow the buffer, SIX, STUFF and
IDLE0 do nothing, ABORT ends a frame in progress; SEARCH stores nothing. The run counter follows R194.
FLAG is FlagAppliesTheLengthRule. Nothing else changes. -/
def Obligations.HdlcBitClassByClass : Prop :=
  ∀ (c : Chan) (v : Variant) (d : Bool) (s : State), ∃ t, exec (.hdlcBit c v d) s = .next t ∧
    let a := (s.pipe.get c v).dfr
    let b := (t.pipe.get c v).dfr
    let k := (s.pipe.get c v).cnt
    let k' := (t.pipe.get c v).cnt
    let p := if a.runBit then a.runLen.toNat else 0
    let cand := (s.pipe.get c v).cand
    let cand' := (t.pipe.get c v).cand
    t = s.setPipe c v { s.pipe.get c v with dfr := b, cnt := k', cand := cand' } ∧
    b.prevRaw = a.prevRaw ∧ b.runBit = d ∧
    b.runLen.toNat = (if d = a.runBit ∧ 0 < a.runLen.toNat then min (a.runLen.toNat + 1) 7 else 1) ∧
    (a.fstate = .fill → p ≤ 4 → a.flen.toNat < 1030 →
      b.fstate = .fill ∧ b.flen.toNat = a.flen.toNat + 1 ∧ b.fbuf.getLsbD a.flen.toNat = d ∧
      (∀ i, i ≠ a.flen.toNat → b.fbuf.getLsbD i = a.fbuf.getLsbD i) ∧ k' = k ∧ cand' = cand) ∧
    (a.fstate = .fill → p ≤ 4 → 1030 ≤ a.flen.toNat →
      b.fstate = .search ∧ b.flen = 0#11 ∧ b.fbuf = a.fbuf ∧
      k' = { k with malformed := oneMore k.malformed } ∧ cand' = cand) ∧
    (a.fstate = .fill → d = true → 6 ≤ p →
      b.fstate = .search ∧ b.flen = 0#11 ∧ b.fbuf = a.fbuf ∧
      k' = { k with aborts := oneMore k.aborts } ∧ cand' = cand) ∧
    ((p = 5 ∨ (d = false ∧ p = 7) ∨ (a.fstate = .search ∧ ¬(d = false ∧ p = 6))) →
      b.fstate = a.fstate ∧ b.flen = a.flen ∧ b.fbuf = a.fbuf ∧ k' = k ∧ cand' = cand)

/-- FLAG (43_deframer.md R199): the 0 after exactly six 1s leaves FILL with an empty buffer. In SEARCH
that is all. In FILL the six stored delimiter bits are cut off: nothing left is fill, a length that breaks
the rule is MALFORMED, any other is a CandidateFrame with the pipeline's channel, variant and
`samp_cnt`. -/
def Obligations.FlagAppliesTheLengthRule : Prop :=
  ∀ (c : Chan) (v : Variant) (s : State),
    (s.pipe.get c v).dfr.runBit = true → (s.pipe.get c v).dfr.runLen = 6#3 →
    ∃ t, exec (.hdlcBit c v false) s = .next t ∧
      let a := (s.pipe.get c v).dfr
      let k := (s.pipe.get c v).cnt
      let k' := (t.pipe.get c v).cnt
      let cand := (s.pipe.get c v).cand
      let cand' := (t.pipe.get c v).cand
      let n := a.flen.toNat - 6
      let good := 24 ≤ n ∧ n % 8 = 0 ∧ n - 16 ≤ 1008 ∧ (s.cfg.sixbitCheck = 1#1 → (n - 16) % 6 = 0)
      t = s.setPipe c v { s.pipe.get c v with
        dfr := { a with fstate := .fill, flen := 0#11, runBit := false, runLen := 1#3 }
        cnt := k', cand := cand' } ∧
      ((a.fstate = .search ∨ n = 0) → k' = k ∧ cand' = cand) ∧
      (a.fstate = .fill → n ≠ 0 → ¬good →
        k' = { k with malformed := oneMore k.malformed } ∧ cand' = cand) ∧
      (a.fstate = .fill → good →
        k' = { k with framesAttempted := oneMore k.framesAttempted } ∧
        cand' = cand ++ [{ bits := (List.range n).map fun i => a.fbuf.getLsbD i,
                           chan := c, var := v, ts := (s.pipe.get c v).sampCnt }])

/-- Every frame a transmitter stuffs and delimits comes out of the deframer as it went in (43_deframer.md
R193 to R201; 95_test_vectors.md, `stuff`): from a deframer that has just seen a delimiter, the stuffed
bits of a frame of legal length and a closing delimiter give exactly that CandidateFrame, one
FRAMES_ATTEMPTED and nothing else, and the delimiter opens the next frame. -/
def Obligations.DeframerRecoversEveryStuffedFrame : Prop :=
  ∀ (c : Chan) (v : Variant) (bits : List Bool) (s : State),
    (s.pipe.get c v).dfr.fstate = .fill → (s.pipe.get c v).dfr.flen = 0#11 →
    (s.pipe.get c v).dfr.runBit = false →
    24 ≤ bits.length → bits.length ≤ 1024 → bits.length % 8 = 0 →
    (s.cfg.sixbitCheck = 1#1 → (bits.length - 16) % 6 = 0) →
    ∃ t, execAll ((stuffFrom 0 bits ++ delimiter).map (.hdlcBit c v)) s = .next t ∧
      t = s.setPipe c v { s.pipe.get c v with
        dfr := (t.pipe.get c v).dfr
        cnt := { (s.pipe.get c v).cnt with
          framesAttempted := oneMore (s.pipe.get c v).cnt.framesAttempted }
        cand := (s.pipe.get c v).cand ++
          [{ bits := bits, chan := c, var := v, ts := (s.pipe.get c v).sampCnt }] } ∧
      (t.pipe.get c v).dfr.fstate = .fill ∧ (t.pipe.get c v).dfr.flen = 0#11 ∧
      (t.pipe.get c v).dfr.runBit = false

/-! ### The Frame Validator -/

/-- VAL.FRAME (44_validator.md R221, R222, R224, R228): exactly one of MALFORMED, CRC_FAIL and
FRAMES_VALID of the frame's pipeline moves; a valid frame's record joins OF, or is lost with Overrun where
OF is full; nothing else changes. -/
def Obligations.ValFrameCountsAndDelivers : Prop :=
  ∀ (f : CandFrame) (s : State),
    let n := f.bits.length
    let p := s.pipe.get f.chan f.var
    let bad := n < 24 ∨ n % 8 ≠ 0 ∨ 1024 < n
    let ok := fcs16 (f.bits.take (n - 16)) = f.bits.drop (n - 16)
    let valid := s.setPipe f.chan f.var
      { p with cnt := { p.cnt with framesValid := oneMore p.cnt.framesValid } }
    (bad → exec (.valFrame f) s = .next (s.setPipe f.chan f.var
      { p with cnt := { p.cnt with malformed := oneMore p.cnt.malformed } })) ∧
    (¬bad → ¬ok → exec (.valFrame f) s = .next (s.setPipe f.chan f.var
      { p with cnt := { p.cnt with crcFail := oneMore p.cnt.crcFail } })) ∧
    (¬bad → ok → (∀ d, s.depths.ofDepth = some d → s.ofifo.length < d) →
      exec (.valFrame f) s = .next { valid with ofifo := s.ofifo ++ [frameRecord f] }) ∧
    (¬bad → ok → (∃ d, s.depths.ofDepth = some d ∧ d ≤ s.ofifo.length) →
      exec (.valFrame f) s = .next { valid with
        overrun := true
        glob := { s.glob with overrunDrops := oneMore s.glob.overrunDrops } })

/-- The frame record (44_validator.md R226) of a frame of legal length: its number of words, the tag, the
variant, the channel, the payload length, the CRC field as received, the timestamp, and every payload bit
in its place, zeros beyond. -/
def Obligations.FrameRecordLayout : Prop :=
  ∀ f : CandFrame, 24 ≤ f.bits.length → f.bits.length ≤ 1024 →
    let m := f.bits.length - 16
    let w := fun j => (frameRecord f)[j]?.getD 0#32
    (frameRecord f).length = 4 + (m + 31) / 32 ∧
    (w 0).extractLsb' 24 8 = 0xA5#8 ∧ (w 0).extractLsb' 16 8 = 0#8 ∧
    ((w 0).extractLsb' 8 8 : BitVec 8).toNat = varNum f.var ∧
    ((w 0).extractLsb' 0 8 : BitVec 8).toNat = chanNum f.chan ∧
    ((w 1).extractLsb' 0 16 : BitVec 16).toNat = m ∧
    (∀ i, i < 16 → some ((w 1).getLsbD (16 + i)) = f.bits[m + i]?) ∧
    w 3 ++ w 2 = f.ts ∧
    (∀ j i, i < 32 → 32 * j + i < m → some ((w (4 + j)).getLsbD i) = f.bits[32 * j + i]?) ∧
    (∀ j i, i < 32 → m ≤ 32 * j + i → (w (4 + j)).getLsbD i = false)

/-- FCS16 is the algorithm of 44_validator.md R223: a 16-bit register preset to 0xFFFF, shifted left once per
bit in order, 0x1021 XORed in where the bit differs from the register's bit 15, and the complement sent highest
bit first. The register run over payload and field together ends at 0x1D0F exactly when the field matches. -/
def Obligations.CrcResidueIsExact : Prop :=
  crcRun [] = 0xFFFF#16 ∧
  (∀ (l : List Bool) (b : Bool), (crcRun (l ++ [b])).toNat =
    if b = (crcRun l).getLsbD 15 then (crcRun l).toNat * 2 % 65536
    else ((crcRun l).toNat * 2 % 65536) ^^^ 0x1021) ∧
  (∀ l : List Bool, (fcs16 l).length = 16 ∧
    ∀ i, i < 16 → (fcs16 l)[i]? = some (!(crcRun l).getLsbD (15 - i))) ∧
  ∀ bits : List Bool, 16 ≤ bits.length →
    (fcs16 (bits.take (bits.length - 16)) = bits.drop (bits.length - 16) ↔ crcRun bits = 0x1D0F#16)

/-- A frame that passes fails with any one of its bits flipped, payload or field (44_validator.md R225
(a)). -/
def Obligations.CrcDetectsEverySingleBitError : Prop :=
  ∀ (bits : List Bool) (i : Nat) (b : Bool), 16 ≤ bits.length → bits[i]? = some b →
    fcs16 (bits.take (bits.length - 16)) = bits.drop (bits.length - 16) →
    fcs16 ((bits.set i (!b)).take (bits.length - 16)) ≠ (bits.set i (!b)).drop (bits.length - 16)

/-! ### Invariants and whole-machine rules -/

/-- The invariants hold at reset (10_state.md R50). A sanity statement. The canonical form MemoryOk and the
stream fields of StreamsEmpty are the model's choice (log entries 8, 5). -/
def Obligations.InvariantsHoldAtReset : Prop :=
  MemoryOk State.reset ∧ DatapathOk State.reset ∧ StreamsEmpty State.reset ∧ LifecycleOk State.reset ∧
    PhaseOk State.reset ∧ IdleFresh State.reset

/-- Every step keeps the coefficient memories in canonical form (10_state.md R34; log entry 8). -/
def Obligations.StepKeepsMemoryCanonical : Prop :=
  ∀ s t : State, MemoryOk s → step s = .next t → MemoryOk t

/-- Every step keeps the registers of the kernels, the synchronisers and the deframers in their ranges
(10_state.md R44 to R47, 42_synchroniser.md R173, 43_deframer.md R204) and the delay line at its 64 places. The
ranges of `dphase` and `rotidx`, which hold only under a legal configuration, are
StepKeepsConditionerPhases. -/
def Obligations.StepKeepsDatapathRanges : Prop :=
  ∀ s t : State, DatapathOk s → step s = .next t → DatapathOk t

/-- Every step leaves the internal streams empty: an element is consumed once, within the step that made
it (10_state.md R51 (d), 41_demodulator.md R151; that the streams are fields is the model's, log entry
5). -/
def Obligations.StepLeavesStreamsEmpty : Prop :=
  ∀ s t : State, StreamsEmpty s → step s = .next t → StreamsEmpty t

/-- Every step keeps the lifecycle group consistent, and the queue of an inactive pair empty (10_state.md R20,
R39, 60_exceptions.md R280, R290, 45_host_commands.md R247, R248, R249). -/
def Obligations.StepKeepsLifecycle : Prop :=
  ∀ s t : State, LifecycleOk s → step s = .next t → LifecycleOk t

/-- Every step keeps `dphase` and `rotidx` in their ranges while blocks are accepted (10_state.md R40). -/
def Obligations.StepKeepsConditionerPhases : Prop :=
  ∀ s t : State, PhaseOk s → step s = .next t → PhaseOk t

/-- In IDLE everything but the configuration, CMD_ERR, LAST_ERR, IRQ_ENABLE and the ports is as reset
left it, and every step keeps it so (45_host_commands.md R245). -/
def Obligations.StepKeepsIdleFresh : Prop :=
  ∀ s t : State, IdleFresh s → step s = .next t → IdleFresh t

/-- The lifecycle transitions are those of 60_exceptions.md R290: every step makes one of them, or is a
reset, which goes to IDLE with all state at its reset values. -/
def Obligations.LifecycleTransitionsComplete : Prop :=
  ∀ s t : State, step s = .next t → LifeStep s.life t.life ∨ ResetOf s t

/-- The configuration is frozen outside IDLE (20_memory.md R85, 70_reset_and_hazards.md R319): no step
changes it there, except a reset. -/
def Obligations.ConfigurationIsFrozen : Prop :=
  ∀ s t : State, s.life ≠ .idle → step s = .next t →
    (t.cfg = s.cfg ∧ t.coef = s.coef) ∨ ResetOf s t

/-- No step lowers a counter, except a reset (00_scope.md R15, 10_state.md R35, 70_reset_and_hazards.md
R312). -/
def Obligations.CountersNeverFall : Prop :=
  ∀ s t : State, step s = .next t → CountersLe s t ∨ ResetOf s t

/-- The step of a pipeline changes nothing outside its own group but OF, OVERRUN_DROPS and OVERRUN
(60_exceptions.md R277, 20_memory.md R82). The premise is the invariant StepLeavesStreamsEmpty. -/
def Obligations.PipelineStepIsIsolated : Prop :=
  ∀ (s t : State) (c : Chan) (v : Variant) (ms : List Move),
    StreamsEmpty s → s.script = .agent (.pipe c v) :: ms → step s = .next t →
    t = { s with
          script := ms
          kern := s.kern.set c (t.kern.get c)
          pipe := s.pipe.set c v (t.pipe.get c v)
          ofifo := t.ofifo
          overrun := t.overrun
          glob := { s.glob with overrunDrops := t.glob.overrunDrops } } ∧
    (v ≠ .ncoh → (t.kern.get c).ncoh = (s.kern.get c).ncoh) ∧
    (v ≠ .coh → (t.kern.get c).coh = (s.kern.get c).coh) ∧
    (v ≠ .chal → (t.kern.get c).chal = (s.kern.get c).chal) ∧
    ∃ new, t.ofifo = s.ofifo ++ new

/-- The order of the pipelines' steps matters to nothing but the order of their records in OF (20_memory.md
R79, 41_demodulator.md R159, 70_reset_and_hazards.md R322), OF being unbounded. Two steps in either order end
in the same state, with the same records appended, each pipeline's own in the same order. Overlapping block
steps end as the same block steps one after another do, with the same records in some order. And every
interleaving of the records that the pipelines have in their queues, each pipeline's own in order, is the
outcome of some overlap. (That block steps overlap by the sample is the model's reading, log entry 15.) -/
def Obligations.PipelineStepsCommute : Prop :=
  (∀ (s a b : State) (c d : Chan) (v w : Variant) (ms : List Move),
    StreamsEmpty s → s.depths.ofDepth = none → (c, v) ≠ (d, w) →
    stepAll 2 { s with script := [.agent (.pipe c v), .agent (.pipe d w)] ++ ms } = .next a →
    stepAll 2 { s with script := [.agent (.pipe d w), .agent (.pipe c v)] ++ ms } = .next b →
    { a with ofifo := [] } = { b with ofifo := [] } ∧
    ∃ x y, a.ofifo = s.ofifo ++ x ++ y ∧ b.ofifo = s.ofifo ++ y ++ x) ∧
  (∀ (s t : State) (order : List (Chan × Variant)) (ms : List Move),
    StreamsEmpty s → s.depths.ofDepth = none →
    step { s with script := .overlap order :: ms } = .next t →
    ∃ (turns : List (Chan × Variant)) (u : State) (x y : List (List Word)),
      stepAll turns.length
        { s with script := turns.map (fun cv => .agent (.pipe cv.1 cv.2)) ++ ms } = .next u ∧
      { t with ofifo := [] } = { u with ofifo := [] } ∧
      t.ofifo = s.ofifo ++ x ∧ u.ofifo = s.ofifo ++ y ∧ x.Perm y) ∧
  (∀ (s : State) (recs : Chan → Variant → List (List Word))
    (z : List ((Chan × Variant) × List Word)) (ms : List Move),
    StreamsEmpty s → s.depths.ofDepth = none →
    (∀ c v, ∃ t, stepAll (s.pipe.get c v).q.length { s with
        ofifo := [], script := List.replicate (s.pipe.get c v).q.length (.agent (.pipe c v)) } = .next t ∧
      t.ofifo = recs c v) →
    (∀ c v, (z.filter fun e => decide (e.1 = (c, v))).map Prod.snd = recs c v) →
    ∃ order t, step { s with script := .overlap order :: ms } = .next t ∧
      t.ofifo = s.ofifo ++ z.map Prod.snd)
end

