-- ==== Sys2Proof/Laws/Arith.lean ====
section
/-!
SUPPORT. What the arithmetic wrappers, the rings, the soft values and the counters do, once.
-/

namespace Sys2Proof.Machine

open Sys2Proof

/-! ### Saturation and rounding -/

/-- `sat` clips. -/
theorem sat_eq_clip (v lo hi : Int) (h : lo ≤ hi) : sat v lo hi = clip lo hi v := by
  unfold sat clip
  split
  · omega
  · split <;> omega

theorem sat16_eq_clip (v : Int) : sat16 v = clip (-32768) 32767 v := sat_eq_clip _ _ _ (by omega)

theorem satsoft_eq_clip (v : Int) : satsoft v = clip (-32767) 32767 v := sat_eq_clip _ _ _ (by omega)

theorem sat16_bounds (v : Int) : -32768 ≤ sat16 v ∧ sat16 v ≤ 32767 := by
  rw [sat16_eq_clip]; unfold clip; omega

theorem satsoft_bounds (v : Int) : -32767 ≤ satsoft v ∧ satsoft v ≤ 32767 := by
  rw [satsoft_eq_clip]; unfold clip; omega

/-- A value in range is left alone. -/
theorem sat16_of_range {v : Int} (h : -32768 ≤ v) (h' : v ≤ 32767) : sat16 v = v := by
  rw [sat16_eq_clip]; unfold clip; omega

theorem rndShr_eq (a : Int) (n : Nat) : rndShr a n = roundShift a n := rfl

theorem absI_eq (v : Int) : absI v = (v.natAbs : Int) := by unfold absI; split <;> omega

theorem sgn_bounds (v : Int) : -1 ≤ sgn v ∧ sgn v ≤ 1 := by
  unfold sgn; split
  · omega
  · split <;> omega

/-! ### Signed registers -/

/-- A value of the register's range is stored exactly. -/
theorem toInt_ofInt16 {v : Int} (h : -32768 ≤ v) (h' : v ≤ 32767) : (BitVec.ofInt 16 v).toInt = v :=
  BitVec.toInt_ofInt_eq_self (by omega) (by omega) (by omega)

theorem toInt_ofInt8 {v : Int} (h : -128 ≤ v) (h' : v ≤ 127) : (BitVec.ofInt 8 v).toInt = v :=
  BitVec.toInt_ofInt_eq_self (by omega) (by omega) (by omega)

theorem toInt_ofInt32 {v : Int} (h : -2147483648 ≤ v) (h' : v ≤ 2147483647) : (BitVec.ofInt 32 v).toInt = v :=
  BitVec.toInt_ofInt_eq_self (by omega) (by omega) (by omega)

theorem toInt16_bounds (b : BitVec 16) : -32768 ≤ b.toInt ∧ b.toInt ≤ 32767 := by
  have h := BitVec.le_toInt b
  have h' := BitVec.toInt_lt (x := b)
  omega

/-- The saturated components of a sample are stored exactly. -/
theorem satSample_i (i q : Int) : (satSample i q).i.toInt = sat16 i :=
  toInt_ofInt16 (sat16_bounds i).1 (sat16_bounds i).2

theorem satSample_q (i q : Int) : (satSample i q).q.toInt = sat16 q :=
  toInt_ofInt16 (sat16_bounds q).1 (sat16_bounds q).2

/-! ### Counters -/

theorem incWord_eq (w : Word) : incWord w = oneMore w := rfl

theorem oneMore_toNat (w : Word) : (oneMore w).toNat = min (w.toNat + 1) 4294967295 := by
  unfold oneMore
  rw [BitVec.toNat_ofNat]
  omega

theorem incWord_toNat (w : Word) : (incWord w).toNat = min (w.toNat + 1) 4294967295 := oneMore_toNat w

/-- A counter does not fall. -/
theorem le_incWord (w : Word) : w.toNat ≤ (incWord w).toNat := by
  rw [incWord_toNat]
  have := w.isLt
  omega

theorem addSat8_toNat (a : BitVec 8) (n : Nat) : (addSat8 a n).toNat = min (a.toNat + n) 255 := by
  unfold addSat8
  rw [BitVec.toNat_ofNat]
  omega

theorem decSat8_toNat (a : BitVec 8) : (decSat8 a).toNat = a.toNat - 1 := by
  unfold decSat8
  have := a.isLt
  rw [BitVec.toNat_ofNat]
  omega

/-! ### Rings -/

@[simp] theorem push_r0 {n : Nat} (r : Ring n) (x : Int) : (r.push x).r0 = BitVec.ofInt n x := rfl
@[simp] theorem push_r1 {n : Nat} (r : Ring n) (x : Int) : (r.push x).r1 = r.r0 := rfl
@[simp] theorem push_r2 {n : Nat} (r : Ring n) (x : Int) : (r.push x).r2 = r.r1 := rfl
@[simp] theorem push_r3 {n : Nat} (r : Ring n) (x : Int) : (r.push x).r3 = r.r2 := rfl
@[simp] theorem push_r4 {n : Nat} (r : Ring n) (x : Int) : (r.push x).r4 = r.r3 := rfl

/-! ### Soft values -/

/-- A soft value is in the range of its 15-bit confidence. -/
theorem softOf_bounds (e : BitVec 16) : -32767 ≤ softOf e ∧ softOf e ≤ 32767 := by
  have h := (e.extractLsb' 0 15 : BitVec 15).isLt
  unfold softOf
  split <;> simp only [] <;> omega

/-- A soft value survives its coding (30_encoding.md R107). -/
theorem softOf_symOf {x : Int} (h : -32767 ≤ x) (h' : x ≤ 32767) : softOf (symOf x) = x := by
  unfold softOf symOf
  split
  · have e : (1#1 ++ BitVec.ofInt 15 x).extractLsb' 0 15 = BitVec.ofInt 15 x := by
      rw [BitVec.extractLsb'_append_eq_right]
    have g : (1#1 ++ BitVec.ofInt 15 x).getLsbD 15 = true := by
      rw [BitVec.getLsbD_append]; simp
    simp only [e, g, if_true, BitVec.toNat_ofInt]
    omega
  · have e : (0#1 ++ BitVec.ofInt 15 (-x)).extractLsb' 0 15 = BitVec.ofInt 15 (-x) := by
      rw [BitVec.extractLsb'_append_eq_right]
    have g : (0#1 ++ BitVec.ofInt 15 (-x)).getLsbD 15 = false := by
      rw [BitVec.getLsbD_append]; simp
    simp only [e, g, Bool.false_eq_true, if_false, BitVec.toNat_ofInt]
    omega

theorem softOf_symOf_satsoft (x : Int) : softOf (symOf (satsoft x)) = clip (-32767) 32767 x := by
  rw [softOf_symOf (satsoft_bounds x).1 (satsoft_bounds x).2, satsoft_eq_clip]

/-- A product of two components. -/
theorem mul16_bounds (a b : BitVec 16) :
    -1073709056 ≤ a.toInt * b.toInt ∧ a.toInt * b.toInt ≤ 1073741824 := by
  have ha := toInt16_bounds a
  have hb := toInt16_bounds b
  constructor
  · by_cases h0 : 0 ≤ a.toInt
    · have := Int.mul_le_mul_of_nonneg_left hb.1 h0
      omega
    · have := Int.mul_le_mul_of_nonpos_left (a := a.toInt) (by omega) hb.2
      omega
  · by_cases h0 : 0 ≤ a.toInt
    · have := Int.mul_le_mul_of_nonneg_left hb.2 h0
      omega
    · have := Int.mul_le_mul_of_nonpos_left (a := a.toInt) (by omega) hb.1
      omega

/-- The discriminator term fits its 32-bit register (10_state.md R43). -/
theorem discr_exact (z zp : Sample) : (BitVec.ofInt 32 (discr z zp)).toInt = discr z zp := by
  have h1 := mul16_bounds z.q zp.i
  have h2 := mul16_bounds z.i zp.q
  unfold discr
  exact toInt_ofInt32 (by omega) (by omega)

end Sys2Proof.Machine
end

