-- ==== Sys2Proof/Laws/State.lean ====
section
/-!
SUPPORT. The small lemmas of the state: get and set of the replicated groups, and one lemma per field per
update, so that no proof unfolds a record update.
-/

namespace Sys2Proof.Machine

open Sys2Proof

/-! ### Get and set -/

@[simp] theorem PerChan.get_set_same {α : Type} (x : PerChan α) (c : Chan) (a : α) :
    (x.set c a).get c = a := by cases c <;> rfl

theorem PerChan.get_set_other {α : Type} (x : PerChan α) {c d : Chan} (a : α) (h : d ≠ c) :
    (x.set c a).get d = x.get d := by cases c <;> cases d <;> first | rfl | exact absurd rfl h

@[simp] theorem PerPipe.get_set_same {α : Type} (x : PerPipe α) (c : Chan) (v : Variant) (a : α) :
    (x.set c v a).get c v = a := by cases c <;> cases v <;> rfl

theorem PerPipe.get_set_other {α : Type} (x : PerPipe α) {c d : Chan} {v w : Variant} (a : α)
    (h : (d, w) ≠ (c, v)) : (x.set c v a).get d w = x.get d w := by
  cases c <;> cases v <;> cases d <;> cases w <;> first | rfl | exact absurd rfl h

@[simp] theorem PerPipe.get_map {α β : Type} (f : α → β) (x : PerPipe α) (c : Chan) (v : Variant) :
    (x.map f).get c v = f (x.get c v) := by cases c <;> cases v <;> rfl

@[simp] theorem PerPipe.get_all {α : Type} (a : α) (c : Chan) (v : Variant) :
    (PerPipe.all a).get c v = a := by cases c <;> cases v <;> rfl

@[simp] theorem PerPipe.set_set {α : Type} (x : PerPipe α) (c : Chan) (v : Variant) (a b : α) :
    (x.set c v a).set c v b = x.set c v b := by cases c <;> cases v <;> rfl

@[simp] theorem PerPipe.set_get {α : Type} (x : PerPipe α) (c : Chan) (v : Variant) :
    x.set c v (x.get c v) = x := by cases c <;> cases v <;> rfl

@[simp] theorem PerChan.set_set {α : Type} (x : PerChan α) (c : Chan) (a b : α) :
    (x.set c a).set c b = x.set c b := by cases c <;> rfl

@[simp] theorem PerChan.set_get {α : Type} (x : PerChan α) (c : Chan) : x.set c (x.get c) = x := by
  cases c <;> rfl

/-- Two replicated groups with the same values are equal. -/
theorem PerPipe.ext_get {α : Type} {x y : PerPipe α} (h : ∀ c v, x.get c v = y.get c v) : x = y := by
  have h1 := h .ch0 .ncoh
  have h2 := h .ch0 .coh
  have h3 := h .ch0 .chal
  have h4 := h .ch1 .ncoh
  have h5 := h .ch1 .coh
  have h6 := h .ch1 .chal
  cases x
  cases y
  simp_all [PerPipe.get]

/-- Two groups with the same value per channel are equal. -/
theorem PerChan.ext_get {α : Type} {x y : PerChan α} (h : ∀ c, x.get c = y.get c) : x = y := by
  have h1 := h .ch0
  have h2 := h .ch1
  cases x
  cases y
  simp_all [PerChan.get]

/-! ### `setPipe` -/

@[simp] theorem setPipe_life (s : State) (c : Chan) (v : Variant) (p : Pipe) :
    (s.setPipe c v p).life = s.life := rfl

@[simp] theorem setPipe_shutdownLatch (s : State) (c : Chan) (v : Variant) (p : Pipe) :
    (s.setPipe c v p).shutdownLatch = s.shutdownLatch := rfl

@[simp] theorem setPipe_fatalCause (s : State) (c : Chan) (v : Variant) (p : Pipe) :
    (s.setPipe c v p).fatalCause = s.fatalCause := rfl

@[simp] theorem setPipe_lastErr (s : State) (c : Chan) (v : Variant) (p : Pipe) :
    (s.setPipe c v p).lastErr = s.lastErr := rfl

@[simp] theorem setPipe_blkErr (s : State) (c : Chan) (v : Variant) (p : Pipe) :
    (s.setPipe c v p).blkErr = s.blkErr := rfl

@[simp] theorem setPipe_overrun (s : State) (c : Chan) (v : Variant) (p : Pipe) :
    (s.setPipe c v p).overrun = s.overrun := rfl

@[simp] theorem setPipe_irqEnable (s : State) (c : Chan) (v : Variant) (p : Pipe) :
    (s.setPipe c v p).irqEnable = s.irqEnable := rfl

@[simp] theorem setPipe_cfg (s : State) (c : Chan) (v : Variant) (p : Pipe) :
    (s.setPipe c v p).cfg = s.cfg := rfl

@[simp] theorem setPipe_coef (s : State) (c : Chan) (v : Variant) (p : Pipe) :
    (s.setPipe c v p).coef = s.coef := rfl

@[simp] theorem setPipe_glob (s : State) (c : Chan) (v : Variant) (p : Pipe) :
    (s.setPipe c v p).glob = s.glob := rfl

@[simp] theorem setPipe_cond (s : State) (c : Chan) (v : Variant) (p : Pipe) :
    (s.setPipe c v p).cond = s.cond := rfl

@[simp] theorem setPipe_kern (s : State) (c : Chan) (v : Variant) (p : Pipe) :
    (s.setPipe c v p).kern = s.kern := rfl

@[simp] theorem setPipe_pipe (s : State) (c : Chan) (v : Variant) (p : Pipe) :
    (s.setPipe c v p).pipe = s.pipe.set c v p := rfl

@[simp] theorem setPipe_cmd (s : State) (c : Chan) (v : Variant) (p : Pipe) :
    (s.setPipe c v p).cmd = s.cmd := rfl

@[simp] theorem setPipe_cmdPart (s : State) (c : Chan) (v : Variant) (p : Pipe) :
    (s.setPipe c v p).cmdPart = s.cmdPart := rfl

@[simp] theorem setPipe_rsp (s : State) (c : Chan) (v : Variant) (p : Pipe) :
    (s.setPipe c v p).rsp = s.rsp := rfl

@[simp] theorem setPipe_ofifo (s : State) (c : Chan) (v : Variant) (p : Pipe) :
    (s.setPipe c v p).ofifo = s.ofifo := rfl

@[simp] theorem setPipe_shutdownReq (s : State) (c : Chan) (v : Variant) (p : Pipe) :
    (s.setPipe c v p).shutdownReq = s.shutdownReq := rfl

@[simp] theorem setPipe_depths (s : State) (c : Chan) (v : Variant) (p : Pipe) :
    (s.setPipe c v p).depths = s.depths := rfl

@[simp] theorem setPipe_script (s : State) (c : Chan) (v : Variant) (p : Pipe) :
    (s.setPipe c v p).script = s.script := rfl

@[simp] theorem setPipe_tick (s : State) (c : Chan) (v : Variant) (p : Pipe) :
    (s.setPipe c v p).tick = s.tick := rfl


/-! ### `setKern` -/

@[simp] theorem setKern_life (s : State) (c : Chan) (k : Kernels) :
    (s.setKern c k).life = s.life := rfl

@[simp] theorem setKern_shutdownLatch (s : State) (c : Chan) (k : Kernels) :
    (s.setKern c k).shutdownLatch = s.shutdownLatch := rfl

@[simp] theorem setKern_fatalCause (s : State) (c : Chan) (k : Kernels) :
    (s.setKern c k).fatalCause = s.fatalCause := rfl

@[simp] theorem setKern_lastErr (s : State) (c : Chan) (k : Kernels) :
    (s.setKern c k).lastErr = s.lastErr := rfl

@[simp] theorem setKern_blkErr (s : State) (c : Chan) (k : Kernels) :
    (s.setKern c k).blkErr = s.blkErr := rfl

@[simp] theorem setKern_overrun (s : State) (c : Chan) (k : Kernels) :
    (s.setKern c k).overrun = s.overrun := rfl

@[simp] theorem setKern_irqEnable (s : State) (c : Chan) (k : Kernels) :
    (s.setKern c k).irqEnable = s.irqEnable := rfl

@[simp] theorem setKern_cfg (s : State) (c : Chan) (k : Kernels) :
    (s.setKern c k).cfg = s.cfg := rfl

@[simp] theorem setKern_coef (s : State) (c : Chan) (k : Kernels) :
    (s.setKern c k).coef = s.coef := rfl

@[simp] theorem setKern_glob (s : State) (c : Chan) (k : Kernels) :
    (s.setKern c k).glob = s.glob := rfl

@[simp] theorem setKern_cond (s : State) (c : Chan) (k : Kernels) :
    (s.setKern c k).cond = s.cond := rfl

@[simp] theorem setKern_kern (s : State) (c : Chan) (k : Kernels) :
    (s.setKern c k).kern = s.kern.set c k := rfl

@[simp] theorem setKern_pipe (s : State) (c : Chan) (k : Kernels) :
    (s.setKern c k).pipe = s.pipe := rfl

@[simp] theorem setKern_cmd (s : State) (c : Chan) (k : Kernels) :
    (s.setKern c k).cmd = s.cmd := rfl

@[simp] theorem setKern_cmdPart (s : State) (c : Chan) (k : Kernels) :
    (s.setKern c k).cmdPart = s.cmdPart := rfl

@[simp] theorem setKern_rsp (s : State) (c : Chan) (k : Kernels) :
    (s.setKern c k).rsp = s.rsp := rfl

@[simp] theorem setKern_ofifo (s : State) (c : Chan) (k : Kernels) :
    (s.setKern c k).ofifo = s.ofifo := rfl

@[simp] theorem setKern_shutdownReq (s : State) (c : Chan) (k : Kernels) :
    (s.setKern c k).shutdownReq = s.shutdownReq := rfl

@[simp] theorem setKern_depths (s : State) (c : Chan) (k : Kernels) :
    (s.setKern c k).depths = s.depths := rfl

@[simp] theorem setKern_script (s : State) (c : Chan) (k : Kernels) :
    (s.setKern c k).script = s.script := rfl

@[simp] theorem setKern_tick (s : State) (c : Chan) (k : Kernels) :
    (s.setKern c k).tick = s.tick := rfl


/-! ### `pushRsp` -/

@[simp] theorem pushRsp_life (ws : List Word) (s : State) :
    (pushRsp ws s).life = s.life := rfl

@[simp] theorem pushRsp_shutdownLatch (ws : List Word) (s : State) :
    (pushRsp ws s).shutdownLatch = s.shutdownLatch := rfl

@[simp] theorem pushRsp_fatalCause (ws : List Word) (s : State) :
    (pushRsp ws s).fatalCause = s.fatalCause := rfl

@[simp] theorem pushRsp_lastErr (ws : List Word) (s : State) :
    (pushRsp ws s).lastErr = s.lastErr := rfl

@[simp] theorem pushRsp_blkErr (ws : List Word) (s : State) :
    (pushRsp ws s).blkErr = s.blkErr := rfl

@[simp] theorem pushRsp_overrun (ws : List Word) (s : State) :
    (pushRsp ws s).overrun = s.overrun := rfl

@[simp] theorem pushRsp_irqEnable (ws : List Word) (s : State) :
    (pushRsp ws s).irqEnable = s.irqEnable := rfl

@[simp] theorem pushRsp_cfg (ws : List Word) (s : State) :
    (pushRsp ws s).cfg = s.cfg := rfl

@[simp] theorem pushRsp_coef (ws : List Word) (s : State) :
    (pushRsp ws s).coef = s.coef := rfl

@[simp] theorem pushRsp_glob (ws : List Word) (s : State) :
    (pushRsp ws s).glob = s.glob := rfl

@[simp] theorem pushRsp_cond (ws : List Word) (s : State) :
    (pushRsp ws s).cond = s.cond := rfl

@[simp] theorem pushRsp_kern (ws : List Word) (s : State) :
    (pushRsp ws s).kern = s.kern := rfl

@[simp] theorem pushRsp_pipe (ws : List Word) (s : State) :
    (pushRsp ws s).pipe = s.pipe := rfl

@[simp] theorem pushRsp_cmd (ws : List Word) (s : State) :
    (pushRsp ws s).cmd = s.cmd := rfl

@[simp] theorem pushRsp_cmdPart (ws : List Word) (s : State) :
    (pushRsp ws s).cmdPart = s.cmdPart := rfl

@[simp] theorem pushRsp_rsp (ws : List Word) (s : State) :
    (pushRsp ws s).rsp = s.rsp ++ [ws] := rfl

@[simp] theorem pushRsp_ofifo (ws : List Word) (s : State) :
    (pushRsp ws s).ofifo = s.ofifo := rfl

@[simp] theorem pushRsp_shutdownReq (ws : List Word) (s : State) :
    (pushRsp ws s).shutdownReq = s.shutdownReq := rfl

@[simp] theorem pushRsp_depths (ws : List Word) (s : State) :
    (pushRsp ws s).depths = s.depths := rfl

@[simp] theorem pushRsp_script (ws : List Word) (s : State) :
    (pushRsp ws s).script = s.script := rfl

@[simp] theorem pushRsp_tick (ws : List Word) (s : State) :
    (pushRsp ws s).tick = s.tick := rfl


/-! ### `emptyQueues` -/

@[simp] theorem emptyQueues_life (s : State) :
    (emptyQueues s).life = s.life := rfl

@[simp] theorem emptyQueues_shutdownLatch (s : State) :
    (emptyQueues s).shutdownLatch = s.shutdownLatch := rfl

@[simp] theorem emptyQueues_fatalCause (s : State) :
    (emptyQueues s).fatalCause = s.fatalCause := rfl

@[simp] theorem emptyQueues_lastErr (s : State) :
    (emptyQueues s).lastErr = s.lastErr := rfl

@[simp] theorem emptyQueues_blkErr (s : State) :
    (emptyQueues s).blkErr = s.blkErr := rfl

@[simp] theorem emptyQueues_overrun (s : State) :
    (emptyQueues s).overrun = s.overrun := rfl

@[simp] theorem emptyQueues_irqEnable (s : State) :
    (emptyQueues s).irqEnable = s.irqEnable := rfl

@[simp] theorem emptyQueues_cfg (s : State) :
    (emptyQueues s).cfg = s.cfg := rfl

@[simp] theorem emptyQueues_coef (s : State) :
    (emptyQueues s).coef = s.coef := rfl

@[simp] theorem emptyQueues_glob (s : State) :
    (emptyQueues s).glob = s.glob := rfl

@[simp] theorem emptyQueues_cond (s : State) :
    (emptyQueues s).cond = s.cond := rfl

@[simp] theorem emptyQueues_kern (s : State) :
    (emptyQueues s).kern = s.kern := rfl

@[simp] theorem emptyQueues_pipe (s : State) :
    (emptyQueues s).pipe = s.pipe.map fun p => { p with q := [] } := rfl

@[simp] theorem emptyQueues_cmd (s : State) :
    (emptyQueues s).cmd = s.cmd := rfl

@[simp] theorem emptyQueues_cmdPart (s : State) :
    (emptyQueues s).cmdPart = s.cmdPart := rfl

@[simp] theorem emptyQueues_rsp (s : State) :
    (emptyQueues s).rsp = s.rsp := rfl

@[simp] theorem emptyQueues_ofifo (s : State) :
    (emptyQueues s).ofifo = s.ofifo := rfl

@[simp] theorem emptyQueues_shutdownReq (s : State) :
    (emptyQueues s).shutdownReq = s.shutdownReq := rfl

@[simp] theorem emptyQueues_depths (s : State) :
    (emptyQueues s).depths = s.depths := rfl

@[simp] theorem emptyQueues_script (s : State) :
    (emptyQueues s).script = s.script := rfl

@[simp] theorem emptyQueues_tick (s : State) :
    (emptyQueues s).tick = s.tick := rfl


/-! ### `raiseCmdErr` -/

@[simp] theorem raiseCmdErr_life (code : BitVec 8) (s : State) :
    (raiseCmdErr code s).life = s.life := rfl

@[simp] theorem raiseCmdErr_shutdownLatch (code : BitVec 8) (s : State) :
    (raiseCmdErr code s).shutdownLatch = s.shutdownLatch := rfl

@[simp] theorem raiseCmdErr_fatalCause (code : BitVec 8) (s : State) :
    (raiseCmdErr code s).fatalCause = s.fatalCause := rfl

@[simp] theorem raiseCmdErr_lastErr (code : BitVec 8) (s : State) :
    (raiseCmdErr code s).lastErr = code := rfl

@[simp] theorem raiseCmdErr_blkErr (code : BitVec 8) (s : State) :
    (raiseCmdErr code s).blkErr = s.blkErr := rfl

@[simp] theorem raiseCmdErr_overrun (code : BitVec 8) (s : State) :
    (raiseCmdErr code s).overrun = s.overrun := rfl

@[simp] theorem raiseCmdErr_irqEnable (code : BitVec 8) (s : State) :
    (raiseCmdErr code s).irqEnable = s.irqEnable := rfl

@[simp] theorem raiseCmdErr_cfg (code : BitVec 8) (s : State) :
    (raiseCmdErr code s).cfg = s.cfg := rfl

@[simp] theorem raiseCmdErr_coef (code : BitVec 8) (s : State) :
    (raiseCmdErr code s).coef = s.coef := rfl

@[simp] theorem raiseCmdErr_glob (code : BitVec 8) (s : State) :
    (raiseCmdErr code s).glob = { s.glob with cmdErr := incWord s.glob.cmdErr } := rfl

@[simp] theorem raiseCmdErr_cond (code : BitVec 8) (s : State) :
    (raiseCmdErr code s).cond = s.cond := rfl

@[simp] theorem raiseCmdErr_kern (code : BitVec 8) (s : State) :
    (raiseCmdErr code s).kern = s.kern := rfl

@[simp] theorem raiseCmdErr_pipe (code : BitVec 8) (s : State) :
    (raiseCmdErr code s).pipe = s.pipe := rfl

@[simp] theorem raiseCmdErr_cmd (code : BitVec 8) (s : State) :
    (raiseCmdErr code s).cmd = s.cmd := rfl

@[simp] theorem raiseCmdErr_cmdPart (code : BitVec 8) (s : State) :
    (raiseCmdErr code s).cmdPart = s.cmdPart := rfl

@[simp] theorem raiseCmdErr_rsp (code : BitVec 8) (s : State) :
    (raiseCmdErr code s).rsp = s.rsp := rfl

@[simp] theorem raiseCmdErr_ofifo (code : BitVec 8) (s : State) :
    (raiseCmdErr code s).ofifo = s.ofifo := rfl

@[simp] theorem raiseCmdErr_shutdownReq (code : BitVec 8) (s : State) :
    (raiseCmdErr code s).shutdownReq = s.shutdownReq := rfl

@[simp] theorem raiseCmdErr_depths (code : BitVec 8) (s : State) :
    (raiseCmdErr code s).depths = s.depths := rfl

@[simp] theorem raiseCmdErr_script (code : BitVec 8) (s : State) :
    (raiseCmdErr code s).script = s.script := rfl

@[simp] theorem raiseCmdErr_tick (code : BitVec 8) (s : State) :
    (raiseCmdErr code s).tick = s.tick := rfl


/-! ### `raise` -/

@[simp] theorem raise_life (e : Event) (s : State) :
    (raise e s).life = s.life := by cases e <;> rfl

@[simp] theorem raise_shutdownLatch (e : Event) (s : State) :
    (raise e s).shutdownLatch = s.shutdownLatch := by cases e <;> rfl

@[simp] theorem raise_fatalCause (e : Event) (s : State) :
    (raise e s).fatalCause = s.fatalCause := by cases e <;> rfl

@[simp] theorem raise_irqEnable (e : Event) (s : State) :
    (raise e s).irqEnable = s.irqEnable := by cases e <;> rfl

@[simp] theorem raise_cfg (e : Event) (s : State) :
    (raise e s).cfg = s.cfg := by cases e <;> rfl

@[simp] theorem raise_coef (e : Event) (s : State) :
    (raise e s).coef = s.coef := by cases e <;> rfl

@[simp] theorem raise_cond (e : Event) (s : State) :
    (raise e s).cond = s.cond := by cases e <;> rfl

@[simp] theorem raise_kern (e : Event) (s : State) :
    (raise e s).kern = s.kern := by cases e <;> rfl

@[simp] theorem raise_pipe (e : Event) (s : State) :
    (raise e s).pipe = s.pipe := by cases e <;> rfl

@[simp] theorem raise_cmd (e : Event) (s : State) :
    (raise e s).cmd = s.cmd := by cases e <;> rfl

@[simp] theorem raise_cmdPart (e : Event) (s : State) :
    (raise e s).cmdPart = s.cmdPart := by cases e <;> rfl

@[simp] theorem raise_rsp (e : Event) (s : State) :
    (raise e s).rsp = s.rsp := by cases e <;> rfl

@[simp] theorem raise_ofifo (e : Event) (s : State) :
    (raise e s).ofifo = s.ofifo := by cases e <;> rfl

@[simp] theorem raise_shutdownReq (e : Event) (s : State) :
    (raise e s).shutdownReq = s.shutdownReq := by cases e <;> rfl

@[simp] theorem raise_depths (e : Event) (s : State) :
    (raise e s).depths = s.depths := by cases e <;> rfl

@[simp] theorem raise_script (e : Event) (s : State) :
    (raise e s).script = s.script := by cases e <;> rfl

@[simp] theorem raise_tick (e : Event) (s : State) :
    (raise e s).tick = s.tick := by cases e <;> rfl


/-! ### `raiseFatal` -/

@[simp] theorem raiseFatal_life (k : FatalCause) (s : State) :
    (raiseFatal k s).life = .fatal := rfl

@[simp] theorem raiseFatal_shutdownLatch (k : FatalCause) (s : State) :
    (raiseFatal k s).shutdownLatch = s.shutdownLatch := rfl

@[simp] theorem raiseFatal_fatalCause (k : FatalCause) (s : State) :
    (raiseFatal k s).fatalCause = fatalNum k := rfl

@[simp] theorem raiseFatal_lastErr (k : FatalCause) (s : State) :
    (raiseFatal k s).lastErr = s.lastErr := rfl

@[simp] theorem raiseFatal_blkErr (k : FatalCause) (s : State) :
    (raiseFatal k s).blkErr = s.blkErr := rfl

@[simp] theorem raiseFatal_overrun (k : FatalCause) (s : State) :
    (raiseFatal k s).overrun = s.overrun := rfl

@[simp] theorem raiseFatal_irqEnable (k : FatalCause) (s : State) :
    (raiseFatal k s).irqEnable = s.irqEnable := rfl

@[simp] theorem raiseFatal_cfg (k : FatalCause) (s : State) :
    (raiseFatal k s).cfg = s.cfg := rfl

@[simp] theorem raiseFatal_coef (k : FatalCause) (s : State) :
    (raiseFatal k s).coef = s.coef := rfl

@[simp] theorem raiseFatal_glob (k : FatalCause) (s : State) :
    (raiseFatal k s).glob = s.glob := rfl

@[simp] theorem raiseFatal_cond (k : FatalCause) (s : State) :
    (raiseFatal k s).cond = s.cond := rfl

@[simp] theorem raiseFatal_kern (k : FatalCause) (s : State) :
    (raiseFatal k s).kern = s.kern := rfl

@[simp] theorem raiseFatal_pipe (k : FatalCause) (s : State) :
    (raiseFatal k s).pipe = s.pipe := rfl

@[simp] theorem raiseFatal_cmd (k : FatalCause) (s : State) :
    (raiseFatal k s).cmd = s.cmd := rfl

@[simp] theorem raiseFatal_cmdPart (k : FatalCause) (s : State) :
    (raiseFatal k s).cmdPart = s.cmdPart := rfl

@[simp] theorem raiseFatal_rsp (k : FatalCause) (s : State) :
    (raiseFatal k s).rsp = s.rsp := rfl

@[simp] theorem raiseFatal_ofifo (k : FatalCause) (s : State) :
    (raiseFatal k s).ofifo = s.ofifo := rfl

@[simp] theorem raiseFatal_shutdownReq (k : FatalCause) (s : State) :
    (raiseFatal k s).shutdownReq = s.shutdownReq := rfl

@[simp] theorem raiseFatal_depths (k : FatalCause) (s : State) :
    (raiseFatal k s).depths = s.depths := rfl

@[simp] theorem raiseFatal_script (k : FatalCause) (s : State) :
    (raiseFatal k s).script = s.script := rfl

@[simp] theorem raiseFatal_tick (k : FatalCause) (s : State) :
    (raiseFatal k s).tick = s.tick := rfl


/-! ### `pinReset` -/

@[simp] theorem pinReset_life (s : State) :
    (pinReset s).life = State.reset.life := rfl

@[simp] theorem pinReset_shutdownLatch (s : State) :
    (pinReset s).shutdownLatch = s.shutdownReq := rfl

@[simp] theorem pinReset_fatalCause (s : State) :
    (pinReset s).fatalCause = State.reset.fatalCause := rfl

@[simp] theorem pinReset_lastErr (s : State) :
    (pinReset s).lastErr = State.reset.lastErr := rfl

@[simp] theorem pinReset_blkErr (s : State) :
    (pinReset s).blkErr = State.reset.blkErr := rfl

@[simp] theorem pinReset_overrun (s : State) :
    (pinReset s).overrun = State.reset.overrun := rfl

@[simp] theorem pinReset_irqEnable (s : State) :
    (pinReset s).irqEnable = State.reset.irqEnable := rfl

@[simp] theorem pinReset_cfg (s : State) :
    (pinReset s).cfg = State.reset.cfg := rfl

@[simp] theorem pinReset_coef (s : State) :
    (pinReset s).coef = State.reset.coef := rfl

@[simp] theorem pinReset_glob (s : State) :
    (pinReset s).glob = State.reset.glob := rfl

@[simp] theorem pinReset_cond (s : State) :
    (pinReset s).cond = State.reset.cond := rfl

@[simp] theorem pinReset_kern (s : State) :
    (pinReset s).kern = State.reset.kern := rfl

@[simp] theorem pinReset_pipe (s : State) :
    (pinReset s).pipe = State.reset.pipe := rfl

@[simp] theorem pinReset_cmd (s : State) :
    (pinReset s).cmd = State.reset.cmd := rfl

@[simp] theorem pinReset_cmdPart (s : State) :
    (pinReset s).cmdPart = State.reset.cmdPart := rfl

@[simp] theorem pinReset_rsp (s : State) :
    (pinReset s).rsp = State.reset.rsp := rfl

@[simp] theorem pinReset_ofifo (s : State) :
    (pinReset s).ofifo = State.reset.ofifo := rfl

@[simp] theorem pinReset_shutdownReq (s : State) :
    (pinReset s).shutdownReq = s.shutdownReq := rfl

@[simp] theorem pinReset_depths (s : State) :
    (pinReset s).depths = s.depths := rfl

@[simp] theorem pinReset_script (s : State) :
    (pinReset s).script = s.script := rfl

@[simp] theorem pinReset_tick (s : State) :
    (pinReset s).tick = s.tick := rfl


/-! ### `softReset` -/

@[simp] theorem softReset_life (s : State) :
    (softReset s).life = State.reset.life := rfl

@[simp] theorem softReset_shutdownLatch (s : State) :
    (softReset s).shutdownLatch = s.shutdownReq := rfl

@[simp] theorem softReset_fatalCause (s : State) :
    (softReset s).fatalCause = State.reset.fatalCause := rfl

@[simp] theorem softReset_lastErr (s : State) :
    (softReset s).lastErr = State.reset.lastErr := rfl

@[simp] theorem softReset_blkErr (s : State) :
    (softReset s).blkErr = State.reset.blkErr := rfl

@[simp] theorem softReset_overrun (s : State) :
    (softReset s).overrun = State.reset.overrun := rfl

@[simp] theorem softReset_irqEnable (s : State) :
    (softReset s).irqEnable = State.reset.irqEnable := rfl

@[simp] theorem softReset_cfg (s : State) :
    (softReset s).cfg = State.reset.cfg := rfl

@[simp] theorem softReset_coef (s : State) :
    (softReset s).coef = State.reset.coef := rfl

@[simp] theorem softReset_glob (s : State) :
    (softReset s).glob = State.reset.glob := rfl

@[simp] theorem softReset_cond (s : State) :
    (softReset s).cond = State.reset.cond := rfl

@[simp] theorem softReset_kern (s : State) :
    (softReset s).kern = State.reset.kern := rfl

@[simp] theorem softReset_pipe (s : State) :
    (softReset s).pipe = State.reset.pipe := rfl

@[simp] theorem softReset_cmd (s : State) :
    (softReset s).cmd = s.cmd := rfl

@[simp] theorem softReset_cmdPart (s : State) :
    (softReset s).cmdPart = s.cmdPart := rfl

@[simp] theorem softReset_rsp (s : State) :
    (softReset s).rsp = s.rsp := rfl

@[simp] theorem softReset_ofifo (s : State) :
    (softReset s).ofifo = State.reset.ofifo := rfl

@[simp] theorem softReset_shutdownReq (s : State) :
    (softReset s).shutdownReq = s.shutdownReq := rfl

@[simp] theorem softReset_depths (s : State) :
    (softReset s).depths = s.depths := rfl

@[simp] theorem softReset_script (s : State) :
    (softReset s).script = s.script := rfl

@[simp] theorem softReset_tick (s : State) :
    (softReset s).tick = s.tick := rfl


/-! ### `clearOut` -/

@[simp] theorem clearOut_life (s : State) :
    (clearOut s).life = s.life := rfl

@[simp] theorem clearOut_shutdownLatch (s : State) :
    (clearOut s).shutdownLatch = s.shutdownLatch := rfl

@[simp] theorem clearOut_fatalCause (s : State) :
    (clearOut s).fatalCause = s.fatalCause := rfl

@[simp] theorem clearOut_lastErr (s : State) :
    (clearOut s).lastErr = s.lastErr := rfl

@[simp] theorem clearOut_blkErr (s : State) :
    (clearOut s).blkErr = s.blkErr := rfl

@[simp] theorem clearOut_overrun (s : State) :
    (clearOut s).overrun = s.overrun := rfl

@[simp] theorem clearOut_irqEnable (s : State) :
    (clearOut s).irqEnable = s.irqEnable := rfl

@[simp] theorem clearOut_cfg (s : State) :
    (clearOut s).cfg = s.cfg := rfl

@[simp] theorem clearOut_coef (s : State) :
    (clearOut s).coef = s.coef := rfl

@[simp] theorem clearOut_glob (s : State) :
    (clearOut s).glob = s.glob := rfl

@[simp] theorem clearOut_cond (s : State) :
    (clearOut s).cond = { s.cond with out := { c0 := [], c1 := [] } } := rfl

@[simp] theorem clearOut_kern (s : State) :
    (clearOut s).kern = s.kern := rfl

@[simp] theorem clearOut_pipe (s : State) :
    (clearOut s).pipe = s.pipe := rfl

@[simp] theorem clearOut_cmd (s : State) :
    (clearOut s).cmd = s.cmd := rfl

@[simp] theorem clearOut_cmdPart (s : State) :
    (clearOut s).cmdPart = s.cmdPart := rfl

@[simp] theorem clearOut_rsp (s : State) :
    (clearOut s).rsp = s.rsp := rfl

@[simp] theorem clearOut_ofifo (s : State) :
    (clearOut s).ofifo = s.ofifo := rfl

@[simp] theorem clearOut_shutdownReq (s : State) :
    (clearOut s).shutdownReq = s.shutdownReq := rfl

@[simp] theorem clearOut_depths (s : State) :
    (clearOut s).depths = s.depths := rfl

@[simp] theorem clearOut_script (s : State) :
    (clearOut s).script = s.script := rfl

@[simp] theorem clearOut_tick (s : State) :
    (clearOut s).tick = s.tick := rfl


/-! ### `acceptBlock` -/

@[simp] theorem acceptBlock_life (seq : Word) (s : State) :
    (acceptBlock seq s).life = s.life := rfl

@[simp] theorem acceptBlock_shutdownLatch (seq : Word) (s : State) :
    (acceptBlock seq s).shutdownLatch = s.shutdownLatch := rfl

@[simp] theorem acceptBlock_fatalCause (seq : Word) (s : State) :
    (acceptBlock seq s).fatalCause = s.fatalCause := rfl

@[simp] theorem acceptBlock_lastErr (seq : Word) (s : State) :
    (acceptBlock seq s).lastErr = s.lastErr := rfl

@[simp] theorem acceptBlock_blkErr (seq : Word) (s : State) :
    (acceptBlock seq s).blkErr = s.blkErr := rfl

@[simp] theorem acceptBlock_overrun (seq : Word) (s : State) :
    (acceptBlock seq s).overrun = s.overrun := rfl

@[simp] theorem acceptBlock_irqEnable (seq : Word) (s : State) :
    (acceptBlock seq s).irqEnable = s.irqEnable := rfl

@[simp] theorem acceptBlock_cfg (seq : Word) (s : State) :
    (acceptBlock seq s).cfg = s.cfg := rfl

@[simp] theorem acceptBlock_coef (seq : Word) (s : State) :
    (acceptBlock seq s).coef = s.coef := rfl

@[simp] theorem acceptBlock_glob (seq : Word) (s : State) :
    (acceptBlock seq s).glob = { s.glob with blkAccepted := incWord s.glob.blkAccepted } := rfl

@[simp] theorem acceptBlock_cond (seq : Word) (s : State) :
    (acceptBlock seq s).cond = { s.cond with haveSeq := true, lastSeq := seq, out := { c0 := [], c1 := [] } } := rfl

@[simp] theorem acceptBlock_kern (seq : Word) (s : State) :
    (acceptBlock seq s).kern = s.kern := rfl

@[simp] theorem acceptBlock_pipe (seq : Word) (s : State) :
    (acceptBlock seq s).pipe = s.pipe := rfl

@[simp] theorem acceptBlock_cmd (seq : Word) (s : State) :
    (acceptBlock seq s).cmd = s.cmd := rfl

@[simp] theorem acceptBlock_cmdPart (seq : Word) (s : State) :
    (acceptBlock seq s).cmdPart = s.cmdPart := rfl

@[simp] theorem acceptBlock_rsp (seq : Word) (s : State) :
    (acceptBlock seq s).rsp = s.rsp := rfl

@[simp] theorem acceptBlock_ofifo (seq : Word) (s : State) :
    (acceptBlock seq s).ofifo = s.ofifo := rfl

@[simp] theorem acceptBlock_shutdownReq (seq : Word) (s : State) :
    (acceptBlock seq s).shutdownReq = s.shutdownReq := rfl

@[simp] theorem acceptBlock_depths (seq : Word) (s : State) :
    (acceptBlock seq s).depths = s.depths := rfl

@[simp] theorem acceptBlock_script (seq : Word) (s : State) :
    (acceptBlock seq s).script = s.script := rfl

@[simp] theorem acceptBlock_tick (seq : Word) (s : State) :
    (acceptBlock seq s).tick = s.tick := rfl


/-! ### `condOutput` -/

@[simp] theorem condOutput_life (s : State) (c : Chan) :
    (condOutput s c).life = s.life := rfl

@[simp] theorem condOutput_shutdownLatch (s : State) (c : Chan) :
    (condOutput s c).shutdownLatch = s.shutdownLatch := rfl

@[simp] theorem condOutput_fatalCause (s : State) (c : Chan) :
    (condOutput s c).fatalCause = s.fatalCause := rfl

@[simp] theorem condOutput_lastErr (s : State) (c : Chan) :
    (condOutput s c).lastErr = s.lastErr := rfl

@[simp] theorem condOutput_blkErr (s : State) (c : Chan) :
    (condOutput s c).blkErr = s.blkErr := rfl

@[simp] theorem condOutput_overrun (s : State) (c : Chan) :
    (condOutput s c).overrun = s.overrun := rfl

@[simp] theorem condOutput_irqEnable (s : State) (c : Chan) :
    (condOutput s c).irqEnable = s.irqEnable := rfl

@[simp] theorem condOutput_cfg (s : State) (c : Chan) :
    (condOutput s c).cfg = s.cfg := rfl

@[simp] theorem condOutput_coef (s : State) (c : Chan) :
    (condOutput s c).coef = s.coef := rfl

@[simp] theorem condOutput_glob (s : State) (c : Chan) :
    (condOutput s c).glob = s.glob := rfl

@[simp] theorem condOutput_kern (s : State) (c : Chan) :
    (condOutput s c).kern = s.kern := rfl

@[simp] theorem condOutput_pipe (s : State) (c : Chan) :
    (condOutput s c).pipe = s.pipe := rfl

@[simp] theorem condOutput_cmd (s : State) (c : Chan) :
    (condOutput s c).cmd = s.cmd := rfl

@[simp] theorem condOutput_cmdPart (s : State) (c : Chan) :
    (condOutput s c).cmdPart = s.cmdPart := rfl

@[simp] theorem condOutput_rsp (s : State) (c : Chan) :
    (condOutput s c).rsp = s.rsp := rfl

@[simp] theorem condOutput_ofifo (s : State) (c : Chan) :
    (condOutput s c).ofifo = s.ofifo := rfl

@[simp] theorem condOutput_shutdownReq (s : State) (c : Chan) :
    (condOutput s c).shutdownReq = s.shutdownReq := rfl

@[simp] theorem condOutput_depths (s : State) (c : Chan) :
    (condOutput s c).depths = s.depths := rfl

@[simp] theorem condOutput_script (s : State) (c : Chan) :
    (condOutput s c).script = s.script := rfl

@[simp] theorem condOutput_tick (s : State) (c : Chan) :
    (condOutput s c).tick = s.tick := rfl


/-! ### `clearSticky` -/

@[simp] theorem clearSticky_life (val : Word) (s : State) :
    (clearSticky val s).life = s.life := rfl

@[simp] theorem clearSticky_shutdownLatch (val : Word) (s : State) :
    (clearSticky val s).shutdownLatch = s.shutdownLatch := rfl

@[simp] theorem clearSticky_fatalCause (val : Word) (s : State) :
    (clearSticky val s).fatalCause = s.fatalCause := rfl

@[simp] theorem clearSticky_lastErr (val : Word) (s : State) :
    (clearSticky val s).lastErr = s.lastErr := rfl

@[simp] theorem clearSticky_blkErr (val : Word) (s : State) :
    (clearSticky val s).blkErr = (s.blkErr && !val.getLsbD 2) := rfl

@[simp] theorem clearSticky_overrun (val : Word) (s : State) :
    (clearSticky val s).overrun = (s.overrun && !val.getLsbD 3) := rfl

@[simp] theorem clearSticky_irqEnable (val : Word) (s : State) :
    (clearSticky val s).irqEnable = s.irqEnable := rfl

@[simp] theorem clearSticky_cfg (val : Word) (s : State) :
    (clearSticky val s).cfg = s.cfg := rfl

@[simp] theorem clearSticky_coef (val : Word) (s : State) :
    (clearSticky val s).coef = s.coef := rfl

@[simp] theorem clearSticky_glob (val : Word) (s : State) :
    (clearSticky val s).glob = s.glob := rfl

@[simp] theorem clearSticky_cond (val : Word) (s : State) :
    (clearSticky val s).cond = s.cond := rfl

@[simp] theorem clearSticky_kern (val : Word) (s : State) :
    (clearSticky val s).kern = s.kern := rfl

@[simp] theorem clearSticky_pipe (val : Word) (s : State) :
    (clearSticky val s).pipe = s.pipe := rfl

@[simp] theorem clearSticky_cmd (val : Word) (s : State) :
    (clearSticky val s).cmd = s.cmd := rfl

@[simp] theorem clearSticky_cmdPart (val : Word) (s : State) :
    (clearSticky val s).cmdPart = s.cmdPart := rfl

@[simp] theorem clearSticky_rsp (val : Word) (s : State) :
    (clearSticky val s).rsp = s.rsp := rfl

@[simp] theorem clearSticky_ofifo (val : Word) (s : State) :
    (clearSticky val s).ofifo = s.ofifo := rfl

@[simp] theorem clearSticky_shutdownReq (val : Word) (s : State) :
    (clearSticky val s).shutdownReq = s.shutdownReq := rfl

@[simp] theorem clearSticky_depths (val : Word) (s : State) :
    (clearSticky val s).depths = s.depths := rfl

@[simp] theorem clearSticky_script (val : Word) (s : State) :
    (clearSticky val s).script = s.script := rfl

@[simp] theorem clearSticky_tick (val : Word) (s : State) :
    (clearSticky val s).tick = s.tick := rfl


/-! ### `setShutdown` -/

@[simp] theorem setShutdown_life (level : Bool) (s : State) :
    (setShutdown level s).life = s.life := rfl

@[simp] theorem setShutdown_shutdownLatch (level : Bool) (s : State) :
    (setShutdown level s).shutdownLatch = (s.shutdownLatch || level) := rfl

@[simp] theorem setShutdown_fatalCause (level : Bool) (s : State) :
    (setShutdown level s).fatalCause = s.fatalCause := rfl

@[simp] theorem setShutdown_lastErr (level : Bool) (s : State) :
    (setShutdown level s).lastErr = s.lastErr := rfl

@[simp] theorem setShutdown_blkErr (level : Bool) (s : State) :
    (setShutdown level s).blkErr = s.blkErr := rfl

@[simp] theorem setShutdown_overrun (level : Bool) (s : State) :
    (setShutdown level s).overrun = s.overrun := rfl

@[simp] theorem setShutdown_irqEnable (level : Bool) (s : State) :
    (setShutdown level s).irqEnable = s.irqEnable := rfl

@[simp] theorem setShutdown_cfg (level : Bool) (s : State) :
    (setShutdown level s).cfg = s.cfg := rfl

@[simp] theorem setShutdown_coef (level : Bool) (s : State) :
    (setShutdown level s).coef = s.coef := rfl

@[simp] theorem setShutdown_glob (level : Bool) (s : State) :
    (setShutdown level s).glob = s.glob := rfl

@[simp] theorem setShutdown_cond (level : Bool) (s : State) :
    (setShutdown level s).cond = s.cond := rfl

@[simp] theorem setShutdown_kern (level : Bool) (s : State) :
    (setShutdown level s).kern = s.kern := rfl

@[simp] theorem setShutdown_pipe (level : Bool) (s : State) :
    (setShutdown level s).pipe = s.pipe := rfl

@[simp] theorem setShutdown_cmd (level : Bool) (s : State) :
    (setShutdown level s).cmd = s.cmd := rfl

@[simp] theorem setShutdown_cmdPart (level : Bool) (s : State) :
    (setShutdown level s).cmdPart = s.cmdPart := rfl

@[simp] theorem setShutdown_rsp (level : Bool) (s : State) :
    (setShutdown level s).rsp = s.rsp := rfl

@[simp] theorem setShutdown_ofifo (level : Bool) (s : State) :
    (setShutdown level s).ofifo = s.ofifo := rfl

@[simp] theorem setShutdown_shutdownReq (level : Bool) (s : State) :
    (setShutdown level s).shutdownReq = level := rfl

@[simp] theorem setShutdown_depths (level : Bool) (s : State) :
    (setShutdown level s).depths = s.depths := rfl

@[simp] theorem setShutdown_script (level : Bool) (s : State) :
    (setShutdown level s).script = s.script := rfl

@[simp] theorem setShutdown_tick (level : Bool) (s : State) :
    (setShutdown level s).tick = s.tick := rfl

end Sys2Proof.Machine
end

