-- ==== Sys2Proof/Laws/Ops.lean ====
section
/-!
SUPPORT. What each shared operation over the state does, once: events, queues and FIFOs, shutdown, resets.
-/

namespace Sys2Proof.Machine

open Sys2Proof

/-! ### Events (60_exceptions.md R272) -/

theorem raiseCmdErr_eq (code : BitVec 8) (s : State) : raiseCmdErr code s = cmdErrWith code s := rfl

theorem raise_cmdReserved (s : State) : raise .cmdReserved s = cmdErrWith 0x10#8 s := rfl
theorem raise_cmdLength (s : State) : raise .cmdLength s = cmdErrWith 0x11#8 s := rfl
theorem raise_cmdState (s : State) : raise .cmdState s = cmdErrWith 0x12#8 s := rfl
theorem raise_regUnmapped (s : State) : raise .regUnmapped s = cmdErrWith 0x13#8 s := rfl
theorem raise_regReadOnly (s : State) : raise .regReadOnly s = cmdErrWith 0x14#8 s := rfl

theorem raise_blkMalformed (code : BitVec 8) (s : State) : raise (.blkMalformed code) s =
    { s with
      glob := { s.glob with blkMalformed := oneMore s.glob.blkMalformed }, lastErr := code, blkErr := true } :=
  rfl

theorem raise_overrun (s : State) : raise .overrun s =
    { s with glob := { s.glob with overrunDrops := oneMore s.glob.overrunDrops }, overrun := true } := rfl

theorem raise_shutdownDrop (s : State) : raise .shutdownDrop s =
    { s with glob := { s.glob with shutdownDrops := oneMore s.glob.shutdownDrops } } := rfl

/-- A saturating counter `n` higher. -/
def moreBy (n : Nat) (w : Word) : Word := BitVec.ofNat 32 (min (w.toNat + n) 4294967295)

theorem moreBy_toNat (n : Nat) (w : Word) : (moreBy n w).toNat = min (w.toNat + n) 4294967295 := by
  unfold moreBy
  rw [BitVec.toNat_ofNat]
  omega

theorem moreBy_zero (w : Word) : moreBy 0 w = w := by
  apply BitVec.eq_of_toNat_eq
  rw [moreBy_toNat]
  have := w.isLt
  omega

theorem moreBy_oneMore (n : Nat) (w : Word) : moreBy n (oneMore w) = moreBy (n + 1) w := by
  apply BitVec.eq_of_toNat_eq
  rw [moreBy_toNat, moreBy_toNat, oneMore_toNat]
  omega

/-- `n` dropped blocks count `n`, saturating, and change nothing else. -/
theorem raiseTimes_shutdownDrop (n : Nat) (s : State) : raiseTimes n .shutdownDrop s =
    { s with glob := { s.glob with shutdownDrops := moreBy n s.glob.shutdownDrops } } := by
  induction n generalizing s with
  | zero => rw [moreBy_zero]; rfl
  | succ n ih => rw [raiseTimes, ih, raise_shutdownDrop, ← moreBy_oneMore]

/-! ### Queues and FIFOs -/

theorem queuedBlocks_eq (s : State) : queuedBlocks s = waiting s := by
  simp [queuedBlocks, waiting, PerPipe.toList, PerPipe.get]
  omega

/-- All STOP and the shutdown step do (45_host_commands.md R247). -/
theorem shutdown_eq (s : State) : shutdown s =
    { s with
      life := .stopped
      glob := { s.glob with shutdownDrops := moreBy (waiting s) s.glob.shutdownDrops }
      pipe := s.pipe.map fun p => { p with q := [] } } := by
  unfold shutdown emptyQueues
  rw [raiseTimes_shutdownDrop, queuedBlocks_eq]

theorem queuesEmpty_iff (s : State) : queuesEmpty s = true ↔ ∀ c v, (s.pipe.get c v).q = [] := by
  simp only [queuesEmpty, PerPipe.toList, List.all_cons, List.all_nil, Bool.and_true, Bool.and_eq_true,
    List.isEmpty_iff]
  constructor
  · rintro ⟨h1, h2, h3, h4, h5, h6⟩ c v
    cases c <;> cases v <;> assumption
  · intro h
    exact ⟨h .ch0 .ncoh, h .ch0 .coh, h .ch0 .chal, h .ch1 .ncoh, h .ch1 .coh, h .ch1 .chal⟩

theorem fullAt_iff (d : Option Nat) (n : Nat) : fullAt d n = true ↔ ∃ k, d = some k ∧ k ≤ n := by
  cases d <;> simp [fullAt]

/-- A push to a queue with room. -/
theorem pushQueue_room (b : Block) (s : State) (cv : Chan × Variant)
    (h : fullAt s.depths.qDepth (s.pipe.get cv.1 cv.2).q.length = false) :
    pushQueue b s cv = s.setPipe cv.1 cv.2
      { s.pipe.get cv.1 cv.2 with q := (s.pipe.get cv.1 cv.2).q ++ [b] } := by
  unfold pushQueue
  simp [h]

/-- A push to a full queue. -/
theorem pushQueue_full (b : Block) (s : State) (cv : Chan × Variant)
    (h : fullAt s.depths.qDepth (s.pipe.get cv.1 cv.2).q.length = true) :
    pushQueue b s cv = raise .overrun s := by
  unfold pushQueue
  simp [h]

/-- A push to `OF` with room. -/
theorem pushFrame_room (rec : List Word) (s : State) (h : fullAt s.depths.ofDepth s.ofifo.length = false) :
    pushFrame rec s = { s with ofifo := s.ofifo ++ [rec] } := by
  unfold pushFrame
  simp [h]

/-- A push to a full `OF`. -/
theorem pushFrame_full (rec : List Word) (s : State) (h : fullAt s.depths.ofDepth s.ofifo.length = true) :
    pushFrame rec s = raise .overrun s := by
  unfold pushFrame
  simp [h]

/-! ### Resets -/

/-- What a reset by the pin leaves (70_reset_and_hazards.md R310). -/
theorem pinReset_resetOf (s : State) : ResetOf s (pinReset s) := ⟨[], [], [], s.script, rfl⟩

/-- What SRESET leaves (70_reset_and_hazards.md R310). -/
theorem softReset_resetOf (s : State) : ResetOf s (softReset s) := ⟨s.cmd, s.cmdPart, s.rsp, s.script, rfl⟩

end Sys2Proof.Machine
end

