-- ==== Sys2Proof/Laws/Conditioner.lean ====
section
/-!
SUPPORT. What COND.SAMPLE, the fan-out of an accepted block, and a whole accepted block can do, once.
-/

namespace Sys2Proof.Machine

open Sys2Proof

/-- A sum over `k = 0 .. n - 1`, as a list's. -/
theorem sumTo_eq (f : Nat → Int) (n : Nat) : sumTo f n = ((List.range n).map f).sum := by
  induction n with
  | zero => rfl
  | succ n ih => simp [sumTo, ih, List.range_succ]

/-! ### COND.SAMPLE -/

theorem activeChans_eq (cfg : Cfg) : activeChans cfg =
    (if 0 < cfg.nch.toNat then [Chan.ch0] else []) ++ (if 1 < cfg.nch.toNat then [Chan.ch1] else []) := by
  unfold activeChans chanActive
  by_cases h0 : 0 < cfg.nch.toNat <;> by_cases h1 : 1 < cfg.nch.toNat <;> simp [chanNum, h0, h1]

/-- COND.SAMPLE writes nothing but the delay line, the phase, `rotidx` and `out` (40_conditioner.md R133). -/
theorem condSample_frame (x : Sample) (s : State) : condSample x s =
    { s with cond := { (condSample x s).cond with haveSeq := s.cond.haveSeq, lastSeq := s.cond.lastSeq } } := by
  unfold condSample
  simp only []
  split
  · rw [activeChans_eq]
    split <;> split <;> rfl
  · rfl

/-- COND.SAMPLE does not read `have_seq` and `last_seq`, nor anything but the configuration, the
coefficients and the conditioner. -/
theorem condSample_congr (x : Sample) (s t : State) (hc : t.cfg = s.cfg) (hm : t.coef = s.coef)
    (hd : t.cond = { s.cond with haveSeq := t.cond.haveSeq, lastSeq := t.cond.lastSeq }) :
    (condSample x t).cond =
      { (condSample x s).cond with haveSeq := t.cond.haveSeq, lastSeq := t.cond.lastSeq } := by
  obtain ⟨l, sl, fc, le, be, ov, ie, cfg, coef, g, cond, kern, pipe, cmd, cp, rsp, of, sr, dp, sc, tk⟩ := t
  obtain ⟨dl, ph, ri, hs, ls, out⟩ := cond
  simp only at hc hm hd
  subst hc hm
  simp only [CondState.mk.injEq] at hd
  obtain ⟨rfl, rfl, rfl, -, -, rfl⟩ := hd
  unfold condSample
  simp only []
  split
  · rw [activeChans_eq]
    split <;> split <;> rfl
  · rfl

/-- The samples of a block, one after another: the frame of COND.SAMPLE. -/
theorem condSamples_frame (xs : List Sample) (s : State) :
    xs.foldl (fun t x => condSample x t) s =
      { s with cond := { (xs.foldl (fun t x => condSample x t) s).cond with
          haveSeq := s.cond.haveSeq, lastSeq := s.cond.lastSeq } } := by
  induction xs generalizing s with
  | nil => rfl
  | cons x xs ih =>
    rw [List.foldl_cons, ih, condSample_frame x s]

/-! ### The fan-out -/

/-- A push to a queue writes nothing but that queue, OVERRUN_DROPS and OVERRUN. -/
theorem pushQueue_frame (b : Block) (s : State) (cv : Chan × Variant) :
    ∃ pipe ov n, pushQueue b s cv =
      { s with pipe := pipe, overrun := ov, glob := { s.glob with overrunDrops := n } } := by
  unfold pushQueue
  simp only []
  split
  · exact ⟨s.pipe, true, _, rfl⟩
  · exact ⟨_, s.overrun, s.glob.overrunDrops, rfl⟩

/-- The fan-out writes nothing but the queues, OVERRUN_DROPS and OVERRUN (40_conditioner.md R136). -/
theorem pushes_frame (f : Chan → Block) (l : List (Chan × Variant)) (s : State) :
    ∃ pipe ov n, l.foldl (fun t cv => pushQueue (f cv.1) t cv) s =
      { s with pipe := pipe, overrun := ov, glob := { s.glob with overrunDrops := n } } := by
  induction l generalizing s with
  | nil => exact ⟨s.pipe, s.overrun, s.glob.overrunDrops, rfl⟩
  | cons cv l ih =>
    obtain ⟨p, o, n, h⟩ := pushQueue_frame (f cv.1) s cv
    obtain ⟨p', o', n', h'⟩ := ih { s with pipe := p, overrun := o, glob := { s.glob with overrunDrops := n } }
    exact ⟨p', o', n', by rw [List.foldl_cons, h, h']⟩

/-- The fan-out, queue by queue, where no pair stands twice in the list: a queue of the list with room gets
its block, a full one does not, and the full ones are counted. -/
theorem pushes_spec (f : Chan → Block) (l : List (Chan × Variant)) (hl : l.Nodup) (s : State) :
    (∀ c v, (c, v) ∈ l → fullAt s.depths.qDepth (s.pipe.get c v).q.length = false →
      (l.foldl (fun t cv => pushQueue (f cv.1) t cv) s).pipe.get c v =
        { s.pipe.get c v with q := (s.pipe.get c v).q ++ [f c] }) ∧
    (∀ c v, ¬((c, v) ∈ l ∧ fullAt s.depths.qDepth (s.pipe.get c v).q.length = false) →
      (l.foldl (fun t cv => pushQueue (f cv.1) t cv) s).pipe.get c v = s.pipe.get c v) ∧
    (l.foldl (fun t cv => pushQueue (f cv.1) t cv) s).glob.overrunDrops =
      moreBy (l.filter fun cv => fullAt s.depths.qDepth (s.pipe.get cv.1 cv.2).q.length).length
        s.glob.overrunDrops ∧
    ((l.foldl (fun t cv => pushQueue (f cv.1) t cv) s).overrun =
      (s.overrun || l.any fun cv => fullAt s.depths.qDepth (s.pipe.get cv.1 cv.2).q.length)) := by
  induction l generalizing s with
  | nil => simp [moreBy_zero]
  | cons cv l ih =>
    obtain ⟨hn, hl'⟩ := List.nodup_cons.1 hl
    rw [List.foldl_cons]
    cases hf : fullAt s.depths.qDepth (s.pipe.get cv.1 cv.2).q.length with
    | true =>
      rw [pushQueue_full _ _ _ hf]
      obtain ⟨h1, h2, h3, h4⟩ := ih hl' (raise .overrun s)
      simp only [raise_pipe, raise_depths] at h1 h2 h3 h4
      refine ⟨?_, ?_, ?_, ?_⟩
      · intro c v hm hr
        rcases List.mem_cons.1 hm with rfl | hm
        · rw [hf] at hr; cases hr
        · exact h1 c v hm hr
      · intro c v hm
        refine h2 c v fun hm' => hm ⟨List.mem_cons_of_mem _ hm'.1, hm'.2⟩
      · rw [h3, raise_overrun, moreBy_oneMore, List.filter_cons, hf]
        rfl
      · rw [h4, raise_overrun, List.any_cons, hf]
        simp
    | false =>
      rw [pushQueue_room _ _ _ hf]
      have other : ∀ c v, (c, v) ≠ cv → (s.setPipe cv.1 cv.2 { s.pipe.get cv.1 cv.2 with
          q := (s.pipe.get cv.1 cv.2).q ++ [f cv.1] }).pipe.get c v = s.pipe.get c v := by
        intro c v hne
        simp only [setPipe_pipe]
        exact PerPipe.get_set_other _ _ hne
      obtain ⟨h1, h2, h3, h4⟩ := ih hl' (s.setPipe cv.1 cv.2 { s.pipe.get cv.1 cv.2 with
          q := (s.pipe.get cv.1 cv.2).q ++ [f cv.1] })
      simp only [setPipe_depths] at h1 h2 h3 h4
      refine ⟨?_, ?_, ?_, ?_⟩
      · intro c v hm hr
        rcases List.mem_cons.1 hm with e | hm
        · subst e
          rw [h2 c v fun h => hn h.1]
          simp
        · have hne : (c, v) ≠ cv := fun e => hn (e ▸ hm)
          rw [h1 c v hm (by rw [other c v hne]; exact hr), other c v hne]
      · intro c v hm
        have hne : (c, v) ≠ cv := by
          rintro rfl
          exact hm ⟨List.mem_cons_self, hf⟩
        rw [h2 c v fun h => hm ⟨List.mem_cons_of_mem _ h.1, by rw [other c v hne] at h; exact h.2⟩,
          other c v hne]
      · rw [h3, List.filter_cons, hf]
        have : l.filter (fun cw => fullAt s.depths.qDepth
            ((s.setPipe cv.1 cv.2 { s.pipe.get cv.1 cv.2 with
              q := (s.pipe.get cv.1 cv.2).q ++ [f cv.1] }).pipe.get cw.1 cw.2).q.length) =
            l.filter (fun cw => fullAt s.depths.qDepth (s.pipe.get cw.1 cw.2).q.length) := by
          apply List.filter_congr
          intro cw hcw
          rw [other cw.1 cw.2 fun e => hn (by rw [← e]; exact hcw)]
        rw [this]
        rfl
      · rw [h4, List.any_cons, hf]
        have : l.any (fun cw => fullAt s.depths.qDepth
            ((s.setPipe cv.1 cv.2 { s.pipe.get cv.1 cv.2 with
              q := (s.pipe.get cv.1 cv.2).q ++ [f cv.1] }).pipe.get cw.1 cw.2).q.length) =
            l.any (fun cw => fullAt s.depths.qDepth (s.pipe.get cw.1 cw.2).q.length) := by
          rw [Bool.eq_iff_iff, List.any_eq_true, List.any_eq_true]
          constructor <;> rintro ⟨cw, hcw, h⟩ <;> refine ⟨cw, hcw, ?_⟩ <;>
            have e := other cw.1 cw.2 fun e => hn (by rw [← e]; exact hcw)
          · rw [e] at h; exact h
          · rw [e]; exact h
        rw [this]
        rfl

/-- The output blocks of an accepted block: what they write (40_conditioner.md R136). -/
theorem pushBlocks_frame (seq : Word) (s : State) : ∃ pipe ov n, pushBlocks seq s =
    { s with pipe := pipe, overrun := ov, glob := { s.glob with overrunDrops := n } } :=
  pushes_frame (outBlock seq s) _ s

/-- An accepted block writes nothing but the conditioner, the queues, BLK_ACCEPTED, OVERRUN_DROPS and
OVERRUN, and leaves the lists `out[c]` empty. -/
theorem condAccepted_frame (body : List Word) (s : State) :
    ∃ (cond : CondState) (pipe : PerPipe Pipe) (ov : Bool) (n : Word), condAccepted body s =
      { s with
        cond := { cond with haveSeq := true, lastSeq := blockSeq body, out := ⟨[], []⟩ }
        pipe := pipe
        overrun := ov
        glob := { s.glob with blkAccepted := incWord s.glob.blkAccepted, overrunDrops := n } } := by
  have hs := condSamples_frame (blockSamples body) (acceptBlock (blockSeq body) s)
  unfold condAccepted
  simp only []
  generalize (blockSamples body).foldl (fun t x => condSample x t) (acceptBlock (blockSeq body) s) = u at hs
  obtain ⟨p, o, n, h⟩ := pushBlocks_frame (blockSeq body) u
  refine ⟨u.cond, p, o, n, ?_⟩
  rw [h, hs]
  rfl

end Sys2Proof.Machine
end

