-- ==== Sys2Proof/Laws/Memory.lean ====
section
/-!
SUPPORT. The coefficient memory: every operation keeps the canonical form, and a read after a write.
-/

namespace Sys2Proof.Machine

open Sys2Proof

/-- A memory all of whose indices lie above `a` reads at `a` as an unlisted index does. -/
theorem Memory.read_of_above (m : Memory) (a b : Nat) (h : Memory.wf m = true) (ha : Memory.above a m = true)
    (hb : b ≤ a) : Memory.read m b = coefReset b := by
  induction m generalizing a with
  | nil => rfl
  | cons e m ih =>
    obtain ⟨k, w⟩ := e
    simp only [Memory.above, decide_eq_true_eq] at ha
    simp only [Memory.wf, Bool.and_eq_true] at h
    rw [Memory.read, if_neg (by omega)]
    exact ih k h.2 h.1.2 (by omega)

theorem Memory.above_trans (m : Memory) {a b : Nat} (h : a ≤ b) (hb : Memory.above b m = true) :
    Memory.above a m = true := by
  cases m with
  | nil => rfl
  | cons e m =>
    simp only [Memory.above, decide_eq_true_eq] at hb ⊢
    omega

theorem Memory.wf_put (m : Memory) (a : Nat) (v : Word) (h : Memory.wf m = true)
    (ha : Memory.above a m = true) : Memory.wf (Memory.put a v m) = true := by
  unfold Memory.put
  split
  · exact h
  · simp [Memory.wf, *]

theorem Memory.above_put (m : Memory) {a b : Nat} (v : Word) (h : b < a) (ha : Memory.above a m = true) :
    Memory.above b (Memory.put a v m) = true := by
  unfold Memory.put
  split
  · exact Memory.above_trans m (by omega) ha
  · simpa [Memory.above] using h

theorem Memory.read_put_same (m : Memory) (a : Nat) (v : Word) (h : Memory.wf m = true)
    (ha : Memory.above a m = true) : Memory.read (Memory.put a v m) a = v := by
  unfold Memory.put
  split
  · next e => rw [Memory.read_of_above m a a h ha (Nat.le_refl a), e]
  · simp [Memory.read]

theorem Memory.read_put_other (m : Memory) {a b : Nat} (v : Word) (h : b ≠ a) :
    Memory.read (Memory.put a v m) b = Memory.read m b := by
  unfold Memory.put
  split
  · rfl
  · rw [Memory.read, if_neg h]

theorem Memory.above_write (m : Memory) {a b : Nat} (v : Word) (h : Memory.wf m = true) (hb : b < a)
    (hm : Memory.above b m = true) : Memory.above b (Memory.write m a v) = true := by
  cases m with
  | nil => exact Memory.above_put [] v hb rfl
  | cons e m =>
    obtain ⟨k, w⟩ := e
    simp only [Memory.wf, Bool.and_eq_true] at h
    unfold Memory.write
    split
    · next hk => exact Memory.above_put _ v hb (by simpa [Memory.above] using hk)
    · split
      · next hk => exact Memory.above_put _ v hb (hk ▸ h.1.2)
      · exact hm

/-- A write keeps the canonical form. -/
theorem Memory.wf_write (m : Memory) (a : Nat) (v : Word) (h : Memory.wf m = true) :
    Memory.wf (Memory.write m a v) = true := by
  induction m with
  | nil => exact Memory.wf_put [] a v rfl rfl
  | cons e m ih =>
    obtain ⟨k, w⟩ := e
    have h' := h
    simp only [Memory.wf, Bool.and_eq_true] at h'
    unfold Memory.write
    split
    · next hk => exact Memory.wf_put _ a v h (by simpa [Memory.above] using hk)
    · split
      · next hk => exact Memory.wf_put _ a v h'.2 (hk ▸ h'.1.2)
      · next h1 h2 =>
        simp only [Memory.wf, Bool.and_eq_true]
        exact ⟨⟨h'.1.1, Memory.above_write m v h'.2 (by omega) h'.1.2⟩, ih h'.2⟩

/-- A read after a write to the same index gives the word written. -/
theorem Memory.read_write_same (m : Memory) (a : Nat) (v : Word) (h : Memory.wf m = true) :
    Memory.read (Memory.write m a v) a = v := by
  induction m with
  | nil => exact Memory.read_put_same [] a v rfl rfl
  | cons e m ih =>
    obtain ⟨k, w⟩ := e
    have h' := h
    simp only [Memory.wf, Bool.and_eq_true] at h'
    unfold Memory.write
    split
    · next hk => exact Memory.read_put_same _ a v h (by simpa [Memory.above] using hk)
    · split
      · next hk => exact Memory.read_put_same _ a v h'.2 (hk ▸ h'.1.2)
      · next h1 h2 => rw [Memory.read, if_neg h2]; exact ih h'.2

/-- A write leaves every other index alone. -/
theorem Memory.read_write_other (m : Memory) {a b : Nat} (v : Word) (h : Memory.wf m = true) (hb : b ≠ a) :
    Memory.read (Memory.write m a v) b = Memory.read m b := by
  induction m with
  | nil => exact Memory.read_put_other [] v hb
  | cons e m ih =>
    obtain ⟨k, w⟩ := e
    simp only [Memory.wf, Bool.and_eq_true] at h
    unfold Memory.write
    split
    · exact Memory.read_put_other _ v hb
    · split
      · next hk =>
        rw [Memory.read_put_other _ v hb, Memory.read, if_neg (by omega)]
      · rw [Memory.read, Memory.read, ih h.2]

/-- The memory at reset is in canonical form. -/
theorem Memory.wf_reset : Memory.wf State.reset.coef = true := rfl

end Sys2Proof.Machine
end

