-- ==== Sys2Proof/WellFormed.lean ====
section
/-!
DEFINITION. Which operations carry operands of the form the spec gives them. An operation that fails
a check still has its meaning (a BLOCK with a wrong count is BlkMalformed, 40_conditioner.md R132; a
frame with a wrong length is MALFORMED, 44_validator.md R222): the checks say what a host that keeps
to the formats sends, and what a deframer that keeps to its rules emits.
-/

namespace Sys2Proof

/-- Format BLK (30_encoding.md R104) with a length 20_memory.md R74 (a) allows: 1 to MAXBLK samples
declared, and exactly the sequence word, the rate word and that many sample words present. -/
def wfBlock (len : BitVec 16) (body : List Word) : Bool :=
  decide (1 ≤ len.toNat) && decide (len.toNat ≤ Config.maxBlk) && decide (body.length = 2 + len.toNat)

/-- The CandidateFrame record (30_encoding.md R109): `24 ≤ n ≤ 1024` and `n mod 8 = 0`. -/
def wfFrame (f : CandFrame) : Bool :=
  decide (24 ≤ f.bits.length) && decide (f.bits.length ≤ 1024) && decide (f.bits.length % 8 = 0)

/-- SymbolStream elements a kernel emits (30_encoding.md R107): value = 1 with confidence 0 "is never
emitted". -/
def wfSymbol (e : BitVec 16) : Bool := decide (e ≠ 0x8000#16)

/-- A well-formed operation. Every other constructor's operands are exact by their types. -/
def WellFormed : Instr → Bool
  | .block _ len body => wfBlock len body
  | .synStep _ _ e => wfSymbol e
  | .valFrame f => wfFrame f
  | .nop _ => true
  | .sreset _ => true
  | .cfgwr _ _ _ => true
  | .regrd _ _ => true
  | .start _ => true
  | .stop _ => true
  | .fence _ => true
  | .eos _ => true
  | .frpop _ => true
  | .condSample _ => true
  | .demNcoh _ _ => true
  | .demCoh _ _ => true
  | .demChal _ _ => true
  | .nrziBit _ _ _ => true
  | .hdlcBit _ _ _ => true

end Sys2Proof
end

