-- ==== Sys2Proof/Laws/PerInstr.lean ====
section
/-!
SUPPORT. One statement for all operations, made per operation: the form of its encoding.
-/

namespace Sys2Proof.Laws

open Sys2Proof

/-- The format of the elements a position of the chain takes (30_encoding.md R116). -/
def takesFormat : Stage → Element → Bool
  | .cond, .sample _ => true
  | .dem _ _, .sample _ => true
  | .syn _ _, .symbol _ => true
  | .nrzi _ _, .bit _ => true
  | .hdlc _ _, .bit _ => true
  | .val c v, .frame f => decide (f.chan = c) && decide (f.var = v)
  | _, _ => false

/-- The word count of a packet is the one its header calls for (30_encoding.md R101); an element has the
format of its position (R116). -/
def formOk : Encoded → Bool
  | .packet p => decide (wordsOfHeader p.hdr = 1 + p.body.length)
  | .element st e => takesFormat st e

/-- The opcode field of a header (30_encoding.md R101). -/
theorem header_opcode (op : Opcode) (arg : BitVec 24) :
    opcodeOf ((header op arg).extractLsb' 24 8) = some op := by
  unfold header
  rw [BitVec.extractLsb'_append_eq_left]
  cases op <;> rfl

/-- The argument field of a header (30_encoding.md R101). -/
theorem header_arg (op : Opcode) (arg : BitVec 24) : (header op arg).extractLsb' 0 24 = arg := by
  unfold header
  rw [BitVec.extractLsb'_append_eq_right]

/-- The word count that a header of the encoder calls for. -/
theorem wordsOfHeader_header (op : Opcode) (arg : BitVec 24) : wordsOfHeader (header op arg) =
    match op with
    | .cfgwr => 2
    | .block => 3 + (arg.extractLsb' 0 16 : BitVec 16).toNat
    | _ => 1 := by
  have h : ((header op arg).extractLsb' 0 16 : BitVec 16) = arg.extractLsb' 0 16 := by
    apply BitVec.eq_of_getLsbD_eq
    intro i hi
    have h24 : i < 24 := by omega
    rw [BitVec.getLsbD_extractLsb', BitVec.getLsbD_extractLsb', header, BitVec.getLsbD_append]
    simp [h24]
  unfold wordsOfHeader
  rw [header_opcode, h]
  cases op <;> rfl

namespace FormOfEncoding

/-- A well-formed operation's encoding has the form the spec gives it. -/
def Statement (i : Instr) : Prop := WellFormed i = true → formOk (encode i) = true

theorem nop (arg : BitVec 24) : Statement (.nop arg) := by
  intro _; simp [formOk, encode, wordsOfHeader_header]

theorem sreset (arg : BitVec 24) : Statement (.sreset arg) := by
  intro _; simp [formOk, encode, wordsOfHeader_header]

theorem cfgwr (arg idx : BitVec 12) (val : Word) : Statement (.cfgwr arg idx val) := by
  intro _; simp [formOk, encode, wordsOfHeader_header]

theorem regrd (arg idx : BitVec 12) : Statement (.regrd arg idx) := by
  intro _; simp [formOk, encode, wordsOfHeader_header]

theorem start (arg : BitVec 24) : Statement (.start arg) := by
  intro _; simp [formOk, encode, wordsOfHeader_header]

theorem stop (arg : BitVec 24) : Statement (.stop arg) := by
  intro _; simp [formOk, encode, wordsOfHeader_header]

theorem fence (arg : BitVec 24) : Statement (.fence arg) := by
  intro _; simp [formOk, encode, wordsOfHeader_header]

theorem block (chid : BitVec 8) (len : BitVec 16) (body : List Word) : Statement (.block chid len body) := by
  intro h
  simp only [WellFormed, wfBlock, Bool.and_eq_true, decide_eq_true_eq] at h
  have e : ((chid ++ len).extractLsb' 0 16 : BitVec 16) = len := BitVec.extractLsb'_append_eq_right
  simp only [formOk, encode, wordsOfHeader_header, decide_eq_true_eq]
  rw [show ((chid ++ len : BitVec 24).extractLsb' 0 16 : BitVec 16) = len from e, h.2]
  omega

theorem eos (arg : BitVec 24) : Statement (.eos arg) := by
  intro _; simp [formOk, encode, wordsOfHeader_header]

theorem frpop (arg : BitVec 24) : Statement (.frpop arg) := by
  intro _; simp [formOk, encode, wordsOfHeader_header]

theorem condSample (x : Sample) : Statement (.condSample x) := fun _ => rfl

theorem demNcoh (c : Chan) (z : Sample) : Statement (.demNcoh c z) := fun _ => rfl

theorem demCoh (c : Chan) (z : Sample) : Statement (.demCoh c z) := fun _ => rfl

theorem demChal (c : Chan) (z : Sample) : Statement (.demChal c z) := fun _ => rfl

theorem synStep (c : Chan) (v : Variant) (e : BitVec 16) : Statement (.synStep c v e) := fun _ => rfl

theorem nrziBit (c : Chan) (v : Variant) (r : Bool) : Statement (.nrziBit c v r) := fun _ => rfl

theorem hdlcBit (c : Chan) (v : Variant) (d : Bool) : Statement (.hdlcBit c v d) := fun _ => rfl

theorem valFrame (f : CandFrame) : Statement (.valFrame f) := by
  intro _; simp [formOk, encode, takesFormat]

end FormOfEncoding

end Sys2Proof.Laws
end

