-- ==== Sys2Proof/Laws/Pipeline.lean ====
section
/-!
SUPPORT. What a pipeline's step can do, once: an induction principle for whatever its operations keep, the
emptiness of its internal streams, and its frame.
-/

namespace Sys2Proof.Machine

open Sys2Proof

/-! ### The induction principle -/

theorem foldl_keeps {α : Type} (P : State → Prop) (f : State → α → State) (l : List α)
    (h : ∀ t, ∀ a ∈ l, P t → P (f t a)) (s : State) (hs : P s) : P (l.foldl f s) := by
  induction l generalizing s with
  | nil => exact hs
  | cons a l ih =>
    exact ih (fun t b hb => h t b (List.mem_cons_of_mem a hb)) (f s a) (h s a List.mem_cons_self hs)

/-- A property that every part of the step of `P[c][v]` keeps, where the CandidateFrames that stand in the
pipeline meet `G`. -/
structure PipeKept (c : Chan) (v : Variant) (G : CandFrame → Prop) (P : State → Prop) : Prop where
  frames : ∀ s, P s → ∀ f ∈ (s.pipe.get c v).cand, G f
  clearSym : ∀ s, P s → P (s.setPipe c v { s.pipe.get c v with sym := [] })
  clearRaw : ∀ s, P s → P (s.setPipe c v { s.pipe.get c v with raw := [] })
  clearDec : ∀ s, P s → P (s.setPipe c v { s.pipe.get c v with dec := [] })
  clearCand : ∀ s, P s → P (s.setPipe c v { s.pipe.get c v with cand := [] })
  syn : ∀ s e, P s → P (synStep c v e s)
  nrzi : ∀ s r, P s → P (nrziBit c v r s)
  hdlc : ∀ s d, P s → P (hdlcBit c v d s)
  val : ∀ s f, G f → P s → P (valFrame f s)

variable {c : Chan} {v : Variant} {G : CandFrame → Prop} {P : State → Prop}

theorem drainCand_keeps (k : PipeKept c v G P) (s : State) (h : P s) : P (drainCand c v s) :=
  foldl_keeps P _ _ (fun t f hf ht => k.val t f (k.frames s h f hf) ht) _ (k.clearCand s h)

theorem drainDec_keeps (k : PipeKept c v G P) (s : State) (h : P s) : P (drainDec c v s) :=
  foldl_keeps P _ _ (fun t d _ ht => drainCand_keeps k _ (k.hdlc t d ht)) _ (k.clearDec s h)

theorem drainRaw_keeps (k : PipeKept c v G P) (s : State) (h : P s) : P (drainRaw c v s) :=
  foldl_keeps P _ _ (fun t r _ ht => drainDec_keeps k _ (k.nrzi t r ht)) _ (k.clearRaw s h)

theorem drainSym_keeps (k : PipeKept c v G P) (s : State) (h : P s) : P (drainSym c v s) :=
  foldl_keeps P _ _ (fun t e _ ht => drainRaw_keeps k _ (k.syn t e ht)) _ (k.clearSym s h)

/-- A property that every part of the step of `P[c][v]` keeps, the pop and the demodulator among them. -/
structure BlockKept (c : Chan) (v : Variant) (G : CandFrame → Prop) (P : State → Prop) : Prop
    extends PipeKept c v G P where
  pop : ∀ s b rest, (s.pipe.get c v).q = b :: rest → P s →
    P (s.setPipe c v { s.pipe.get c v with q := rest })
  count : ∀ s, P s → P (countSample c v s)
  dem : ∀ s z, P s → P (demStep c v z s)

theorem pipeSample_keeps (k : BlockKept c v G P) (z : Sample) (s : State) (h : P s) :
    P (pipeSample c v z s) :=
  drainSym_keeps k.toPipeKept _ (k.dem _ z (k.count s h))

theorem pipeSamples_keeps (k : BlockKept c v G P) (zs : List Sample) (s : State) (h : P s) :
    P (pipeSamples c v zs s) :=
  foldl_keeps P _ _ (fun t z _ ht => pipeSample_keeps k z t ht) s h

theorem pipeBegin_keeps (k : BlockKept c v G P) (s : State) (h : P s) : P (pipeBegin c v s).2 := by
  unfold pipeBegin
  simp only []
  split
  · split
    · exact drainSym_keeps k.toPipeKept _ (drainRaw_keeps k.toPipeKept _
        (drainDec_keeps k.toPipeKept _ (drainCand_keeps k.toPipeKept _ h)))
    · split
      · exact h
      · next b rest hq => exact k.pop s b rest hq h
  · exact h

/-- Whatever the parts of a pipeline's step keep, the step keeps. -/
theorem pipeStep_keeps (k : BlockKept c v G P) (s : State) (h : P s) : P (pipeStep c v s) :=
  pipeSamples_keeps k _ _ (pipeBegin_keeps k s h)

/-- Whatever the parts of every pipeline's step keep, a turn in an overlap keeps. -/
theorem overlapTurn_keeps {Q : Chan → Variant → CandFrame → Prop} (k : ∀ c v, BlockKept c v (Q c v) P)
    (w : Overlap) (cv : Chan × Variant) (h : P w.now) : P (overlapTurn w cv).now := by
  unfold overlapTurn
  split
  · exact pipeSample_keeps (k _ _) _ _ h
  · exact pipeBegin_keeps (k _ _) _ h

/-- Whatever the parts of every pipeline's step keep, overlapping block steps keep. -/
theorem overlapSteps_keeps {Q : Chan → Variant → CandFrame → Prop} (k : ∀ c v, BlockKept c v (Q c v) P)
    (order : List (Chan × Variant)) (s : State) (h : P s) : P (overlapSteps order s) := by
  have turns : ∀ (l : List (Chan × Variant)) (w : Overlap), P w.now → P (l.foldl overlapTurn w).now := by
    intro l
    induction l with
    | nil => exact fun _ hw => hw
    | cons cv l ih => exact fun w hw => ih _ (overlapTurn_keeps k w cv hw)
  exact foldl_keeps P _ _ (fun t cv _ ht => pipeSamples_keeps (k cv.1 cv.2) _ _ ht) _ (turns order _ h)

/-! ### The streams -/

/-- VAL.FRAME leaves everything of every pipeline but its counters. -/
theorem valFrame_pipe (f : CandFrame) (s : State) (d : Chan) (w : Variant) :
    ∃ k, (valFrame f s).pipe.get d w = { s.pipe.get d w with cnt := k } := by
  have hset : ∀ k : PipeCounters, ∃ k', (setCnt f.chan f.var k s).pipe.get d w =
      { s.pipe.get d w with cnt := k' } := by
    intro k
    by_cases e : (d, w) = (f.chan, f.var)
    · obtain ⟨rfl, rfl⟩ := Prod.mk.inj e
      exact ⟨k, by simp [setCnt]⟩
    · exact ⟨(s.pipe.get d w).cnt, by simp [setCnt, PerPipe.get_set_other _ _ e]⟩
  unfold valFrame
  simp only []
  split
  · exact hset _
  · split
    · exact hset _
    · obtain ⟨k', h'⟩ := hset { (s.pipe.get f.chan f.var).cnt with
        framesValid := incWord (s.pipe.get f.chan f.var).cnt.framesValid }
      refine ⟨k', ?_⟩
      rw [← h']
      unfold pushFrame
      split <;> rfl

/-- Draining the CandidateFrames empties that stream and leaves the others. -/
theorem drainCand_streams (s : State) :
    ((drainCand c v s).pipe.get c v).cand = [] ∧
    ((drainCand c v s).pipe.get c v).dec = (s.pipe.get c v).dec ∧
    ((drainCand c v s).pipe.get c v).raw = (s.pipe.get c v).raw ∧
    ((drainCand c v s).pipe.get c v).sym = (s.pipe.get c v).sym := by
  refine foldl_keeps (fun t => (t.pipe.get c v).cand = [] ∧ (t.pipe.get c v).dec = (s.pipe.get c v).dec ∧
    (t.pipe.get c v).raw = (s.pipe.get c v).raw ∧ (t.pipe.get c v).sym = (s.pipe.get c v).sym) _ _ ?_ _ ?_
  · intro t f _ ht
    obtain ⟨k, hk⟩ := valFrame_pipe f t c v
    rw [hk]
    exact ht
  · simp

/-- Draining the decoded bits leaves none, and no CandidateFrame where there was none. -/
theorem drainDec_streams (s : State) (hc : (s.pipe.get c v).cand = []) :
    ((drainDec c v s).pipe.get c v).cand = [] ∧ ((drainDec c v s).pipe.get c v).dec = [] ∧
    ((drainDec c v s).pipe.get c v).raw = (s.pipe.get c v).raw ∧
    ((drainDec c v s).pipe.get c v).sym = (s.pipe.get c v).sym := by
  refine foldl_keeps (fun t => (t.pipe.get c v).cand = [] ∧ (t.pipe.get c v).dec = [] ∧
    (t.pipe.get c v).raw = (s.pipe.get c v).raw ∧ (t.pipe.get c v).sym = (s.pipe.get c v).sym) _ _ ?_ _ ?_
  · intro t d _ ht
    have h := drainCand_streams (c := c) (v := v) (hdlcBit c v d t)
    simp only [hdlcBit, setPipe_pipe, PerPipe.get_set_same] at h ⊢
    exact ⟨h.1, h.2.1.trans ht.2.1, h.2.2.1.trans ht.2.2.1, h.2.2.2.trans ht.2.2.2⟩
  · simp [hc]

/-- Draining the raw bits leaves none, and none in the streams behind where there were none. -/
theorem drainRaw_streams (s : State) (hc : (s.pipe.get c v).cand = []) (hd : (s.pipe.get c v).dec = []) :
    ((drainRaw c v s).pipe.get c v).cand = [] ∧ ((drainRaw c v s).pipe.get c v).dec = [] ∧
    ((drainRaw c v s).pipe.get c v).raw = [] ∧
    ((drainRaw c v s).pipe.get c v).sym = (s.pipe.get c v).sym := by
  refine foldl_keeps (fun t => (t.pipe.get c v).cand = [] ∧ (t.pipe.get c v).dec = [] ∧
    (t.pipe.get c v).raw = [] ∧ (t.pipe.get c v).sym = (s.pipe.get c v).sym) _ _ ?_ _ ?_
  · intro t r _ ht
    have h := drainDec_streams (c := c) (v := v) (nrziBit c v r t) (by simp [nrziBit, ht.1])
    simp only [nrziBit, setPipe_pipe, PerPipe.get_set_same] at h ⊢
    exact ⟨h.1, h.2.1, h.2.2.1.trans ht.2.2.1, h.2.2.2.trans ht.2.2.2⟩
  · simp [hc, hd]

/-- Draining the SymbolStream leaves none, and none in the streams behind where there were none. -/
theorem drainSym_streams (s : State) (hc : (s.pipe.get c v).cand = []) (hd : (s.pipe.get c v).dec = [])
    (hr : (s.pipe.get c v).raw = []) :
    ((drainSym c v s).pipe.get c v).cand = [] ∧ ((drainSym c v s).pipe.get c v).dec = [] ∧
    ((drainSym c v s).pipe.get c v).raw = [] ∧ ((drainSym c v s).pipe.get c v).sym = [] := by
  refine foldl_keeps (fun t => (t.pipe.get c v).cand = [] ∧ (t.pipe.get c v).dec = [] ∧
    (t.pipe.get c v).raw = [] ∧ (t.pipe.get c v).sym = []) _ _ ?_ _ ?_
  · intro t e _ ht
    have h := drainRaw_streams (c := c) (v := v) (synStep c v e t)
      (by simp [synStep, ht.1]) (by simp [synStep, ht.2.1])
    simp only [synStep, setPipe_pipe, PerPipe.get_set_same] at h ⊢
    exact ⟨h.1, h.2.1, h.2.2.1, h.2.2.2.trans ht.2.2.2⟩
  · simp [hc, hd, hr]

/-- DEM adds one element to the SymbolStream and leaves the streams behind. -/
theorem demStep_streams (z : Sample) (s : State) :
    ((demStep c v z s).pipe.get c v).cand = (s.pipe.get c v).cand ∧
    ((demStep c v z s).pipe.get c v).dec = (s.pipe.get c v).dec ∧
    ((demStep c v z s).pipe.get c v).raw = (s.pipe.get c v).raw := by
  cases v <;> simp [demStep, demNcoh, demCoh, demChal, emitSym]

/-- A sample leaves no element in the pipeline's streams where there was none behind DEM. -/
theorem pipeSample_streams (z : Sample) (s : State) (hc : (s.pipe.get c v).cand = [])
    (hd : (s.pipe.get c v).dec = []) (hr : (s.pipe.get c v).raw = []) :
    ((pipeSample c v z s).pipe.get c v).cand = [] ∧ ((pipeSample c v z s).pipe.get c v).dec = [] ∧
    ((pipeSample c v z s).pipe.get c v).raw = [] ∧ ((pipeSample c v z s).pipe.get c v).sym = [] := by
  have h := demStep_streams (c := c) (v := v) z (countSample c v s)
  simp only [countSample, setPipe_pipe, PerPipe.get_set_same] at h
  exact drainSym_streams _ (h.1.trans hc) (h.2.1.trans hd) (h.2.2.trans hr)

/-- The streams of `P[c][v]` hold nothing. -/
def Drained (c : Chan) (v : Variant) (s : State) : Prop :=
  (s.pipe.get c v).cand = [] ∧ (s.pipe.get c v).dec = [] ∧ (s.pipe.get c v).raw = [] ∧
    (s.pipe.get c v).sym = []

theorem streamsPending_eq_false (c : Chan) (v : Variant) (s : State) :
    streamsPending (s.pipe.get c v) = false ↔ Drained c v s := by
  simp [streamsPending, Drained, and_comm]

/-- Samples leave the streams empty. -/
theorem pipeSamples_drained (zs : List Sample) (s : State) (h : Drained c v s) :
    Drained c v (pipeSamples c v zs s) :=
  foldl_keeps (Drained c v) _ _ (fun t z _ ht => pipeSample_streams z t ht.1 ht.2.1 ht.2.2.1) s h

/-- A pipeline that may step empties its streams, or takes a block only where they are empty. -/
theorem pipeBegin_drained (s : State) (hm : pipeMayStep c v s = true) :
    Drained c v (pipeBegin c v s).2 := by
  unfold pipeBegin
  simp only [hm, if_true]
  split
  · have h1 := drainCand_streams (c := c) (v := v) s
    have h2 := drainDec_streams (c := c) (v := v) _ h1.1
    have h3 := drainRaw_streams (c := c) (v := v) _ h2.1 h2.2.1
    exact drainSym_streams _ h3.1 h3.2.1 h3.2.2.1
  · next hp =>
    have hp' := (streamsPending_eq_false c v s).1 (by simpa using hp)
    split
    · exact hp'
    · simpa [Drained] using hp'

/-- A pipeline that may step leaves its streams empty if they were, and if not, works them off. -/
theorem pipeStep_streams (s : State) (hm : pipeMayStep c v s = true) : Drained c v (pipeStep c v s) :=
  pipeSamples_drained _ _ (pipeBegin_drained s hm)

/-! ### The frame -/

/-- `t` differs from `s` only in what the step of `P[c][v]` may write (60_exceptions.md R277). -/
structure PipeFrame (c : Chan) (v : Variant) (s t : State) : Prop where
  rest : t = { s with
    kern := s.kern.set c (t.kern.get c)
    pipe := s.pipe.set c v (t.pipe.get c v)
    ofifo := t.ofifo
    overrun := t.overrun
    glob := { s.glob with overrunDrops := t.glob.overrunDrops } }
  ncoh : v ≠ .ncoh → (t.kern.get c).ncoh = (s.kern.get c).ncoh
  coh : v ≠ .coh → (t.kern.get c).coh = (s.kern.get c).coh
  chal : v ≠ .chal → (t.kern.get c).chal = (s.kern.get c).chal
  ofifo : ∃ new, t.ofifo = s.ofifo ++ new

theorem PipeFrame.refl (s : State) : PipeFrame c v s s where
  rest := by simp
  ncoh _ := rfl
  coh _ := rfl
  chal _ := rfl
  ofifo := ⟨[], by simp⟩

theorem PipeFrame.trans {s t u : State} (h : PipeFrame c v s t) (h' : PipeFrame c v t u) :
    PipeFrame c v s u where
  rest := by
    have e := h'.rest
    rw [h.rest] at e
    simpa using e
  ncoh n := (h'.ncoh n).trans (h.ncoh n)
  coh n := (h'.coh n).trans (h.coh n)
  chal n := (h'.chal n).trans (h.chal n)
  ofifo := by
    obtain ⟨x, hx⟩ := h.ofifo
    obtain ⟨y, hy⟩ := h'.ofifo
    exact ⟨x ++ y, by rw [hy, hx, List.append_assoc]⟩

theorem PipeFrame.setPipe (s : State) (p : Pipe) : PipeFrame c v s (s.setPipe c v p) where
  rest := by simp [State.setPipe]
  ncoh _ := rfl
  coh _ := rfl
  chal _ := rfl
  ofifo := ⟨[], by simp⟩

theorem PipeFrame.overrun (s : State) : PipeFrame c v s (raise .overrun s) where
  rest := by simp [raise]
  ncoh _ := rfl
  coh _ := rfl
  chal _ := rfl
  ofifo := ⟨[], by simp⟩

theorem PipeFrame.pushFrame (rec : List Word) (s : State) : PipeFrame c v s (pushFrame rec s) := by
  unfold Sys2Proof.Machine.pushFrame
  split
  · exact PipeFrame.overrun s
  · exact { rest := by simp, ncoh := fun _ => rfl, coh := fun _ => rfl, chal := fun _ => rfl,
            ofifo := ⟨[rec], rfl⟩ }

theorem PipeFrame.valFrame (f : CandFrame) (s : State) : PipeFrame f.chan f.var s (valFrame f s) := by
  unfold Sys2Proof.Machine.valFrame setCnt
  simp only []
  split
  · exact PipeFrame.setPipe s _
  · split
    · exact PipeFrame.setPipe s _
    · exact (PipeFrame.setPipe s _).trans (PipeFrame.pushFrame _ _)

theorem PipeFrame.demStep (z : Sample) (s : State) : PipeFrame c v s (demStep c v z s) := by
  cases v <;> refine PipeFrame.trans (t := s.setKern c _) ?_ (PipeFrame.setPipe _ _) <;>
    exact { rest := by simp [State.setKern], ncoh := by simp, coh := by simp, chal := by simp,
            ofifo := ⟨[], by simp⟩ }

/-- What `P[c][v]` writes from `s` on, its waiting CandidateFrames being its own, is kept in its frame. -/
theorem PipeFrame.kept (c : Chan) (v : Variant) (s : State) :
    BlockKept c v (fun f => f.chan = c ∧ f.var = v)
      (fun t => PipeFrame c v s t ∧ ∀ f ∈ (t.pipe.get c v).cand, f.chan = c ∧ f.var = v) := by
  have set : ∀ (t : State) (p : Pipe), PipeFrame c v s t →
      (∀ f ∈ p.cand, f.chan = c ∧ f.var = v) →
      PipeFrame c v s (t.setPipe c v p) ∧
        ∀ f ∈ ((t.setPipe c v p).pipe.get c v).cand, f.chan = c ∧ f.var = v :=
    fun t p ht hp => ⟨ht.trans (PipeFrame.setPipe t p), by simpa using hp⟩
  refine ⟨⟨fun t ht => ht.2, ?_, ?_, ?_, ?_, ?_, ?_, ?_, ?_⟩, ?_, ?_, ?_⟩
  · intro t ht; exact set t _ ht.1 ht.2
  · intro t ht; exact set t _ ht.1 ht.2
  · intro t ht; exact set t _ ht.1 ht.2
  · intro t ht; exact set t _ ht.1 (by simp)
  · intro t e ht; exact set t _ ht.1 ht.2
  · intro t r ht; exact set t _ ht.1 ht.2
  · intro t d ht
    refine set t _ ht.1 ?_
    intro f hf
    rcases List.mem_append.1 hf with hf | hf
    · exact ht.2 f hf
    · revert hf
      cases (hdlcTrans t.cfg d (t.pipe.get c v).dfr).2 <;> simp [framesOf]
      rintro rfl
      exact ⟨rfl, rfl⟩
  · rintro t f ⟨rfl, rfl⟩ ht
    refine ⟨ht.1.trans (PipeFrame.valFrame f t), ?_⟩
    obtain ⟨k, hk⟩ := valFrame_pipe f t f.chan f.var
    rw [hk]
    exact ht.2
  · intro t b rest _ ht; exact set t _ ht.1 ht.2
  · intro t ht; exact set t _ ht.1 ht.2
  · intro t z ht
    refine ⟨ht.1.trans (PipeFrame.demStep z t), ?_⟩
    rw [(demStep_streams z t).1]
    exact ht.2

/-- The step of a pipeline whose waiting CandidateFrames are its own writes nothing outside its frame. -/
theorem PipeFrame.pipeStep (s : State) (h : ∀ f ∈ (s.pipe.get c v).cand, f.chan = c ∧ f.var = v) :
    PipeFrame c v s (pipeStep c v s) :=
  (pipeStep_keeps (PipeFrame.kept c v s) s ⟨PipeFrame.refl s, h⟩).1

end Sys2Proof.Machine
end

