-- ==== Sys2Proof/Laws/Step.lean ====
section
/-!
SUPPORT. What one step of the machine can do, once: the inversion of `step`, and of the operations CP runs.
-/

namespace Sys2Proof.Machine

open Sys2Proof

/-- `t` is `s` with the script, its counter and CMD moved on. -/
def MovedOn (s t : State) : Prop := ∃ ms n ps, t = { s with script := ms, tick := n, cmd := ps }

/-- The ten host commands. -/
def IsCommand : Instr → Prop
  | .nop _ => True
  | .sreset _ => True
  | .cfgwr _ _ _ => True
  | .regrd _ _ => True
  | .start _ => True
  | .stop _ => True
  | .fence _ => True
  | .block _ _ _ => True
  | .eos _ => True
  | .frpop _ => True
  | .condSample _ => False
  | .demNcoh _ _ => False
  | .demCoh _ _ => False
  | .demChal _ _ => False
  | .synStep _ _ _ => False
  | .nrziBit _ _ _ => False
  | .hdlcBit _ _ _ => False
  | .valFrame _ => False

/-- A packet decodes to nothing but a command. -/
theorem decodePacket_isCommand {p : Packet} {i : Instr} (h : decodePacket p = .instr i) : IsCommand i := by
  have hH : ∀ j, IsCommand j → decodeH p j = .instr i → IsCommand i := by
    intro j hj e
    unfold decodeH at e
    split at e <;> cases e
    exact hj
  have hRW : ∀ j : Word → Instr, (∀ w, IsCommand (j w)) → decodeRW p j = .instr i → IsCommand i := by
    intro j hj e
    unfold decodeRW at e
    split at e <;> cases e
    exact hj _
  unfold decodePacket at h
  simp only [] at h
  split at h
  · cases h
  · exact hH _ (by exact trivial) h
  · exact hH _ (by exact trivial) h
  · exact hRW _ (fun _ => by exact trivial) h
  · exact hH _ (by exact trivial) h
  · exact hH _ (by exact trivial) h
  · exact hH _ (by exact trivial) h
  · exact hH _ (by exact trivial) h
  · cases h; trivial
  · exact hH _ (by exact trivial) h
  · exact hH _ (by exact trivial) h

/-- What CP's step can do (45_host_commands.md R240). -/
theorem cpStep_cases {s t : State} (h : cpStep s = .next t) :
    (shutdownEnabled s = true ∧ t = shutdown s) ∨ t = s ∨
    (shutdownEnabled s = false ∧ ∃ p ps, s.cmd = p :: ps ∧
      ((∃ code, t = raiseCmdErr code { s with cmd := ps }) ∨
        ∃ i, decodePacket p = .instr i ∧ ready i s = true ∧ exec i { s with cmd := ps } = .next t)) := by
  unfold cpStep at h
  split at h
  · next hs => cases h; exact .inl ⟨hs, rfl⟩
  · next hs =>
    have hs' : shutdownEnabled s = false := by simpa using hs
    split at h
    · cases h; exact .inr (.inl rfl)
    · next p ps hp =>
      split at h
      · next hr =>
        refine .inr (.inr ⟨hs', p, ps, hp, ?_⟩)
        unfold execPacket at h
        unfold packetReady at hr
        split at h
        · cases h; exact .inl ⟨_, rfl⟩
        · cases h; exact .inl ⟨_, rfl⟩
        · next i hi =>
          rw [hi] at hr
          exact .inr ⟨i, hi, hr, h⟩
      · cases h; exact .inr (.inl rfl)

/-- Everything one step can do: a shutdown step, nothing, a packet rejected, a command executed, a step of
a pipeline, overlapping block steps, or an action of the HOST, on the state with the script and CMD moved on. -/
theorem step_cases {s t : State} (h : step s = .next t) : ∃ u, MovedOn s u ∧
    ((shutdownEnabled u = true ∧ t = shutdown u) ∨ t = u ∨ (∃ code, t = raiseCmdErr code u) ∨
      (∃ i, IsCommand i ∧ exec i u = .next t) ∨ (∃ c v, t = pipeStep c v u) ∨
      (∃ order, t = overlapSteps order u) ∨ ∃ a, t = hostAct a u) := by
  have turn : ∀ (a : Turn) (r : State), MovedOn s r → turnStep a r = .next t → ∃ u, MovedOn s u ∧
      ((shutdownEnabled u = true ∧ t = shutdown u) ∨ t = u ∨ (∃ code, t = raiseCmdErr code u) ∨
        (∃ i, IsCommand i ∧ exec i u = .next t) ∨ (∃ c v, t = pipeStep c v u) ∨
        (∃ order, t = overlapSteps order u) ∨ ∃ a, t = hostAct a u) := by
    rintro a r ⟨ms, n, ps, rfl⟩ h
    rcases a with (_ | ⟨c, v⟩) | order
    case agent.cp =>
      rcases cpStep_cases h with ⟨h1, h2⟩ | h1 | ⟨_, p, qs, _, h2⟩
      · exact ⟨_, ⟨ms, n, ps, rfl⟩, .inl ⟨h1, h2⟩⟩
      · exact ⟨_, ⟨ms, n, ps, rfl⟩, .inr (.inl h1)⟩
      · rcases h2 with h2 | ⟨i, hi, _, h3⟩
        · exact ⟨_, ⟨ms, n, qs, rfl⟩, .inr (.inr (.inl h2))⟩
        · exact ⟨_, ⟨ms, n, qs, rfl⟩, .inr (.inr (.inr (.inl ⟨i, decodePacket_isCommand hi, h3⟩)))⟩
    case agent.pipe =>
      cases h
      exact ⟨_, ⟨ms, n, ps, rfl⟩, .inr (.inr (.inr (.inr (.inl ⟨c, v, rfl⟩))))⟩
    case overlap =>
      cases h
      exact ⟨_, ⟨ms, n, ps, rfl⟩, .inr (.inr (.inr (.inr (.inr (.inl ⟨order, rfl⟩)))))⟩
  unfold step at h
  split at h
  · next m ms _ =>
    cases m with
    | agent a => exact turn (.agent a) _ ⟨ms, s.tick, s.cmd, rfl⟩ h
    | overlap order => exact turn (.overlap order) _ ⟨ms, s.tick, s.cmd, rfl⟩ h
    | host a =>
      cases h
      exact ⟨_, ⟨ms, s.tick, s.cmd, rfl⟩, .inr (.inr (.inr (.inr (.inr (.inr ⟨a, rfl⟩)))))⟩
  · exact turn _ _ ⟨s.script, s.tick + 1, s.cmd, rfl⟩ h

/-- What an executed command can do, by its case in the rules (45_host_commands.md R241 to R252). -/
theorem exec_command_cases {i : Instr} {s t : State} (hi : IsCommand i) (h : exec i s = .next t) :
    t = s ∨ t = softReset s ∨ (∃ code, t = raiseCmdErr code s) ∨
    (∃ r val, regAccess r ≠ .ro ∧ (regAccess r = .cfg → s.life = .idle) ∧ t = writeReg r val s) ∨
    (∃ w, t = pushRsp [w] s ∨ ∃ code, t = pushRsp [w] (raiseCmdErr code s)) ∨
    (s.life = .idle ∧ cfgLegal s.cfg = true ∧ t = { s with life := .running }) ∨
    (s.life = .idle ∧ cfgLegal s.cfg = false ∧ t = raiseFatal .configInvalid s) ∨
    ((s.life = .idle ∨ s.life = .running) ∧ t = shutdown s) ∨
    (s.life = .stopped ∧ t = raise .shutdownDrop s) ∨
    (s.life = .running ∧ ∃ code, t = raise (.blkMalformed code) s) ∨
    (s.life = .running ∧ ∃ body, t = condAccepted body s) ∨
    (s.life = .running ∧ t = raiseFatal .srcClosed s) ∨
    (∃ f rest, s.ofifo = f :: rest ∧ t = pushRsp f { s with ofifo := rest }) := by
  cases i with
  | nop a => cases h; exact .inl rfl
  | sreset a => cases h; exact .inr (.inl rfl)
  | cfgwr a idx val =>
    unfold exec execCfgwr at h
    simp only [] at h
    split at h
    · cases h; exact .inr (.inr (.inl ⟨_, rfl⟩))
    · next r _ =>
      cases h
      unfold cfgWrite
      cases hr : regAccess r with
      | ro => exact .inr (.inr (.inl ⟨_, rfl⟩))
      | rw => exact .inr (.inr (.inr (.inl ⟨r, val, by simp [hr], by simp [hr], rfl⟩)))
      | w1c => exact .inr (.inr (.inr (.inl ⟨r, val, by simp [hr], by simp [hr], rfl⟩)))
      | cfg =>
        simp only []
        split
        · next hl => exact .inr (.inr (.inr (.inl ⟨r, val, by simp [hr], fun _ => hl, rfl⟩)))
        · exact .inr (.inr (.inl ⟨_, rfl⟩))
  | regrd a idx =>
    unfold exec execRegrd at h
    simp only [] at h
    split at h <;> cases h
    · exact .inr (.inr (.inr (.inr (.inl ⟨_, .inr ⟨_, rfl⟩⟩))))
    · exact .inr (.inr (.inr (.inr (.inl ⟨_, .inl rfl⟩))))
  | start a =>
    unfold exec execStart at h
    simp only [] at h
    split at h
    · next hl =>
      split at h
      · next hc => cases h; exact .inr (.inr (.inr (.inr (.inr (.inl ⟨hl, hc, rfl⟩)))))
      · next hc =>
        cases h
        exact .inr (.inr (.inr (.inr (.inr (.inr (.inl ⟨hl, by simpa using hc, rfl⟩))))))
    all_goals cases h; exact .inr (.inr (.inl ⟨_, rfl⟩))
  | stop a =>
    unfold exec execStop at h
    simp only [] at h
    split at h <;> cases h
    · next hl => exact .inr (.inr (.inr (.inr (.inr (.inr (.inr (.inl ⟨.inl hl, rfl⟩)))))))
    · next hl => exact .inr (.inr (.inr (.inr (.inr (.inr (.inr (.inl ⟨.inr hl, rfl⟩)))))))
    · exact .inl rfl
    · exact .inl rfl
  | fence a => cases h; exact .inl rfl
  | block chid len body =>
    unfold exec execBlock at h
    simp only [] at h
    split at h <;> cases h
    · exact .inr (.inr (.inl ⟨_, rfl⟩))
    · next hl =>
      unfold condBlock
      split
      · exact .inr (.inr (.inr (.inr (.inr (.inr (.inr (.inr (.inr (.inl ⟨hl, _, rfl⟩)))))))))
      · exact .inr (.inr (.inr (.inr (.inr (.inr (.inr (.inr (.inr (.inr (.inl ⟨hl, body, rfl⟩))))))))))
    · next hl => exact .inr (.inr (.inr (.inr (.inr (.inr (.inr (.inr (.inl ⟨hl, rfl⟩))))))))
    · exact .inr (.inr (.inl ⟨_, rfl⟩))
  | eos a =>
    unfold exec execEos at h
    simp only [] at h
    split at h <;> cases h
    · exact .inr (.inr (.inl ⟨_, rfl⟩))
    · next hl =>
      exact .inr (.inr (.inr (.inr (.inr (.inr (.inr (.inr (.inr (.inr (.inr (.inl ⟨hl, rfl⟩)))))))))))
    · exact .inl rfl
    · exact .inl rfl
  | frpop a =>
    unfold exec execFrpop at h
    simp only [] at h
    split at h <;> cases h
    · exact .inr (.inr (.inr (.inr (.inl ⟨_, .inl rfl⟩))))
    · next f rest hf =>
      exact .inr (.inr (.inr (.inr (.inr (.inr (.inr (.inr (.inr (.inr (.inr (.inr ⟨f, rest, hf, rfl⟩)))))))))))
  | condSample x => exact hi.elim
  | demNcoh c z => exact hi.elim
  | demCoh c z => exact hi.elim
  | demChal c z => exact hi.elim
  | synStep c v e => exact hi.elim
  | nrziBit c v r => exact hi.elim
  | hdlcBit c v d => exact hi.elim
  | valFrame f => exact hi.elim

end Sys2Proof.Machine
end

