-- ==== Sys2Proof/Laws/Progress.lean ====
section
/-!
SUPPORT. What the turns of a run give: the fair schedule, what every turn leaves alone, and how the queues
shrink (70_reset_and_hazards.md R327).
-/

namespace Sys2Proof.Machine

open Sys2Proof

/-! ### The fair schedule -/

/-- The free turns before a due turn pass. -/
theorem due_add {n k m : Nat} (h : due n = (k, m)) : due (n + m) = (k, 0) := by
  induction m generalizing n with
  | zero => exact h
  | succ m ih =>
    have h1 : due (n + 1) = (k, m) := by simp only [due, h]
    have h2 := ih h1
    rwa [Nat.add_assoc, Nat.add_comm 1 m] at h2

/-- Every later due turn comes. -/
theorem due_reaches (n j : Nat) : ∃ m, n ≤ m ∧ due m = ((due n).1 + j, 0) := by
  induction j with
  | zero => exact ⟨n + (due n).2, Nat.le_add_right _ _, due_add rfl⟩
  | succ j ih =>
    obtain ⟨m, hm, hd⟩ := ih
    have h1 : due (m + 1) = ((due n).1 + j + 1, Config.patience ((due n).1 + j + 1)) := by
      simp only [due, hd]
    exact ⟨_, by omega, due_add h1⟩

/-- The place of an agent in the round of due turns. -/
theorem dueAgent_all (a : Agent) : ∃ i, ∀ k, dueAgent (7 * k + i) = a := by
  have h : ∀ i k, i < 7 → (7 * k + i) % 7 = i := fun i k hi => by omega
  rcases a with _ | ⟨c, v⟩
  · exact ⟨0, fun k => by simp [dueAgent]⟩
  · cases c <;> cases v
    · exact ⟨1, fun k => by simp [dueAgent, h 1 k (by decide)]⟩
    · exact ⟨2, fun k => by simp [dueAgent, h 2 k (by decide)]⟩
    · exact ⟨3, fun k => by simp [dueAgent, h 3 k (by decide)]⟩
    · exact ⟨4, fun k => by simp [dueAgent, h 4 k (by decide)]⟩
    · exact ⟨5, fun k => by simp [dueAgent, h 5 k (by decide)]⟩
    · exact ⟨6, fun k => by simp [dueAgent, h 6 k (by decide)]⟩

/-- Every agent's turn comes again and again. -/
theorem turnAt_fair (a : Agent) (n : Nat) : ∃ m, n ≤ m ∧ turnAt m = .agent a := by
  obtain ⟨i, hi⟩ := dueAgent_all a
  obtain ⟨m, hm, hd⟩ := due_reaches n (6 * (due n).1 + i)
  refine ⟨m, hm, ?_⟩
  have e : (due n).1 + (6 * (due n).1 + i) = 7 * (due n).1 + i := by omega
  rw [e] at hd
  simp only [turnAt, hd, hi]

/-- A step with the script used up is the turn of the schedule. -/
theorem step_of_script_nil {s : State} (h : s.script = []) :
    step s = turnStep (turnAt s.tick) { s with tick := s.tick + 1 } := by
  unfold step
  rw [h]

/-! ### What the pipelines leave alone -/

/-- `t` differs from `s` only in what pipelines write (60_exceptions.md R277). -/
def PipelinesWrote (s t : State) : Prop :=
  ∃ kern pipe rec ov n, t = { s with
    kern := kern, pipe := pipe, ofifo := rec, overrun := ov
    glob := { s.glob with overrunDrops := n } }

theorem PipelinesWrote.refl (s : State) : PipelinesWrote s s :=
  ⟨s.kern, s.pipe, s.ofifo, s.overrun, s.glob.overrunDrops, rfl⟩

theorem PipelinesWrote.trans {s t u : State} (h : PipelinesWrote s t) (h' : PipelinesWrote t u) :
    PipelinesWrote s u := by
  obtain ⟨a, b, c, d, e, rfl⟩ := h
  obtain ⟨a', b', c', d', e', rfl⟩ := h'
  exact ⟨a', b', c', d', e', rfl⟩

theorem PipelinesWrote.of_frame {c : Chan} {v : Variant} {s t : State} (h : PipeFrame c v s t) :
    PipelinesWrote s t := by
  refine ⟨_, _, _, _, _, h.rest⟩

/-- Every part of every pipeline's step writes nothing else. -/
theorem PipelinesWrote.kept (s : State) (c : Chan) (v : Variant) :
    BlockKept c v (fun _ => True) (PipelinesWrote s) := by
  have set : ∀ t p, PipelinesWrote s t → PipelinesWrote s (t.setPipe c v p) :=
    fun t p h => h.trans (.of_frame (PipeFrame.setPipe t p))
  refine ⟨⟨fun _ _ _ _ => trivial, fun t => set t _, fun t => set t _, fun t => set t _, fun t => set t _,
    fun t _ => set t _, fun t _ => set t _, fun t _ => set t _, fun t f _ h => h.trans (.of_frame
      (PipeFrame.valFrame f t))⟩, fun t _ _ _ => set t _, fun t => set t _, fun t z h => h.trans (.of_frame
      (PipeFrame.demStep (c := c) (v := v) z t))⟩

theorem pipeStep_wrote (c : Chan) (v : Variant) (s : State) : PipelinesWrote s (pipeStep c v s) :=
  pipeStep_keeps (PipelinesWrote.kept s c v) s (.refl s)

theorem overlapSteps_wrote (order : List (Chan × Variant)) (s : State) :
    PipelinesWrote s (overlapSteps order s) :=
  overlapSteps_keeps (PipelinesWrote.kept s) order s (.refl s)

/-! ### Queues shrink -/

/-- Every queue of `t` is what is left of that of `s`. -/
def QueuesLeft (s t : State) : Prop := ∀ c v, (t.pipe.get c v).q <:+ (s.pipe.get c v).q

theorem QueuesLeft.setPipe {s t : State} (h : QueuesLeft s t) {c : Chan} {v : Variant} {p : Pipe}
    (hp : p.q <:+ (t.pipe.get c v).q) : QueuesLeft s (t.setPipe c v p) := by
  intro d w
  by_cases e : (d, w) = (c, v)
  · obtain ⟨rfl, rfl⟩ := Prod.mk.inj e
    simpa using hp.trans (h d w)
  · simpa [PerPipe.get_set_other _ _ e] using h d w

/-- Every part of every pipeline's step only shortens queues. -/
theorem QueuesLeft.kept (s : State) (c : Chan) (v : Variant) :
    BlockKept c v (fun _ => True) (QueuesLeft s) := by
  have same : ∀ t p, p.q = (t.pipe.get c v).q → QueuesLeft s t → QueuesLeft s (t.setPipe c v p) :=
    fun t p e h => h.setPipe (e ▸ List.suffix_refl _)
  refine ⟨⟨fun _ _ _ _ => trivial, fun t => same t _ rfl, fun t => same t _ rfl, fun t => same t _ rfl,
    fun t => same t _ rfl, fun t _ => same t _ rfl, fun t _ => same t _ rfl, fun t _ => same t _ rfl, ?_⟩,
    ?_, fun t => same t _ rfl, ?_⟩
  · intro t f _ h d w
    obtain ⟨k, hk⟩ := valFrame_pipe f t d w
    rw [hk]
    exact h d w
  · intro t b rest hq h
    exact h.setPipe (by rw [hq]; exact List.suffix_cons _ _)
  · intro t z h
    cases v <;> exact QueuesLeft.setPipe (t := t.setKern c _) h (List.suffix_refl _)

theorem pipeStep_queues (c : Chan) (v : Variant) (s : State) : QueuesLeft s (pipeStep c v s) :=
  pipeStep_keeps (QueuesLeft.kept s c v) s fun _ _ => List.suffix_refl _

theorem overlapSteps_queues (order : List (Chan × Variant)) (s : State) :
    QueuesLeft s (overlapSteps order s) :=
  overlapSteps_keeps (QueuesLeft.kept s) order s fun _ _ => List.suffix_refl _

/-- A pipeline that may step, its streams empty, takes a block off its queue. -/
theorem pipeStep_pops {c : Chan} {v : Variant} {s : State} {b : Block} {rest : List Block}
    (hm : pipeMayStep c v s = true) (hs : streamsPending (s.pipe.get c v) = false)
    (hq : (s.pipe.get c v).q = b :: rest) : ((pipeStep c v s).pipe.get c v).q <:+ rest := by
  have e : pipeStep c v s =
      pipeSamples c v b.samples (s.setPipe c v { s.pipe.get c v with q := rest }) := by
    simp [pipeStep, pipeBegin, hm, hs, hq]
  have h := pipeSamples_keeps (QueuesLeft.kept (s.setPipe c v { s.pipe.get c v with q := rest }) c v)
    b.samples _ fun _ _ => List.suffix_refl _
  rw [e]
  simpa using h c v

/-! ### What every turn leaves alone -/

/-- `t` has the script and the counter of `s`. -/
def SameRun (s t : State) : Prop := t.script = s.script ∧ t.tick = s.tick

theorem PipelinesWrote.sameRun {s t : State} (h : PipelinesWrote s t) : SameRun s t := by
  obtain ⟨_, _, _, _, _, rfl⟩ := h
  exact ⟨rfl, rfl⟩

/-- No command changes what comes next. -/
theorem exec_sameRun {i : Instr} {s t : State} (hi : IsCommand i) (h : exec i s = .next t) :
    SameRun s t := by
  rcases exec_command_cases hi h with h | h | ⟨_, h⟩ | ⟨r, val, _, _, h⟩ | ⟨_, h | ⟨_, h⟩⟩ | ⟨_, _, h⟩ |
    ⟨_, _, h⟩ | ⟨_, h⟩ | ⟨_, h⟩ | ⟨_, _, h⟩ | ⟨_, body, h⟩ | ⟨_, h⟩ | ⟨_, _, _, h⟩
  case inr.inr.inr.inl => subst h; cases r <;> exact ⟨rfl, rfl⟩
  case inr.inr.inr.inr.inr.inr.inr.inl => subst h; rw [shutdown_eq]; exact ⟨rfl, rfl⟩
  case inr.inr.inr.inr.inr.inr.inr.inr.inr.inr.inl =>
    subst h
    obtain ⟨_, _, _, _, e⟩ := condAccepted_frame body s
    rw [e]
    exact ⟨rfl, rfl⟩
  all_goals subst h; exact ⟨rfl, rfl⟩

/-- No turn changes what comes after it. -/
theorem turnStep_sameRun {a : Turn} {s t : State} (h : turnStep a s = .next t) : SameRun s t := by
  rcases a with (_ | ⟨c, v⟩) | order
  case agent.cp =>
    rcases cpStep_cases h with ⟨_, h⟩ | h | ⟨_, p, ps, _, ⟨_, h⟩ | ⟨i, hi, _, h⟩⟩
    · subst h; rw [shutdown_eq]; exact ⟨rfl, rfl⟩
    · subst h; exact ⟨rfl, rfl⟩
    · subst h; exact ⟨rfl, rfl⟩
    · exact exec_sameRun (s := { s with cmd := ps }) (decodePacket_isCommand hi) h
  case agent.pipe => cases h; exact (pipeStep_wrote c v s).sameRun
  case overlap => cases h; exact (overlapSteps_wrote order s).sameRun

end Sys2Proof.Machine
end

