-- ==== Sys2Proof/Laws/Stages.lean ====
section
/-!
SUPPORT. What the shared operations of SYN.STEP, HDLC.BIT and VAL.FRAME do, once each.
-/

namespace Sys2Proof.Machine

open Sys2Proof

/-! ### SYN.STEP -/

/-- A call that is not a strobe (42_synchroniser.md R172). -/
theorem synTrans_between (cfg : Cfg) (x : Int) (st : SynState) (h : st.tcnt.toInt + 16 < 80) :
    synTrans cfg x st =
      { st := { st with tcnt := BitVec.ofInt 8 (st.tcnt.toInt + 16), h2 := st.h1, h1 := BitVec.ofInt 16 x }
        bit := none, locked := false, unlocked := false } := by
  have h' : ¬Config.ticksPerSymbol ≤ st.tcnt.toInt + Config.ticksPerSample := by
    unfold Config.ticksPerSymbol Config.ticksPerSample
    omega
  unfold synTrans
  simp only []
  rw [if_neg h']
  rfl

/-- A strobe (42_synchroniser.md R172): the lock state machine runs once. -/
theorem synTrans_strobe (cfg : Cfg) (x : Int) (st : SynState) (h : 80 ≤ st.tcnt.toInt + 16) :
    synTrans cfg x st =
      let r := lockStep cfg (synSig cfg st.h1.toInt) (synPe cfg st.h2.toInt st.h1.toInt x)
        (decide (0 < st.h1.toInt))
        { st with tcnt :=
            BitVec.ofInt 8 (st.tcnt.toInt + 16 - 80 - (cfg.tgain.toNat : Int) * synTed st.h2.toInt x) }
      { r with st := synShift x r.st } := by
  have h' : Config.ticksPerSymbol ≤ st.tcnt.toInt + Config.ticksPerSample := h
  unfold synTrans
  simp only []
  rw [if_pos h']

/-- The lock state machine leaves the timing register and the history alone. -/
theorem lockStep_timing (cfg : Cfg) (sig pe r : Bool) (st : SynState) :
    (lockStep cfg sig pe r st).st.tcnt = st.tcnt ∧ (lockStep cfg sig pe r st).st.h1 = st.h1 ∧
      (lockStep cfg sig pe r st).st.h2 = st.h2 := by
  cases h : st.sstate <;> cases sig <;> cases pe <;> simp only [lockStep, h] <;>
    simp <;> split <;> simp

/-- A bit goes out exactly in LOCKED (42_synchroniser.md R175). -/
theorem lockStep_bit (cfg : Cfg) (sig pe r : Bool) (st : SynState) :
    (lockStep cfg sig pe r st).bit = if st.sstate = .locked then some r else none := by
  cases h : st.sstate <;> cases sig <;> cases pe <;> simp only [lockStep, h] <;>
    simp <;> split <;> simp

/-- The early/late decision by magnitudes (42_synchroniser.md R173). -/
theorem synTed_eq (early late : Int) : synTed early late =
    if early.natAbs < late.natAbs then 1 else if late.natAbs < early.natAbs then -1 else 0 := by
  unfold synTed sgn
  simp only [absI_eq]
  split <;> split <;> (try split) <;> (try split) <;> omega

theorem synTed_bounds (early late : Int) : -1 ≤ synTed early late ∧ synTed early late ≤ 1 :=
  sgn_bounds _

/-- Signal present (42_synchroniser.md R174). -/
theorem synSig_iff (cfg : Cfg) (on : Int) : synSig cfg on = true ↔ cfg.thSig.toNat ≤ on.natAbs := by
  unfold synSig
  rw [absI_eq, decide_eq_true_iff]
  exact Int.ofNat_le

/-- Phase error (42_synchroniser.md R174). -/
theorem synPe_iff (cfg : Cfg) (early on late : Int) : synPe cfg early on late = true ↔
    cfg.thSig.toNat ≤ on.natAbs ∧ (early * on < 0 ∨ late * on < 0) := by
  unfold synPe
  rw [Bool.and_eq_true, synSig_iff]
  simp

/-! ### HDLC.BIT -/

/-- The bits of the frame buffer after one is stored. -/
theorem fbufSet_getLsbD (f : BitVec 1030) {i : Nat} (hi : i < 1030) (b : Bool) (j : Nat) :
    (fbufSet f i b).getLsbD j = if j = i then b else f.getLsbD j := by
  unfold fbufSet
  by_cases hj : j < 1030
  · by_cases e : j = i
    · subst e
      cases b <;> simp [hj]
    · by_cases l : j < i
      · simp [hj, e, l]
      · have h0 : j - i ≠ 0 := by omega
        cases b <;> simp [hj, e, l, h0]
  · have hf : f.getLsbD j = false := BitVec.getLsbD_of_ge f j (by omega)
    have e : j ≠ i := by omega
    simp [hj, e, hf]

/-- The run counter after a bit (43_deframer.md R194). -/
theorem runUpdate_eq (b : Bool) (d : DfrState) : runUpdate b d = { d with
    runBit := b
    runLen := if b = d.runBit ∧ 0 < d.runLen.toNat then BitVec.ofNat 3 (min (d.runLen.toNat + 1) 7) else 1#3 } := by
  unfold runUpdate
  split
  · next h => rw [← h.1]
  · rfl

/-- A data bit in FILL with room in the buffer (43_deframer.md R195, R198, R201). -/
theorem append_room (b : Bool) (d : DfrState) (h : d.fstate = .fill) (hl : d.flen.toNat < 1030) :
    append b d = ({ d with fbuf := fbufSet d.fbuf d.flen.toNat b, flen := d.flen + 1#11 }, .quiet) := by
  have h' : ¬Config.fbufCap ≤ d.flen.toNat := by
    unfold Config.fbufCap
    omega
  unfold append
  rw [h]
  simp only []
  rw [if_neg h']

/-- A data bit in FILL with a full buffer (43_deframer.md R201). -/
theorem append_full (b : Bool) (d : DfrState) (h : d.fstate = .fill) (hl : 1030 ≤ d.flen.toNat) :
    append b d = (toSearch d, .malformed) := by
  have h' : Config.fbufCap ≤ d.flen.toNat := hl
  unfold append
  rw [h]
  simp only []
  rw [if_pos h']

/-- A data bit in SEARCH. -/
theorem append_search (b : Bool) (d : DfrState) (h : d.fstate = .search) : append b d = (d, .quiet) := by
  unfold append
  rw [h]

/-- The seven classes (43_deframer.md R193), by what each does. -/
theorem hdlcTrans_data (cfg : Cfg) (b : Bool) (d : DfrState) (h : onesRun d ≤ 4) :
    hdlcTrans cfg b d = append b (runUpdate b d) := by
  unfold hdlcTrans classify
  cases b <;> simp [h]

theorem hdlcTrans_five (cfg : Cfg) (b : Bool) (d : DfrState) (h : onesRun d = 5) :
    hdlcTrans cfg b d = (runUpdate b d, .quiet) := by
  unfold hdlcTrans classify
  cases b <;> simp [h]

theorem hdlcTrans_abort (cfg : Cfg) (d : DfrState) (h : 6 ≤ onesRun d) :
    hdlcTrans cfg true d = abortFrame (runUpdate true d) := by
  unfold hdlcTrans classify
  have h4 : ¬onesRun d ≤ 4 := by omega
  have h5 : onesRun d ≠ 5 := by omega
  simp [h4, h5]

theorem hdlcTrans_flag (cfg : Cfg) (d : DfrState) (h : onesRun d = 6) :
    hdlcTrans cfg false d = flagSeen cfg (runUpdate false d) := by
  unfold hdlcTrans classify
  simp [h]

theorem hdlcTrans_idle (cfg : Cfg) (d : DfrState) (h : 7 ≤ onesRun d) :
    hdlcTrans cfg false d = (runUpdate false d, .quiet) := by
  unfold hdlcTrans classify
  have h4 : ¬onesRun d ≤ 4 := by omega
  have h5 : onesRun d ≠ 5 := by omega
  have h6 : onesRun d ≠ 6 := by omega
  simp [h4, h5, h6]

/-- The length rule (43_deframer.md R199). -/
theorem lengthBad_iff (cfg : Cfg) (n : Nat) : lengthBad cfg n = false ↔
    24 ≤ n ∧ n % 8 = 0 ∧ n - 16 ≤ 1008 ∧ (cfg.sixbitCheck = 1#1 → (n - 16) % 6 = 0) := by
  unfold lengthBad
  simp only [Bool.or_eq_false_iff, decide_eq_false_iff_not, Bool.and_eq_false_iff]
  constructor
  · rintro ⟨⟨⟨h1, h2⟩, h3⟩, h4⟩
    have h3' : ¬1008 < n - 16 := h3
    refine ⟨by omega, by omega, by omega, fun h => ?_⟩
    rcases h4 with h4 | h4
    · exact absurd h h4
    · omega
  · rintro ⟨h1, h2, h3, h4⟩
    have h3' : ¬Config.maxPay < n - 16 := by
      unfold Config.maxPay
      omega
    refine ⟨⟨⟨by omega, by omega⟩, h3'⟩, ?_⟩
    by_cases h : cfg.sixbitCheck = 1#1
    · exact .inr (by have := h4 h; omega)
    · exact .inl h

/-! ### VAL.FRAME -/

theorem frameLenBad_iff (n : Nat) : frameLenBad n = true ↔ n < 24 ∨ n % 8 ≠ 0 ∨ 1024 < n := by
  unfold frameLenBad
  simp [or_assoc]

/-- A frame of an illegal length (44_validator.md R222). -/
theorem valFrame_bad (f : CandFrame) (s : State) (h : frameLenBad f.bits.length = true) :
    valFrame f s = setCnt f.chan f.var { (s.pipe.get f.chan f.var).cnt with
      malformed := incWord (s.pipe.get f.chan f.var).cnt.malformed } s := by
  unfold valFrame
  simp [h]

/-- A frame whose field does not match (44_validator.md R224). -/
theorem valFrame_crc (f : CandFrame) (s : State) (h : frameLenBad f.bits.length = false)
    (hc : fcs16 (payloadOf f.bits) ≠ fieldOf f.bits) :
    valFrame f s = setCnt f.chan f.var { (s.pipe.get f.chan f.var).cnt with
      crcFail := incWord (s.pipe.get f.chan f.var).cnt.crcFail } s := by
  unfold valFrame
  simp [h, hc]

/-- A frame that passes (44_validator.md R224). -/
theorem valFrame_valid (f : CandFrame) (s : State) (h : frameLenBad f.bits.length = false)
    (hc : fcs16 (payloadOf f.bits) = fieldOf f.bits) :
    valFrame f s = pushFrame (frameRecord f) (setCnt f.chan f.var { (s.pipe.get f.chan f.var).cnt with
      framesValid := incWord (s.pipe.get f.chan f.var).cnt.framesValid } s) := by
  unfold valFrame
  simp [h, hc]

/-- The bits of a packed word (20_memory.md R73). -/
theorem natOfBits_testBit (l : List Bool) (i : Nat) : (natOfBits l).testBit i = (l[i]?).getD false := by
  induction l generalizing i with
  | nil => simp [natOfBits]
  | cons b l ih =>
    cases i with
    | zero => cases b <;> simp [natOfBits, Nat.testBit_zero]
    | succ i =>
      rw [Nat.testBit_succ]
      have e : natOfBits (b :: l) / 2 = natOfBits l := by cases b <;> simp [natOfBits] <;> omega
      rw [e, ih]
      simp

theorem packBits_length (l : List Bool) : (packBits l).length = (l.length + 31) / 32 := by
  simp [packBits]

/-- Bit `i` of word `j` of a packed list is its element `32j + i`, or 0 beyond it. -/
theorem packWord_getLsbD (l : List Bool) (j : Nat) {i : Nat} (hi : i < 32) :
    (packWord l j).getLsbD i = (l[32 * j + i]?).getD false := by
  unfold packWord
  rw [BitVec.getLsbD_ofNat, natOfBits_testBit]
  simp [hi]

end Sys2Proof.Machine
end

