-- ==== Sys2Proof/Tests/Slice0.lean ====
section
/-!
SUPPORT. The model's own tests: ill-formed operations refused, words of the spec decoded, one step of each
operation against the values the spec gives, and a witness for the hypotheses of every obligation.
-/

namespace Sys2Proof.Tests

set_option Elab.async false

open Sys2Proof Sys2Proof.Machine

/-! ### Helpers -/

/-- The state after an operation that answers a next state. -/
def after (i : Instr) (s : State) : State :=
  match exec i s with
  | .next t => t
  | .fault _ => s
  | .refused _ => s

/-- The state after a step. -/
def stepped (s : State) : State :=
  match step s with
  | .next t => t
  | .fault _ => s
  | .refused _ => s

/-- A sample of two integers. -/
def smp (i q : Int) : Sample := { i := BitVec.ofInt 16 i, q := BitVec.ofInt 16 q }

/-- The reset state in another lifecycle state. -/
def living (l : Life) : State := { State.reset with life := l }

/-- A state whose pipeline `P[0][0]` is replaced. -/
def withPipe (p : Pipe) : State := State.reset.setPipe .ch0 .ncoh p

/-- A state with CP's turn next and a packet at the head of CMD. -/
def atCp (p : Packet) (s : State) : State := { s with script := [.agent .cp], cmd := [p] }

/-- A state with one block in `Q[0][0]` and that pipeline's turn next. -/
def atPipe (xs : List Sample) (l : Life) : State :=
  { (living l).setPipe .ch0 .ncoh
      { Pipe.reset with q := [{ chan := .ch0, seq := 0#32, rate := 48000#32, samples := xs }] } with
    script := [.agent (.pipe .ch0 .ncoh)] }

/-! ### Well-formedness -/

/-- A declared length of 0 (20_memory.md R74). -/
theorem test_wf_block_zero : WellFormed (.block 0#8 0#16 [0#32, 0#32]) = false := by decide

/-- A declared length above MAXBLK. -/
theorem test_wf_block_long : wfBlock 16385#16 [] = false := by decide

/-- Fewer samples than declared. -/
theorem test_wf_block_short : WellFormed (.block 0#8 2#16 [0#32, 48000#32, 1#32]) = false := by decide

/-- More samples than declared. -/
theorem test_wf_block_extra : WellFormed (.block 0#8 1#16 [0#32, 48000#32, 1#32, 2#32]) = false := by decide

theorem test_wf_block_good : WellFormed (.block 0#8 1#16 [0#32, 48000#32, 1#32]) = true := by decide

/-- Value 1 with confidence 0 (30_encoding.md R107). -/
theorem test_wf_symbol_zero : WellFormed (.synStep .ch0 .ncoh 0x8000#16) = false := by decide

/-- A frame of 16 bits (30_encoding.md R109). -/
theorem test_wf_frame_short :
    WellFormed (.valFrame ⟨List.replicate 16 false, .ch0, .ncoh, 0#64⟩) = false := by decide

/-- A frame of 25 bits. -/
theorem test_wf_frame_odd :
    WellFormed (.valFrame ⟨List.replicate 25 false, .ch0, .ncoh, 0#64⟩) = false := by decide

/-- A frame of 1032 bits. -/
theorem test_wf_frame_long : wfFrame ⟨List.replicate 1032 false, .ch0, .ncoh, 0#64⟩ = false := by decide +kernel

/-! ### Decoding: words of the spec (45_host_commands.md R241 to R252, 95_test_vectors.md Q1, Q2) -/

theorem test_dec_nop : decodePacket ⟨0x00ABCDEF#32, []⟩ = .instr (.nop 0xABCDEF#24) := by decide
theorem test_dec_sreset : decodePacket ⟨0x01000000#32, []⟩ = .instr (.sreset 0#24) := by decide
theorem test_dec_cfgwr : decodePacket ⟨0x0200027F#32, [0x0001C000#32]⟩ =
    .instr (.cfgwr 0#12 0x27F#12 0x0001C000#32) := by decide
theorem test_dec_cfgwr_ignored : decodePacket ⟨0x02FFF014#32, [2#32]⟩ =
    .instr (.cfgwr 0xFFF#12 0x014#12 2#32) := by decide
theorem test_dec_regrd : decodePacket ⟨0x03000355#32, []⟩ = .instr (.regrd 0#12 0x355#12) := by decide
theorem test_dec_start : decodePacket ⟨0x04000000#32, []⟩ = .instr (.start 0#24) := by decide
theorem test_dec_stop : decodePacket ⟨0x05000000#32, []⟩ = .instr (.stop 0#24) := by decide
theorem test_dec_fence : decodePacket ⟨0x06000000#32, []⟩ = .instr (.fence 0#24) := by decide
theorem test_dec_block :
    decodePacket ⟨0x10030003#32, [0xA#32, 0x17700#32, 0xA#32, 0x14#32, 0x1E#32]⟩ =
      .instr (.block 3#8 3#16 [0xA#32, 0x17700#32, 0xA#32, 0x14#32, 0x1E#32]) := by decide
theorem test_dec_eos : decodePacket ⟨0x11000000#32, []⟩ = .instr (.eos 0#24) := by decide
theorem test_dec_frpop : decodePacket ⟨0x20000000#32, []⟩ = .instr (.frpop 0#24) := by decide
theorem test_dec_reserved : decodePacket ⟨0x21000000#32, [1#32]⟩ = .reserved := by decide
theorem test_dec_length : decodePacket ⟨0x02000014#32, []⟩ = .badLength := by decide

/-- The sample word 0x0002FFFF is (-1, 2) (95_test_vectors.md N2), in each position that takes samples. -/
theorem test_dec_condSample : decodeElement .cond (.sample 0x0002FFFF#32) = some (.condSample (smp (-1) 2)) := by
  decide
theorem test_dec_demNcoh : decodeElement (.dem .ch0 .ncoh) (.sample 0x00001770#32) =
    some (.demNcoh .ch0 (smp 6000 0)) := by decide
theorem test_dec_demCoh : decodeElement (.dem .ch1 .coh) (.sample 0xE8900000#32) =
    some (.demCoh .ch1 (smp 0 (-6000))) := by decide
theorem test_dec_demChal : decodeElement (.dem .ch0 .chal) (.sample 0x7FFF8000#32) =
    some (.demChal .ch0 (smp (-32768) 32767)) := by decide

/-- Bit 15 is the value and bits 14 to 0 the confidence (30_encoding.md R107). -/
theorem test_dec_synStep : decodeElement (.syn .ch0 .coh) (.symbol 0x812C#16) =
    some (.synStep .ch0 .coh 0x812C#16) ∧ softOf 0x812C#16 = 300 ∧ softOf 0x012C#16 = -300 := by decide
theorem test_dec_nrziBit : decodeElement (.nrzi .ch1 .ncoh) (.bit true) = some (.nrziBit .ch1 .ncoh true) := by
  decide
theorem test_dec_hdlcBit : decodeElement (.hdlc .ch0 .ncoh) (.bit false) = some (.hdlcBit .ch0 .ncoh false) := by
  decide
theorem test_dec_valFrame : decodeElement (.val .ch0 .ncoh) (.frame ⟨[], .ch1, .ncoh, 0#64⟩) = none := by decide

/-- The words of the opcode table, as the host numbers them. -/
theorem test_table_words :
    decodeTableWord 32 0x03000007 = some (.regrd 0#12 7#12) ∧
    decodeTableWord 64 0x0000000202000014 = some (.cfgwr 0#12 0x014#12 2#32) ∧
    decodeTableWord 32 0x02000014 = some (.cfgwr 0#12 0x014#12 0#32) ∧
    decodeTableWord 32 0x10030001 = some (.block 3#8 1#16 [0#32, 0#32, 0#32]) ∧
    decodeTableWord 16 0x812C = some (.synStep .ch0 .ncoh 0x812C#16) ∧
    decodeTableWord 8 1 = some (.nrziBit .ch0 .ncoh true) ∧
    decodeTableWord 32 0x07000000 = none := by decide +kernel

/-! ### Placed instructions run as the next step -/

theorem test_fetch_regrd : (stepped (State.reset.withFetchWord 32 0x03000000)).rsp = [[0x41495343#32]] := by
  decide +kernel
theorem test_fetch_cfgwr : (stepped (State.reset.withFetchWord 64 0x0000000302000014)).cfg.decim = 3#7 := by
  decide +kernel
theorem test_fetch_symbol :
    ((stepped (State.reset.withFetchWord 16 0x812C)).pipe.get .ch0 .ncoh).syn.h1 = 300#16 := by decide +kernel
theorem test_fetch_bit :
    ((stepped (State.reset.withFetchWord 8 1)).pipe.get .ch0 .ncoh).dfr.prevRaw = true := by decide +kernel

/-! ### Host commands -/

theorem test_nop : after (.nop 5#24) (living .fatal) = living .fatal := by decide +kernel
theorem test_fence : after (.fence 0#24) (living .running) = living .running := by decide +kernel

/-- SRESET with the pin still high leaves the latch set (95_test_vectors.md E2). -/
theorem test_sreset : (after (.sreset 0#24) (setShutdown true (living .stopped))).shutdownLatch = true := by
  decide +kernel
theorem test_sreset_life : (after (.sreset 0#24) (living .fatal)).life = .idle := by decide +kernel

/-- A CFGWR of ID in RUNNING raises RegReadOnly, not CmdState (95_test_vectors.md E4). -/
theorem test_cfgwr_readOnly : (after (.cfgwr 0#12 0#12 5#32) (living .running)).lastErr = 0x14#8 := by
  decide +kernel
/-- The last coefficient of channel 1 (95_test_vectors.md Q1). -/
theorem test_cfgwr_coefficient :
    (after (.cfgwr 0#12 0x27F#12 0x0001C000#32) State.reset).coef = [(0x27F, 0x0001C000#32)] := by
  decide +kernel

/-- CHAL_OFFS reads 0x400 from reset (95_test_vectors.md Z1). -/
theorem test_regrd : (after (.regrd 0#12 0x024#12) State.reset).rsp = [[0x400#32]] := by decide +kernel
theorem test_regrd_unmapped : (after (.regrd 0#12 0x008#12) State.reset).rsp = [[0#32]] ∧
    (after (.regrd 0#12 0x008#12) State.reset).lastErr = 0x13#8 := by decide +kernel

theorem test_start : (after (.start 0#24) State.reset).life = .running := by decide +kernel
theorem test_start_illegal :
    (after (.start 0#24) (after (.cfgwr 0#12 0x014#12 2#32) State.reset)).fatalCause = 1#8 := by
  decide +kernel

/-- One block waiting is one SHUTDOWN_DROPS (95_test_vectors.md E5). -/
theorem test_stop : (after (.stop 0#24) (atPipe [] .running)).glob.shutdownDrops = 1#32 := by decide +kernel
theorem test_stop_life : (after (.stop 0#24) State.reset).life = .stopped := by decide +kernel

/-- A wrong channel and a wrong rate raise BlkMalformed(0x03) only (95_test_vectors.md E4). -/
theorem test_block_malformed :
    (after (.block 2#8 1#16 [11#32, 96000#32, 1#32]) (living .running)).lastErr = 0x03#8 := by decide +kernel
/-- The reset configuration passes a sample on to both channels (40_conditioner.md R139). -/
theorem test_block : ((after (.block 0#8 1#16 [7#32, 48000#32, 0x0002FFFF#32]) (living .running)).pipe.get
    .ch1 .ncoh).q = [⟨.ch1, 7#32, 48000#32, [smp (-1) 2]⟩] := by decide +kernel

theorem test_eos : (after (.eos 0#24) (living .running)).fatalCause = 2#8 := by decide +kernel
theorem test_eos_stopped : after (.eos 0#24) (living .stopped) = living .stopped := by decide +kernel

theorem test_frpop_empty : (after (.frpop 0#24) State.reset).rsp = [[0#32]] := by decide +kernel
theorem test_frpop : (after (.frpop 0#24) { State.reset with ofifo := [[1#32, 2#32], [3#32]] }).rsp =
    [[1#32, 2#32]] := by decide +kernel

/-! ### Stage operations -/

/-- Derotation by (11585, 11585) (95_test_vectors.md CV2, third sample). -/
theorem test_condSample_derot :
    (after (.condSample (smp 1000 (-2000)))
      (after (.cfgwr 0#12 0x200#12 0x2D412D41#32) State.reset)).cond.out.c0 = [smp 2121 (-707)] := by
  decide +kernel
/-- A complex tap without shift (95_test_vectors.md CV4, channel 1: the first sample times `H[1][0]`). -/
theorem test_condSample_fir :
    (after (.condSample (smp 3 (-4))) (after (.cfgwr 0#12 0x140#12 0xFFFF0002#32)
      (after (.cfgwr 0#12 0x016#12 0#32) State.reset))).cond.out.c1 = [smp 2 (-11)] := by decide +kernel

/-- A quarter turn: d = 36000000, soft value 1099 (95_test_vectors.md DV1, second call). -/
theorem test_demNcoh :
    ((after (.demNcoh .ch0 (smp 0 6000)) (after (.demNcoh .ch0 (smp 6000 0)) State.reset)).pipe.get
      .ch0 .ncoh).sym.map softOf = [0, 1099] := by decide +kernel
theorem test_demCoh :
    ((after (.demCoh .ch1 (smp 0 6000)) (after (.demCoh .ch1 (smp 6000 0)) State.reset)).pipe.get
      .ch1 .coh).sym.map softOf = [0, 375] := by decide +kernel
theorem test_demChal :
    ((after (.demChal .ch0 (smp 0 6000)) (after (.demChal .ch0 (smp 6000 0)) State.reset)).pipe.get
      .ch0 .chal).sym.map softOf = [0, 75] := by decide +kernel

/-- A strobe on a zero crossing: late -300, correction of -8 ticks, `good` cleared (95_test_vectors.md S2,
call 5). -/
theorem test_synStep :
    (synTrans { Cfg.reset with nLock := 3#8, tgain := 8#4 } (-300)
      { SynState.reset with h1 := -100#16, h2 := 100#16, tcnt := 64#8 }).st =
    { SynState.reset with h1 := -300#16, h2 := -100#16, tcnt := -8#8, sstate := .acquiring } := by
  decide +kernel
theorem test_synStep_locks :
    (synTrans { Cfg.reset with nLock := 3#8 } (-100)
      ⟨-500#16, -100#16, 64#8, .acquiring, 2#8, 0#8, 0#8⟩).locked = true := by decide +kernel

/-- Raw 1 after raw 0 decodes to 1, raw 1 after raw 1 to 0 (95_test_vectors.md NV1). -/
theorem test_nrziBit :
    ((after (.nrziBit .ch0 .ncoh true) (after (.nrziBit .ch0 .ncoh true) State.reset)).pipe.get
      .ch0 .ncoh).dec = [true, false] := by decide +kernel

/-- A seventh 1 aborts, a 0 after six 1s is a delimiter (43_deframer.md R197, R199). -/
theorem test_hdlcBit_abort :
    hdlcTrans Cfg.reset true ⟨false, true, 6#3, .fill, 0#1030, 9#11⟩ =
      (⟨false, true, 7#3, .search, 0#1030, 0#11⟩, .aborted) := by
  decide +kernel
/-- 22 bits stored when the delimiter closes leave 16: too short (95_test_vectors.md H5). -/
theorem test_hdlcBit_short :
    (hdlcTrans Cfg.reset false ⟨false, true, 6#3, .fill, 0#1030, 22#11⟩).2 = .malformed := by decide +kernel

/-- The bits of the spec's example frame (44_validator.md R227). -/
def frameBits : List Bool :=
  [true, true, true, true, true, true, false, false,
   false, false, true, true, false, false, false, false, true, false, false, true, true, true, false, false]

/-- The record of the spec's example (44_validator.md R227). -/
theorem test_valFrame : (after (.valFrame ⟨frameBits, .ch0, .ncoh, 300#64⟩) State.reset).ofifo =
    [[0xA5000000#32, 0x390C0008#32, 0x12C#32, 0#32, 0x3F#32]] := by decide +kernel
/-- Its bit b7 flipped: CRC_FAIL (95_test_vectors.md K2). -/
theorem test_valFrame_flipped :
    ((after (.valFrame ⟨frameBits.set 7 true, .ch0, .ncoh, 300#64⟩) State.reset).pipe.get .ch0 .ncoh).cnt.crcFail
      = 1#32 := by decide +kernel

/-! ### Witnesses: concrete states and operands that meet the hypotheses of the obligations, each clause at
a boundary of its range -/

/-- Streams empty at reset, and where only other fields differ. -/
theorem streams_reset : StreamsEmpty State.reset where
  sym c v := by cases c <;> cases v <;> rfl
  raw c v := by cases c <;> cases v <;> rfl
  dec c v := by cases c <;> cases v <;> rfl
  cand c v := by cases c <;> cases v <;> rfl
  out c := by cases c <;> rfl

/-- A block waiting in `Q[0][0]` leaves the internal streams empty. -/
theorem streams_atPipe (xs : List Sample) (l : Life) : StreamsEmpty (atPipe xs l) where
  sym c v := by cases c <;> cases v <;> rfl
  raw c v := by cases c <;> cases v <;> rfl
  dec c v := by cases c <;> cases v <;> rfl
  cand c v := by cases c <;> cases v <;> rfl
  out c := by cases c <;> rfl

theorem wit_EncodeOfDecodeIsThePacket :
    decodePacket ⟨0x10FFFFFF#32, []⟩ = .instr (.block 0xFF#8 0xFFFF#16 []) := by decide

theorem wit_ReservedExactlyOutsideTheTable :
    (0x10FFFFFF#32 : Word).toNat / 2 ^ 24 = 0x10 ∧
    decodePacket ⟨0xFFFFFFFF#32, []⟩ = .reserved ∧ decodePacket ⟨0x07000000#32, [0#32]⟩ = .reserved := by decide

theorem wit_RegisterMapIsExact :
    regOfIndex 0x000#12 = some .id ∧ regOfIndex 0x357#12 = some (.pstate .ch1 .chal) ∧
    regOfIndex 0x27F#12 = some (.coefW .ch1 63#6) ∧ regOfIndex 0x358#12 = none := by decide +kernel

/-- A FENCE with every queue empty, a REGRD and FRPOPs with and without a record that exactly fill RSP, another
command with the latch set in STOPPED, and one with it set in FATAL. -/
theorem wit_StepExecutesTheHeadPacket :
    let d : Config.Depths := ⟨none, none, some 3⟩
    let f := atCp ⟨0x06000000#32, []⟩ (setShutdown true (living .fatal))
    let r := { atCp ⟨0x03000000#32, []⟩ (living .running) with depths := d, rsp := [[0#32], [0#32]] }
    let q := { atCp ⟨0x20000000#32, []⟩ State.reset with depths := d, rsp := [[0#32]], ofifo := [[1#32, 2#32]] }
    let e := { q with ofifo := [], rsp := [[0#32, 0#32]] }
    let n := atCp ⟨0#32, []⟩ (setShutdown true (living .stopped))
    f.script = .agent .cp :: [] ∧ f.cmd = ⟨0x06000000#32, []⟩ :: [] ∧ f.life = .fatal ∧
    decodePacket ⟨0x06000000#32, []⟩ = .instr (.fence 0#24) ∧ (∀ p ∈ f.pipe.toList, p.q = []) ∧
    r.shutdownLatch = false ∧ decodePacket ⟨0x03000000#32, []⟩ = .instr (.regrd 0#12 0#12) ∧
    r.depths.rspDepth = some 3 ∧ (r.rsp.map List.length).sum + 1 ≤ 3 ∧
    q.shutdownLatch = false ∧ decodePacket ⟨0x20000000#32, []⟩ = .instr (.frpop 0#24) ∧
    q.ofifo = [1#32, 2#32] :: [] ∧ (q.rsp.map List.length).sum + [1#32, 2#32].length ≤ 3 ∧
    (e.rsp.map List.length).sum + 1 ≤ 3 ∧
    n.life = .stopped ∧ decodePacket ⟨0#32, []⟩ = .instr (.nop 0#24) := by
  decide +kernel

/-- Reserved opcodes at the ends of their ranges, wrong word counts, and a BLOCK. -/
theorem wit_StepRejectsBadPackets :
    let s := atCp ⟨0x07000000#32, []⟩ State.reset
    let t := atCp ⟨0x04000000#32, [0#32]⟩ (setShutdown true (living .stopped))
    s.script = .agent .cp :: [] ∧ s.cmd = ⟨0x07000000#32, []⟩ :: [] ∧ shutdownEnabled s = false ∧
    (0x07000000#32 : Word).toNat / 2 ^ 24 = 0x07 ∧ (0x0FFFFFFF#32 : Word).toNat / 2 ^ 24 = 0x0F ∧
    (0x1FFFFFFF#32 : Word).toNat / 2 ^ 24 = 0x1F ∧ (0xFFFFFFFF#32 : Word).toNat / 2 ^ 24 = 0xFF ∧
    t.script = .agent .cp :: [] ∧ t.cmd = ⟨0x04000000#32, [0#32]⟩ :: [] ∧ shutdownEnabled t = false ∧
    (0x04000000#32 : Word).toNat / 2 ^ 24 ∈ [0x00, 0x01, 0x03, 0x04, 0x05, 0x06, 0x11, 0x20] ∧
    (0x02FFFFFF#32 : Word).toNat / 2 ^ 24 = 0x02 ∧ ([] : List Word).length ≠ 1 ∧
    ([0#32, 0#32] : List Word).length ≠ 1 ∧ (0x10FFFFFF#32 : Word).toNat / 2 ^ 24 = 0x10 := by decide +kernel

theorem wit_ShutdownStepPreemptsCommands :
    let s := atCp ⟨0#32, []⟩ (setShutdown true (living .running))
    let t := atCp ⟨0#32, []⟩ (setShutdown true State.reset)
    s.script = .agent .cp :: [] ∧ s.shutdownLatch = true ∧ s.life = .running ∧
    t.script = .agent .cp :: [] ∧ t.shutdownLatch = true ∧ t.life = .idle := by decide +kernel

/-- A FENCE with a block queued. -/
theorem wit_UnreadyCommandWaits_fence :
    let s := { atPipe [] .running with script := [.agent .cp], cmd := [⟨0x06000000#32, []⟩] }
    s.script = .agent .cp :: [] ∧ s.cmd = ⟨0x06000000#32, []⟩ :: [] ∧ shutdownEnabled s = false ∧
    decodePacket ⟨0x06000000#32, []⟩ = .instr (.fence 0#24) ∧ (s.pipe.get .ch0 .ncoh).q ≠ [] := by
  decide +kernel

/-- A REGRD and an FRPOP with no record where RSP is full at depth 1, an FRPOP of two words where one word
of room is left. -/
theorem wit_UnreadyCommandWaits_room :
    let d : Config.Depths := ⟨none, none, some 1⟩
    let s := { atCp ⟨0x03000000#32, []⟩ State.reset with depths := d, rsp := [[0#32]] }
    let t := { atCp ⟨0x20000000#32, []⟩ State.reset with depths := d, rsp := [[0#32]] }
    let u := { atCp ⟨0x20000000#32, []⟩ State.reset with depths := d, ofifo := [[1#32, 2#32]] }
    s.script = .agent .cp :: [] ∧ shutdownEnabled s = false ∧ s.depths.rspDepth = some 1 ∧
    decodePacket ⟨0x03000000#32, []⟩ = .instr (.regrd 0#12 0#12) ∧ 1 < (s.rsp.map List.length).sum + 1 ∧
    t.script = .agent .cp :: [] ∧ shutdownEnabled t = false ∧ t.ofifo = [] ∧
    decodePacket ⟨0x20000000#32, []⟩ = .instr (.frpop 0#24) ∧ 1 < (t.rsp.map List.length).sum + 1 ∧
    u.script = .agent .cp :: [] ∧ shutdownEnabled u = false ∧ u.ofifo = [1#32, 2#32] :: [] ∧
    1 < (u.rsp.map List.length).sum + [1#32, 2#32].length := by decide +kernel

theorem wit_PipelineStepRunsTheStages :
    let s := atPipe [smp 1 2] .fatal
    s.script = .agent (.pipe .ch0 .ncoh) :: [] ∧ s.life = .fatal ∧ pairActive s.cfg .ch0 .ncoh = true ∧
    (s.pipe.get .ch0 .ncoh).q = [⟨.ch0, 0#32, 48000#32, [smp 1 2]⟩] ∧ StreamsEmpty s :=
  ⟨rfl, rfl, rfl, rfl, streams_atPipe _ _⟩

theorem wit_PipelineBlocksConcatenate :
    (living .running).life = .running ∧ pairActive (living .running).cfg .ch1 .ncoh = true ∧
    StreamsEmpty (living .running) := ⟨rfl, rfl, streams_reset.1, streams_reset.2, streams_reset.3,
      streams_reset.4, streams_reset.5⟩

/-- Idle, stopped, inactive, an empty queue, and an empty block. -/
theorem wit_PipelineWithoutWorkChangesNothing :
    let i := atPipe [smp 1 2] .idle
    let p := atPipe [smp 1 2] .stopped
    let e := atPipe [] .running
    i.script = .agent (.pipe .ch0 .ncoh) :: [] ∧ i.life = .idle ∧ p.life = .stopped ∧
    pairActive e.cfg .ch0 .chal = false ∧ (e.pipe.get .ch1 .ncoh).q = [] ∧
    e.life = .running ∧ pairActive e.cfg .ch0 .ncoh = true ∧
    (e.pipe.get .ch0 .ncoh).q = [⟨.ch0, 0#32, 48000#32, []⟩] ∧ StreamsEmpty i ∧ StreamsEmpty p ∧
    StreamsEmpty e :=
  ⟨rfl, rfl, rfl, rfl, rfl, rfl, rfl, rfl, streams_atPipe _ _, streams_atPipe _ _, streams_atPipe _ _⟩

/-- A packet of two words and one of one word, a response of two words. -/
theorem wit_PortsCarryPackets :
    let s := { State.reset with script := [.host (.sendWord 0x02000014#32 false), .host (.sendWord 2#32 true)] }
    let t := { State.reset with script := [.host (.sendWord 0#32 true)] }
    let u := { State.reset with rsp := [[1#32, 2#32]], script := [.host .takeWord, .host .takeWord] }
    s.cmdPart = [] ∧ (⟨0x02000014#32, [2#32]⟩ : Packet).hdr :: [2#32] = [0x02000014#32] ++ [2#32] ∧
    s.script = [0x02000014#32].map (fun x => .host (.sendWord x false)) ++ .host (.sendWord 2#32 true) :: [] ∧
    t.cmdPart = [] ∧ t.script = ([] : List Word).map (fun x => .host (.sendWord x false)) ++
      .host (.sendWord 0#32 true) :: [] ∧
    u.rsp = [1#32, 2#32] :: [] ∧ u.script = List.replicate [1#32, 2#32].length (.host .takeWord) ++ [] := by
  decide +kernel

theorem wit_ResetRestoresTheResetState :
    ({ living .fatal with script := [.host .rstPulse] } : State).script = .host .rstPulse :: [] := rfl

/-- Unmapped just past the last register, read-only, and a configuration register outside IDLE. -/
theorem wit_CfgwrRefusalsInOrder :
    regOfIndex 0x358#12 = none ∧ regOfIndex 0x400#12 = none ∧
    regOfIndex 0x357#12 = some (.pstate .ch1 .chal) ∧ regAccess (.pstate .ch1 .chal) = .ro ∧
    regOfIndex 0x041#12 = some (.cfg .sixbitCheck) ∧ regAccess (.cfg .sixbitCheck) = .cfg ∧
    (living .stopped).life ≠ .idle := by decide +kernel

theorem wit_CfgwrStoresTheField : State.reset.life = .idle := rfl

theorem wit_CoefficientWriteReadsBack :
    (∃ c k, Reg.coefW .ch1 63#6 = .coefH c k ∨ Reg.coefW .ch1 63#6 = .coefW c k) ∧
    State.reset.life = .idle ∧ MemoryOk State.reset := ⟨⟨.ch1, 63#6, .inr rfl⟩, rfl, rfl⟩

theorem wit_RegrdAnswersOneWord : regOfIndex 0x304#12 = some (.glob .overrunDrops) ∧
    regOfIndex 0x305#12 = none ∧ 0x400 ≤ (0x400#12).toNat := by decide +kernel

/-- The last of the sum views, and the last coefficient. -/
theorem wit_SumViewsSaturate_ResetValuesAreTheSpecs : 6 < 7 ∧ 63 < 64 := by decide

/-- A legal configuration at the ends of its ranges, and one that is illegal by one. -/
theorem wit_StartChecksTheConfiguration :
    let c := { Cfg.reset with
      nch := 1#2, decim := 64#7, ntaps := 64#7, rotlen0 := 64#7, rotlen1 := 64#7, fsAcq := 3072000#32
      nLock := 1#8, errMax := 1#8, nSil := 1#8 }
    State.reset.life = .idle ∧ c.nch.toNat = 1 ∧ c.varmask.toNat ≠ 0 ∧ c.decim.toNat ≤ 64 ∧
    c.ntaps.toNat ≤ 64 ∧ c.rotlen0.toNat ≤ 64 ∧ c.rotlen1.toNat ≤ 64 ∧
    c.fsAcq.toNat = c.decim.toNat * 48000 ∧ 1 ≤ c.nLock.toNat ∧ 1 ≤ c.errMax.toNat ∧ 1 ≤ c.nSil.toNat ∧
    ¬({ c with ntaps := 65#7 } : Cfg).ntaps.toNat ≤ 64 ∧ (living .running).life ≠ .idle := by decide

theorem wit_StopDropsAndCountsQueuedBlocks : State.reset.life = .idle ∧ (living .running).life = .running ∧
    (living .stopped).life = .stopped ∧ (living .fatal).life = .fatal := by decide

theorem wit_BlockAndEosByLifecycle : State.reset.life = .idle ∧ (living .fatal).life = .fatal ∧
    (living .stopped).life = .stopped ∧ (living .running).life = .running := by decide

/-- Each of the five tests failing by the least amount. -/
theorem wit_MalformedBlockIsSkippedWhole :
    let s := { living .running with cond := { CondState.reset with haveSeq := true, lastSeq := 1#32 } }
    s.life = .running ∧ ¬(1 ≤ (0#16).toNat ∧ (0#16).toNat ≤ 16384) ∧
    ¬(1 ≤ (16385#16).toNat ∧ (16385#16).toNat ≤ 16384) ∧
    ([] : List Word).length - 2 ≠ (1#16).toNat ∧
    ([1#32, 48000#32, 5#32] : List Word).length - 2 = (1#16).toNat ∧ 1#8 ≠ s.cfg.srcId ∧
    0#8 = s.cfg.srcId ∧ ([1#32, 48001#32, 5#32][1]?).getD 0#32 ≠ s.cfg.fsAcq ∧
    ([0#32, 48000#32, 5#32][1]?).getD 0#32 = s.cfg.fsAcq ∧ s.cond.haveSeq = true ∧
    (([0#32, 48000#32, 5#32][0]?).getD 0#32 : Word).toNat < s.cond.lastSeq.toNat := by decide

/-- The shortest and the longest block. -/
theorem wit_AcceptedBlockFansOut :
    (living .running).life = .running ∧ ([5#32] : List Word).length = (1#16).toNat ∧
    (List.replicate 16384 (0#32 : Word)).length = (16384#16).toNat ∧
    0#8 = (living .running).cfg.srcId ∧ 48000#32 = (living .running).cfg.fsAcq ∧
    ((living .running).cond.haveSeq = true → (living .running).cond.lastSeq.toNat ≤ (0#32).toNat) :=
  ⟨rfl, rfl, by rw [List.length_replicate]; rfl, rfl, rfl, by decide⟩

theorem wit_FrpopMovesTheOldestRecord : State.reset.ofifo = [] ∧
    ({ State.reset with ofifo := [[1#32]] } : State).ofifo = [1#32] :: [] := by decide

/-- A state of the conditioner with a decimation factor, a phase and a number of taps. -/
def conditioner (decim ph taps : BitVec 7) : State :=
  { State.reset with
    cfg := { Cfg.reset with decim := decim, ntaps := taps }
    cond := { CondState.reset with dphase := ph } }

theorem wit_CondSampleBetweenOutputs :
    (conditioner 64#7 62#7 1#7).cond.dl.length = 64 ∧
    (conditioner 64#7 62#7 1#7).cond.dphase.toNat + 1 < (conditioner 64#7 62#7 1#7).cfg.decim.toNat := by
  decide

theorem wit_CondSampleOutput :
    (conditioner 64#7 63#7 64#7).cond.dl.length = 64 ∧
    (conditioner 64#7 63#7 64#7).cond.dphase.toNat + 1 = (conditioner 64#7 63#7 64#7).cfg.decim.toNat ∧
    (conditioner 64#7 63#7 64#7).cfg.ntaps.toNat ≤ 64 ∧
    chanNum .ch1 < (conditioner 64#7 63#7 64#7).cfg.nch.toNat ∧
    1 ≤ rotlen (conditioner 64#7 63#7 64#7).cfg .ch1 := by decide

theorem wit_ConditionerLosesAndRepeatsNothing :
    (conditioner 64#7 63#7 1#7).cond.dphase.toNat < (conditioner 64#7 63#7 1#7).cfg.decim.toNat ∧
    (conditioner 64#7 63#7 1#7).cfg.decim.toNat ≤ 64 ∧ (conditioner 64#7 63#7 1#7).cond.dl.length = 64 ∧
    ((conditioner 64#7 63#7 1#7).cond.rotidx.get .ch0).toNat < rotlen (conditioner 64#7 63#7 1#7).cfg .ch0 := by
  decide

theorem wit_ResetConditionerIsTheIdentity :
    State.reset.cfg.decim = 1#7 ∧ State.reset.cfg.ntaps = 1#7 ∧ State.reset.cfg.shCond = 14#5 ∧
    State.reset.cfg.rotlen0 = 1#7 ∧ State.reset.cfg.rotlen1 = 1#7 ∧ State.reset.cond.dphase = 0#7 ∧
    (∀ c, State.reset.cond.rotidx.get c = 0#6) ∧
    (∀ c, Memory.read State.reset.coef (0x100 + 64 * chanNum c) = 0x00004000#32 ∧
      Memory.read State.reset.coef (0x200 + 64 * chanNum c) = 0x00004000#32) ∧
    chanNum .ch1 < State.reset.cfg.nch.toNat :=
  ⟨rfl, rfl, rfl, rfl, rfl, rfl, fun c => by cases c <;> rfl, fun c => by cases c <;> decide, by decide⟩

/-- The kernel registers at the ends of their ranges. -/
theorem wit_ChalPicksTheNearestMean :
    let k := { Kernels.reset with chal := { Kernels.reset.chal with dc0 := 0x8001#16, dc1 := 0x7FFF#16 } }
    KernelRanges ((State.reset.setKern .ch0 k).kern.get .ch0) where
  u0 := by unfold SoftReg; decide
  u1 := by unfold SoftReg; decide
  u2 := by unfold SoftReg; decide
  u3 := by unfold SoftReg; decide
  u4 := by unfold SoftReg; decide
  dc0 := by unfold SoftReg; decide
  dc1 := by unfold SoftReg; decide
  dc2 := by unfold SoftReg; decide

/-- Of SynStepBetweenStrobes and SynStepOnAStrobe: the timing register just below and at a strobe, in each
of the three states. -/
theorem wit_SynStep :
    let at63 := withPipe { Pipe.reset with syn := { SynState.reset with tcnt := 63#8 } }
    let at64 := fun st => withPipe { Pipe.reset with syn := { SynState.reset with tcnt := 64#8, sstate := st } }
    (at63.pipe.get .ch0 .ncoh).syn.tcnt.toInt + 16 < 80 ∧
    ∀ st ∈ [SState.unlocked, .acquiring, .locked],
      80 ≤ ((at64 st).pipe.get .ch0 .ncoh).syn.tcnt.toInt + 16 ∧
      ((at64 st).pipe.get .ch0 .ncoh).syn.sstate = st := by decide +kernel

/-- A deframer in FILL with `n` bits stored after a run of `k` ones. -/
def filling (n : BitVec 11) (k : BitVec 3) : State :=
  withPipe { Pipe.reset with dfr := ⟨false, true, k, .fill, 0#1030, n⟩ }

/-- The classes at their ends: four 1s before a data bit, the last free place and a full buffer, six and
seven 1s. -/
theorem wit_HdlcBitClassByClass :
    ((filling 1029#11 4#3).pipe.get .ch0 .ncoh).dfr.fstate = .fill ∧
    ((filling 1029#11 4#3).pipe.get .ch0 .ncoh).dfr.runLen.toNat ≤ 4 ∧
    ((filling 1029#11 4#3).pipe.get .ch0 .ncoh).dfr.flen.toNat < 1030 ∧
    1030 ≤ ((filling 1030#11 4#3).pipe.get .ch0 .ncoh).dfr.flen.toNat ∧
    6 ≤ ((filling 9#11 6#3).pipe.get .ch0 .ncoh).dfr.runLen.toNat ∧
    ((filling 9#11 5#3).pipe.get .ch0 .ncoh).dfr.runLen.toNat = 5 ∧
    ((filling 9#11 7#3).pipe.get .ch0 .ncoh).dfr.runLen.toNat = 7 ∧
    (State.reset.pipe.get .ch0 .ncoh).dfr.fstate = .search := by decide +kernel

/-- Closing delimiters on nothing, on 23 bits, and on the shortest and the longest legal frame. -/
theorem wit_FlagAppliesTheLengthRule :
    ∀ n ∈ [6#11, 29#11, 30#11, 1030#11],
      ((filling n 6#3).pipe.get .ch0 .ncoh).dfr.runBit = true ∧
      ((filling n 6#3).pipe.get .ch0 .ncoh).dfr.runLen = 6#3 ∧
      ((filling n 6#3).pipe.get .ch0 .ncoh).dfr.fstate = .fill ∧
      (((filling n 6#3).pipe.get .ch0 .ncoh).dfr.flen.toNat - 6) ∈ [0, 23, 24, 1024] := by decide +kernel

/-- The shortest and the longest frame. -/
theorem wit_DeframerRecoversEveryStuffedFrame :
    let s := withPipe { Pipe.reset with dfr := ⟨false, false, 1#3, .fill, 0#1030, 0#11⟩ }
    (s.pipe.get .ch0 .ncoh).dfr.fstate = .fill ∧ (s.pipe.get .ch0 .ncoh).dfr.flen = 0#11 ∧
    (s.pipe.get .ch0 .ncoh).dfr.runBit = false ∧ s.cfg.sixbitCheck ≠ 1#1 ∧
    24 ≤ (List.replicate 24 true).length ∧ (List.replicate 24 true).length % 8 = 0 ∧
    (List.replicate 1024 true).length ≤ 1024 ∧ (List.replicate 1024 true).length % 8 = 0 := by
  simp only [List.length_replicate]
  decide +kernel

/-- A frame too short, one that fails, one that passes with room in OF and one with OF full at depth 0. -/
theorem wit_ValFrameCountsAndDelivers :
    let bad := frameBits.set 7 true
    let s := { State.reset with depths := ⟨none, some 0, none⟩ }
    (List.replicate 23 true).length < 24 ∧ ¬(frameBits.length < 24 ∨ frameBits.length % 8 ≠ 0 ∨
      1024 < frameBits.length) ∧
    fcs16 (frameBits.take (frameBits.length - 16)) = frameBits.drop (frameBits.length - 16) ∧
    fcs16 (bad.take (bad.length - 16)) ≠ bad.drop (bad.length - 16) ∧
    State.reset.depths.ofDepth = none ∧ s.depths.ofDepth = some 0 ∧ 0 ≤ s.ofifo.length := by decide +kernel

theorem wit_FrameRecordLayout : 24 ≤ frameBits.length ∧ frameBits.length ≤ 1024 ∧
    24 ≤ (List.replicate 1024 true).length ∧ (List.replicate 1024 true).length ≤ 1024 := by
  simp only [List.length_replicate]
  decide

/-- A field alone, of the empty payload. -/
theorem wit_CrcResidueIsExact : 16 ≤ (fcs16 []).length := by decide

/-- The first bit and the last bit of the spec's frame. -/
theorem wit_CrcDetectsEverySingleBitError : 16 ≤ frameBits.length ∧ frameBits[0]? = some true ∧
    frameBits[23]? = some false ∧
    fcs16 (frameBits.take (frameBits.length - 16)) = frameBits.drop (frameBits.length - 16) := by
  decide +kernel

/-- The ranges hold of every pipeline and every kernel at reset. -/
theorem datapath_reset : DatapathOk State.reset where
  pipes c v := by
    cases c <;> cases v <;> exact ⟨by unfold SoftReg; decide, by unfold SoftReg; decide, by decide, by decide,
      by decide, fun _ => rfl⟩
  kernels c := by
    cases c <;> constructor <;> unfold SoftReg <;> decide
  dl := by decide

/-- A legal state in RUNNING meets the lifecycle and phase invariants. -/
theorem lifecycle_running : LifecycleOk (living .running) ∧ PhaseOk (living .running) := by
  constructor
  · constructor <;> first
      | (intro _ c v; cases c <;> cases v <;> rfl)
      | (intro c v; cases c <;> cases v <;> decide)
      | decide
  · refine ⟨fun _ => by decide, fun _ => rfl, fun _ c => by cases c <;> rfl, fun _ => by decide, fun _ c => ?_⟩
    cases c <;> decide

/-- A block queued for an active pair in RUNNING keeps the lifecycle group consistent, whatever waits in CMD. -/
theorem lifecycle_queued (ps : List Packet) :
    LifecycleOk { atPipe [smp 1 2] .running with script := [], cmd := ps } where
  no_cause _ := rfl
  cause h := nomatch h
  legal _ := (by decide : cfgLegal Cfg.reset = true)
  idle_queues h := nomatch h
  stopped_queues h := nomatch h
  invalid_queues h := nomatch h
  inactive_queues c v h := by
    have h : pairActive Cfg.reset c v = false := h
    revert h
    cases c <;> cases v <;> first | exact fun _ => rfl | exact fun h => absurd h (by decide)
  latch h := nomatch h

/-- Of EveryStepHasASuccessor: a FENCE at the head of CMD behind a queued block, and a queued block with
nothing in CMD, in a legal state in RUNNING with the script used up. -/
theorem wit_EveryStepHasASuccessor :
    let s := { atPipe [smp 1 2] .running with script := [] }
    let f := { s with cmd := [⟨0x06FFFFFF#32, []⟩] }
    f.script = [] ∧ f.cmd = ⟨0x06FFFFFF#32, []⟩ :: [] ∧
    decodePacket ⟨0x06FFFFFF#32, []⟩ = .instr (.fence 0xFFFFFF#24) ∧ (f.pipe.get .ch0 .ncoh).q ≠ [] ∧
    LifecycleOk f ∧ StreamsEmpty f ∧ s.cmd = [] ∧ LifecycleOk s ∧ StreamsEmpty s :=
  have e : StreamsEmpty (atPipe [smp 1 2] .running) := streams_atPipe _ _
  have k := fun ps => lifecycle_queued ps
  ⟨rfl, rfl, rfl, by decide, k _, ⟨e.1, e.2, e.3, e.4, e.5⟩, rfl, k [], ⟨e.1, e.2, e.3, e.4, e.5⟩⟩

/-- Of StepKeepsMemoryCanonical, StepKeepsDatapathRanges, StepLeavesStreamsEmpty, StepKeepsLifecycle and
StepKeepsConditionerPhases: a state that meets each invariant, and a step from it: a NOP where memory, ranges
and streams are those of reset, a legal state in RUNNING, and the reset state. -/
theorem wit_StepKeeps :
    let s := atCp ⟨0#32, []⟩ State.reset
    let r := atCp ⟨0#32, []⟩ (living .running)
    MemoryOk State.reset ∧ DatapathOk State.reset ∧ StreamsEmpty State.reset ∧
    LifecycleOk (living .running) ∧ PhaseOk (living .running) ∧
    (∃ t, step s = .next t) ∧ ∃ t, step r = .next t :=
  ⟨rfl, datapath_reset, streams_reset, lifecycle_running.1, lifecycle_running.2, ⟨_, rfl⟩, ⟨_, rfl⟩⟩

theorem wit_StepKeepsIdleFresh : IdleFresh State.reset := by
  refine ⟨fun _ => rfl, fun _ c => ?_, fun _ c v => ?_, fun _ => rfl, fun _ => ⟨rfl, rfl⟩, fun _ => rfl,
    fun _ => ⟨rfl, rfl, rfl, rfl⟩⟩
  · cases c <;> rfl
  · cases c <;> cases v <;> rfl

/-- Outside IDLE, with a step. -/
theorem wit_ConfigurationIsFrozen : (living .running).life ≠ .idle ∧
    ∃ t, step (atCp ⟨0#32, []⟩ (living .running)) = .next t := ⟨by decide, ⟨_, rfl⟩⟩

/-- A reset and a transition. -/
theorem wit_LifecycleTransitionsComplete :
    (∃ t, step (atCp ⟨0x01000000#32, []⟩ (living .fatal)) = .next t) ∧
    ∃ t, step (atCp ⟨0x04000000#32, []⟩ State.reset) = .next t := ⟨⟨_, rfl⟩, ⟨_, rfl⟩⟩

theorem wit_CountersNeverFall : ∃ t, step (atCp ⟨0x07000000#32, []⟩ State.reset) = .next t := ⟨_, rfl⟩

theorem wit_PipelineStepIsIsolated :
    let s := atPipe [smp 1 2] .running
    StreamsEmpty s ∧ s.script = .agent (.pipe .ch0 .ncoh) :: [] ∧ ∃ t, step s = .next t :=
  ⟨streams_atPipe _ _, rfl, ⟨_, rfl⟩⟩

theorem wit_PipelineStepsCommute :
    let s := atPipe [smp 1 2] .running
    StreamsEmpty s ∧ s.depths.ofDepth = none ∧ (Chan.ch0, Variant.ncoh) ≠ (Chan.ch1, Variant.ncoh) ∧
    (∃ a, stepAll 2 { s with script := [.agent (.pipe .ch0 .ncoh), .agent (.pipe .ch1 .ncoh)] ++ [] } = .next a) ∧
    (∃ b, stepAll 2 { s with script := [.agent (.pipe .ch1 .ncoh), .agent (.pipe .ch0 .ncoh)] ++ [] } = .next b) ∧
    ∃ t, step { s with script := .overlap [(.ch0, .ncoh)] :: [] } = .next t :=
  ⟨streams_atPipe _ _, rfl, by decide, ⟨_, rfl⟩, ⟨_, rfl⟩, ⟨_, rfl⟩⟩

/-- A pipeline in LOCKED, one strobe away from the end of the delimiter that closes the spec's example frame,
with one block of one sample. -/
def closing (c : Chan) : Pipe :=
  { Pipe.reset with
    q := [{ chan := c, seq := 0#32, rate := 48000#32, samples := [smp 1 2] }]
    syn := { SynState.reset with tcnt := 64#8, sstate := .locked }
    dfr := ⟨false, true, 6#3, .fill, BitVec.ofNat 1030 (natOfBits frameBits), 30#11⟩ }

/-- Both channels' NCOH pipelines about to deliver a record. -/
def twoClosing (script : List Move) : State :=
  { ((living .running).setPipe .ch0 .ncoh (closing .ch0)).setPipe .ch1 .ncoh (closing .ch1) with
    script := script }

/-- The records that the two blocks give, each by its own pipeline alone. -/
def closingRec (c : Chan) : List Word := frameRecord ⟨frameBits, c, .ncoh, 1#64⟩

/-- Both pipelines begin their block, then channel 1's runs first (20_memory.md R79). -/
theorem test_overlap : (stepped (twoClosing [.overlap
    [(.ch0, .ncoh), (.ch1, .ncoh), (.ch1, .ncoh), (.ch0, .ncoh)]])).ofifo =
    [closingRec .ch1, closingRec .ch0] := by decide +kernel

/-- Of the third clause of PipelineStepsCommute: the records in the queues, and an interleaving of them. -/
theorem wit_PipelineStepsCommute_interleaving :
    let s := twoClosing []
    let recs := fun (c : Chan) (v : Variant) => if v = .ncoh then [closingRec c] else []
    let z := [((Chan.ch1, Variant.ncoh), closingRec .ch1), ((Chan.ch0, Variant.ncoh), closingRec .ch0)]
    StreamsEmpty s ∧ s.depths.ofDepth = none ∧
    (∀ c v, ∃ t, stepAll (s.pipe.get c v).q.length { s with
        ofifo := [], script := List.replicate (s.pipe.get c v).q.length (.agent (.pipe c v)) } = .next t ∧
      t.ofifo = recs c v) ∧
    ∀ c v, (z.filter fun e => decide (e.1 = (c, v))).map Prod.snd = recs c v := by
  refine ⟨?_, rfl, fun c v => ?_, fun c v => by cases c <;> cases v <;> decide +kernel⟩
  · constructor <;> first | (intro c v; cases c <;> cases v <;> rfl) | (intro c; cases c <;> rfl)
  · cases c <;> cases v <;> exact ⟨_, rfl, by decide +kernel⟩

end Sys2Proof.Tests
end

section
/-!
PROOFS. No operation but a reset lowers a counter (00_scope.md R15): one lemma per operation over the
state that counts, then the step of the machine by the inversion lemmas of Laws/Step.
-/

namespace Sys2Proof.Machine

open Sys2Proof

/-! ### The order of the counters -/

theorem CountersLe.trans {s t u : State} (h : CountersLe s t) (h' : CountersLe t u) : CountersLe s u where
  blkAccepted := Nat.le_trans h.blkAccepted h'.blkAccepted
  blkMalformed := Nat.le_trans h.blkMalformed h'.blkMalformed
  shutdownDrops := Nat.le_trans h.shutdownDrops h'.shutdownDrops
  cmdErr := Nat.le_trans h.cmdErr h'.cmdErr
  overrunDrops := Nat.le_trans h.overrunDrops h'.overrunDrops
  perPipe c v j := Nat.le_trans (h.perPipe c v j) (h'.perPipe c v j)

/-- An update that leaves the counters' two places alone lowers none. -/
theorem CountersLe.of_eq {s t : State} (hg : t.glob = s.glob) (hp : t.pipe = s.pipe) : CountersLe s t where
  blkAccepted := hg ▸ Nat.le_refl _
  blkMalformed := hg ▸ Nat.le_refl _
  shutdownDrops := hg ▸ Nat.le_refl _
  cmdErr := hg ▸ Nat.le_refl _
  overrunDrops := hg ▸ Nat.le_refl _
  perPipe _ _ _ := hp ▸ Nat.le_refl _

theorem CountersLe.refl (s : State) : CountersLe s s := .of_eq rfl rfl

/-- A pipeline replaced by one whose own counters are no lower. -/
theorem CountersLe.setPipe (s : State) (c : Chan) (v : Variant) (p : Pipe)
    (h : ∀ j, (readCnt (s.pipe.get c v).cnt j).toNat ≤ (readCnt p.cnt j).toNat) :
    CountersLe s (s.setPipe c v p) where
  blkAccepted := Nat.le_refl _
  blkMalformed := Nat.le_refl _
  shutdownDrops := Nat.le_refl _
  cmdErr := Nat.le_refl _
  overrunDrops := Nat.le_refl _
  perPipe d w j := by
    by_cases e : (d, w) = (c, v)
    · obtain ⟨rfl, rfl⟩ := Prod.mk.inj e
      simpa using h j
    · simp [PerPipe.get_set_other _ _ e]

/-! ### Events and queues -/

theorem CountersLe.raiseCmdErr (code : BitVec 8) (s : State) : CountersLe s (raiseCmdErr code s) :=
  { CountersLe.refl s with cmdErr := le_incWord _ }

/-- An event counts up (60_exceptions.md R271, R272). -/
theorem CountersLe.raise (e : Event) (s : State) : CountersLe s (raise e s) := by
  cases e with
  | blkMalformed code => exact { CountersLe.refl s with blkMalformed := le_incWord _ }
  | overrun => exact { CountersLe.refl s with overrunDrops := le_incWord _ }
  | shutdownDrop => exact { CountersLe.refl s with shutdownDrops := le_incWord _ }
  | cmdReserved | cmdLength | cmdState | regUnmapped | regReadOnly => exact .raiseCmdErr _ s

/-- STOP counts the dropped blocks up and empties the queues, which are no counters (45_host_commands.md
R247). -/
theorem CountersLe.shutdown (s : State) : CountersLe s (shutdown s) := by
  rw [shutdown_eq]
  refine { CountersLe.refl s with shutdownDrops := ?_, perPipe := fun c v j => by simp }
  have := s.glob.shutdownDrops.isLt
  simp only [moreBy_toNat]
  omega

theorem CountersLe.pushQueue (b : Block) (s : State) (cv : Chan × Variant) :
    CountersLe s (pushQueue b s cv) := by
  cases hf : fullAt s.depths.qDepth (s.pipe.get cv.1 cv.2).q.length with
  | true => rw [pushQueue_full _ _ _ hf]; exact .raise _ s
  | false => rw [pushQueue_room _ _ _ hf]; exact .setPipe s _ _ _ fun _ => Nat.le_refl _

theorem CountersLe.pushFrame (rec : List Word) (s : State) : CountersLe s (pushFrame rec s) := by
  cases hf : fullAt s.depths.ofDepth s.ofifo.length with
  | true => rw [pushFrame_full _ _ hf]; exact .raise _ s
  | false => rw [pushFrame_room _ _ hf]; exact .of_eq rfl rfl

/-! ### The conditioner -/

/-- An accepted block counts once, and its overruns (40_conditioner.md R132, R136). -/
theorem CountersLe.condAccepted (body : List Word) (s : State) : CountersLe s (condAccepted body s) := by
  have accepted : CountersLe s (acceptBlock (blockSeq body) s) :=
    { CountersLe.refl s with blkAccepted := le_incWord _ }
  have samples := condSamples_frame (blockSamples body) (acceptBlock (blockSeq body) s)
  unfold Machine.condAccepted
  simp only []
  generalize (blockSamples body).foldl (fun t x => condSample x t) (acceptBlock (blockSeq body) s) = u
    at samples
  have conditioned : CountersLe s u := accepted.trans (by rw [samples]; exact .of_eq rfl rfl)
  have pushed : CountersLe s (pushBlocks (blockSeq body) u) :=
    foldl_keeps (CountersLe s) _ _ (fun t cv _ ht => ht.trans (.pushQueue _ t cv)) u conditioned
  exact pushed.trans (.of_eq rfl rfl)

/-! ### The pipelines -/

/-- The synchroniser's counters only rise (42_synchroniser.md R176). -/
theorem readCnt_le_countLocks (r : SynResult) (k : PipeCounters) (j : CntReg) :
    (readCnt k j).toNat ≤ (readCnt (countLocks r k) j).toNat := by
  have ite_le (b : Bool) (w : Word) : w.toNat ≤ (if b then incWord w else w).toNat := by
    cases b
    · exact Nat.le_refl _
    · exact le_incWord w
  cases j with
  | locks => exact ite_le r.locked k.locks
  | unlocks => exact ite_le r.unlocked k.unlocks
  | _ => exact Nat.le_refl _

/-- The deframer's counters only rise (43_deframer.md R197, R199, R201). -/
theorem readCnt_le_countDfr (o : DfrOut) (k : PipeCounters) (j : CntReg) :
    (readCnt k j).toNat ≤ (readCnt (countDfr o k) j).toNat := by
  cases o <;> cases j <;> simp [countDfr, readCnt, le_incWord]

/-- The validator counts each frame once (44_validator.md R221). -/
theorem CountersLe.valFrame (f : CandFrame) (s : State) : CountersLe s (valFrame f s) := by
  unfold Machine.valFrame setCnt
  simp only []
  split
  · refine .setPipe s _ _ _ fun j => ?_
    cases j <;> simp [readCnt, le_incWord]
  · split
    · refine .setPipe s _ _ _ fun j => ?_
      cases j <;> simp [readCnt, le_incWord]
    · refine (CountersLe.setPipe s _ _ _ fun j => ?_).trans (.pushFrame _ _)
      cases j <;> simp [readCnt, le_incWord]

theorem CountersLe.demStep (c : Chan) (v : Variant) (z : Sample) (s : State) :
    CountersLe s (demStep c v z s) := by
  cases v <;> exact CountersLe.trans (t := s.setKern c _) (.of_eq rfl rfl)
    (.setPipe _ c _ _ fun _ => Nat.le_refl _)

/-- No part of any pipeline's step lowers a counter. -/
theorem CountersLe.kept (s : State) (c : Chan) (v : Variant) :
    BlockKept c v (fun _ => True) (CountersLe s) := by
  have set : ∀ (t : State) (p : Pipe),
      (∀ j, (readCnt (t.pipe.get c v).cnt j).toNat ≤ (readCnt p.cnt j).toNat) →
      CountersLe s t → CountersLe s (t.setPipe c v p) := fun t p hp h => h.trans (.setPipe t c v p hp)
  have same : ∀ (t : State) (p : Pipe), p.cnt = (t.pipe.get c v).cnt → CountersLe s t →
      CountersLe s (t.setPipe c v p) := fun t p e => set t p fun _ => e ▸ Nat.le_refl _
  exact {
    frames := fun _ _ _ _ => trivial
    clearSym := fun t => same t _ rfl
    clearRaw := fun t => same t _ rfl
    clearDec := fun t => same t _ rfl
    clearCand := fun t => same t _ rfl
    syn := fun t _ => set t _ (readCnt_le_countLocks _ _)
    nrzi := fun t _ => same t _ rfl
    hdlc := fun t _ => set t _ (readCnt_le_countDfr _ _)
    val := fun t f _ h => h.trans (.valFrame f t)
    pop := fun t _ _ _ => same t _ rfl
    count := fun t => same t _ rfl
    dem := fun t z h => h.trans (.demStep c v z t) }

theorem CountersLe.pipeStep (c : Chan) (v : Variant) (s : State) : CountersLe s (pipeStep c v s) :=
  pipeStep_keeps (CountersLe.kept s c v) s (.refl s)

theorem CountersLe.overlapSteps (order : List (Chan × Variant)) (s : State) :
    CountersLe s (overlapSteps order s) :=
  overlapSteps_keeps (CountersLe.kept s) order s (.refl s)

/-! ### Commands, the HOST, and the step -/

/-- No register write reaches a counter: every counter is read-only (20_memory.md R76). -/
theorem CountersLe.writeReg (r : Reg) (val : Word) (s : State) : CountersLe s (writeReg r val s) := by
  cases r <;> exact .of_eq rfl rfl

/-- A command lowers no counter but by SRESET (45_host_commands.md R242). -/
theorem exec_countersLe {i : Instr} {s t : State} (hi : IsCommand i) (h : exec i s = .next t) :
    CountersLe s t ∨ ResetOf s t := by
  rcases exec_command_cases hi h with rfl | rfl | ⟨code, rfl⟩ | ⟨r, val, -, -, rfl⟩ |
    ⟨w, rfl | ⟨code, rfl⟩⟩ | ⟨-, -, rfl⟩ | ⟨-, -, rfl⟩ | ⟨-, rfl⟩ | ⟨-, rfl⟩ | ⟨-, code, rfl⟩ |
    ⟨-, body, rfl⟩ | ⟨-, rfl⟩ | ⟨f, rest, -, rfl⟩
  · exact .inl (.refl _)
  · exact .inr (softReset_resetOf s)
  · exact .inl (.raiseCmdErr code s)
  · exact .inl (.writeReg r val s)
  · exact .inl (.of_eq rfl rfl)
  · exact .inl ((CountersLe.raiseCmdErr code s).trans (.of_eq rfl rfl))
  · exact .inl (.of_eq rfl rfl)
  · exact .inl (.of_eq rfl rfl)
  · exact .inl (.shutdown s)
  · exact .inl (.raise _ s)
  · exact .inl (.raise _ s)
  · exact .inl (.condAccepted body s)
  · exact .inl (.of_eq rfl rfl)
  · exact .inl (.of_eq rfl rfl)

/-- An action of the HOST lowers no counter but by the pin `rst` (70_reset_and_hazards.md R310). -/
theorem hostAct_countersLe (a : HostAct) (s : State) :
    CountersLe s (hostAct a s) ∨ ResetOf s (hostAct a s) := by
  cases a with
  | sendWord w last => cases last <;> exact .inl (.of_eq rfl rfl)
  | takeWord =>
    refine .inl ?_
    simp only [hostAct, takeWord]
    split <;> exact .of_eq rfl rfl
  | setShutdown level => exact .inl (.of_eq rfl rfl)
  | rstPulse => exact .inr (pinReset_resetOf s)

theorem MovedOn.countersLe {s u : State} (h : MovedOn s u) : CountersLe s u := by
  obtain ⟨_, _, _, rfl⟩ := h
  exact .of_eq rfl rfl

/-- A reset after the script has moved on is a reset of the state before. -/
theorem MovedOn.resetOf {s u t : State} (h : MovedOn s u) (hr : ResetOf u t) : ResetOf s t := by
  obtain ⟨_, _, _, rfl⟩ := h
  exact hr

/-- Settles O58: by the inversion of `step`, each of its outcomes counts up only or is a reset. -/
theorem countersNeverFall : Obligations.CountersNeverFall := by
  intro s t h
  obtain ⟨u, moved, outcome⟩ := step_cases h
  suffices CountersLe u t ∨ ResetOf u t from this.imp moved.countersLe.trans moved.resetOf
  rcases outcome with ⟨-, rfl⟩ | rfl | ⟨code, rfl⟩ | ⟨i, hi, hx⟩ | ⟨c, v, rfl⟩ | ⟨order, rfl⟩ | ⟨a, rfl⟩
  · exact .inl (.shutdown u)
  · exact .inl (.refl _)
  · exact .inl (.raiseCmdErr code u)
  · exact exec_countersLe hi hx
  · exact .inl (.pipeStep c v u)
  · exact .inl (.overlapSteps order u)
  · exact hostAct_countersLe a u

end Sys2Proof.Machine
end

section
/-!
PROOFS. What every step keeps, once: an invariant that each primitive change of the state keeps is kept by
`step`. The invariants of 10_state.md are instances of it (Laws/Step and Laws/Pipeline do the inversion).
-/

namespace Sys2Proof.Machine

open Sys2Proof

/-! ### Bookkeeping: what no invariant of the state reads -/

/-- `t` differs from `s` only in counters, sticky flags, IRQ_ENABLE, the ports, the FIFOs and what comes
next. -/
def Bookkept (s t : State) : Prop :=
  ∃ glob err blk ov irq cmd part rsp rec ms n, t = { s with
    glob := glob, lastErr := err, blkErr := blk, overrun := ov, irqEnable := irq, cmd := cmd
    cmdPart := part, rsp := rsp, ofifo := rec, script := ms, tick := n }

theorem MovedOn.bookkept {s t : State} (h : MovedOn s t) : Bookkept s t := by
  obtain ⟨_, _, _, rfl⟩ := h
  exact ⟨_, _, _, _, _, _, _, _, _, _, _, rfl⟩

theorem raiseCmdErr_bookkept (code : BitVec 8) (s : State) : Bookkept s (raiseCmdErr code s) :=
  ⟨_, _, _, _, _, _, _, _, _, _, _, rfl⟩

theorem raise_bookkept (e : Event) (s : State) : Bookkept s (raise e s) := by
  cases e <;> exact ⟨_, _, _, _, _, _, _, _, _, _, _, rfl⟩

theorem pushRsp_bookkept (ws : List Word) (s : State) : Bookkept s (pushRsp ws s) :=
  ⟨_, _, _, _, _, _, _, _, _, _, _, rfl⟩

theorem popFrame_bookkept (ws : List Word) (rest : List (List Word)) (s : State) :
    Bookkept s (pushRsp ws { s with ofifo := rest }) :=
  ⟨_, _, _, _, _, _, _, _, _, _, _, rfl⟩

/-- SRESET is the pin's reset but for CMD and RSP (70_reset_and_hazards.md R310). -/
theorem softReset_bookkept (s : State) : Bookkept (pinReset s) (softReset s) :=
  ⟨_, _, _, _, _, _, _, _, _, _, _, rfl⟩

theorem receiveWord_bookkept (w : Word) (last : Bool) (s : State) : Bookkept s (receiveWord w last s) := by
  cases last <;> exact ⟨_, _, _, _, _, _, _, _, _, _, _, rfl⟩

theorem takeWord_bookkept (s : State) : Bookkept s (takeWord s) := by
  unfold takeWord
  split <;> exact ⟨_, _, _, _, _, _, _, _, _, _, _, rfl⟩

/-! ### The step -/

/-- What an invariant has to keep so that every step keeps it: one field per primitive change of the state. -/
structure StepKept (P : State → Prop) : Prop where
  book : ∀ {s t}, Bookkept s t → P s → P t
  reset : ∀ s, P s → P (pinReset s)
  pin : ∀ s level, P s → P (setShutdown level s)
  cfgWrite : ∀ s k val, s.life = .idle → P s → P { s with cfg := writeCfg s.cfg k val }
  coefWrite : ∀ s a val, s.life = .idle → P s → P { s with coef := Memory.write s.coef a val }
  start : ∀ s, s.life = .idle → cfgLegal s.cfg = true → P s → P { s with life := .running }
  invalid : ∀ s, s.life = .idle → P s → P (raiseFatal .configInvalid s)
  closed : ∀ s, s.life = .running → P s → P (raiseFatal .srcClosed s)
  shutdown : ∀ s, s.life = .idle ∨ s.life = .running → P s → P (shutdown s)
  block : ∀ s body, s.life = .running → P s → P (condAccepted body s)
  pipeBegin : ∀ c v s, P s → P (pipeBegin c v s).2
  pipeSample : ∀ c v z s, P s → P (pipeSample c v z s)

namespace StepKept

variable {P : State → Prop}

/-- A register write that CFGWR may make (45_host_commands.md R243). -/
theorem writeReg (k : StepKept P) {r : Reg} (val : Word) {s : State} (hro : regAccess r ≠ .ro)
    (hidle : regAccess r = .cfg → s.life = .idle) (h : P s) : P (writeReg r val s) := by
  cases r with
  | irqEnable | irqStatus => exact k.book ⟨_, _, _, _, _, _, _, _, _, _, _, rfl⟩ h
  | cfg r => exact k.cfgWrite s r val (hidle rfl) h
  | coefH c i | coefW c i => exact k.coefWrite s _ val (hidle rfl) h
  | _ => exact absurd rfl hro

theorem exec (k : StepKept P) {i : Instr} {s t : State} (hi : IsCommand i) (hx : exec i s = .next t)
    (h : P s) : P t := by
  rcases exec_command_cases hi hx with rfl | rfl | ⟨code, rfl⟩ | ⟨r, val, hro, hidle, rfl⟩ |
    ⟨w, rfl | ⟨code, rfl⟩⟩ | ⟨hl, hc, rfl⟩ | ⟨hl, -, rfl⟩ | ⟨hl, rfl⟩ | ⟨-, rfl⟩ | ⟨-, code, rfl⟩ |
    ⟨hl, body, rfl⟩ | ⟨hl, rfl⟩ | ⟨f, rest, -, rfl⟩
  · exact h
  · exact k.book (softReset_bookkept s) (k.reset s h)
  · exact k.book (raiseCmdErr_bookkept code s) h
  · exact k.writeReg val hro hidle h
  · exact k.book (pushRsp_bookkept _ s) h
  · exact k.book (pushRsp_bookkept _ _) (k.book (raiseCmdErr_bookkept code s) h)
  · exact k.start s hl hc h
  · exact k.invalid s hl h
  · exact k.shutdown s hl h
  · exact k.book (raise_bookkept _ s) h
  · exact k.book (raise_bookkept _ s) h
  · exact k.block s body hl h
  · exact k.closed s hl h
  · exact k.book (popFrame_bookkept f rest s) h

theorem hostAct (k : StepKept P) (a : HostAct) (s : State) (h : P s) : P (hostAct a s) := by
  cases a with
  | sendWord w last => exact k.book (receiveWord_bookkept w last s) h
  | takeWord => exact k.book (takeWord_bookkept s) h
  | setShutdown level => exact k.pin s level h
  | rstPulse => exact k.reset s h

theorem pipeSamples (k : StepKept P) (c : Chan) (v : Variant) (zs : List Sample) (s : State) (h : P s) :
    P (pipeSamples c v zs s) :=
  foldl_keeps P _ _ (fun t z _ ht => k.pipeSample c v z t ht) s h

theorem pipeStep (k : StepKept P) (c : Chan) (v : Variant) (s : State) (h : P s) : P (pipeStep c v s) :=
  k.pipeSamples c v _ _ (k.pipeBegin c v s h)

theorem overlapTurn (k : StepKept P) (w : Overlap) (cv : Chan × Variant) (h : P w.now) :
    P (overlapTurn w cv).now := by
  unfold Machine.overlapTurn
  split
  · exact k.pipeSample _ _ _ _ h
  · exact k.pipeBegin _ _ _ h

theorem overlapTurns (k : StepKept P) (order : List (Chan × Variant)) (w : Overlap) (h : P w.now) :
    P (order.foldl Machine.overlapTurn w).now := by
  induction order generalizing w with
  | nil => exact h
  | cons cv order ih => exact ih _ (k.overlapTurn w cv h)

theorem overlapSteps (k : StepKept P) (order : List (Chan × Variant)) (s : State) (h : P s) :
    P (overlapSteps order s) :=
  foldl_keeps P _ _ (fun t cv _ ht => k.pipeSamples cv.1 cv.2 _ t ht) _ (k.overlapTurns order _ h)

/-- Every step keeps what each primitive change of the state keeps. -/
theorem step (k : StepKept P) {s t : State} (h : P s) (hs : step s = .next t) : P t := by
  obtain ⟨u, moved, outcome⟩ := step_cases hs
  have hu : P u := k.book moved.bookkept h
  rcases outcome with ⟨he, rfl⟩ | rfl | ⟨code, rfl⟩ | ⟨i, hi, hx⟩ | ⟨c, v, rfl⟩ | ⟨order, rfl⟩ | ⟨a, rfl⟩
  · refine k.shutdown u ?_ hu
    simp only [shutdownEnabled, Bool.and_eq_true, Bool.or_eq_true, decide_eq_true_eq] at he
    exact he.2
  · exact hu
  · exact k.book (raiseCmdErr_bookkept code u) hu
  · exact k.exec hi hx hu
  · exact k.pipeStep c v u hu
  · exact k.overlapSteps order u hu
  · exact k.hostAct a u hu

end StepKept

/-! ### What the pipelines and the conditioner write, as the invariants read it -/

theorem pipeBegin_wrote (c : Chan) (v : Variant) (s : State) : PipelinesWrote s (pipeBegin c v s).2 :=
  pipeBegin_keeps (PipelinesWrote.kept s c v) s (.refl s)

theorem pipeSample_wrote (c : Chan) (v : Variant) (z : Sample) (s : State) :
    PipelinesWrote s (pipeSample c v z s) :=
  pipeSample_keeps (PipelinesWrote.kept s c v) z s (.refl s)

/-- The conditioner after an accepted block: its samples one after another, the lists `out[c]` emptied. -/
theorem condAccepted_cond (body : List Word) (s : State) : (condAccepted body s).cond =
    { ((blockSamples body).foldl (fun t x => condSample x t) (acceptBlock (blockSeq body) s)).cond with
      out := ⟨[], []⟩ } := by
  unfold condAccepted
  simp only [clearOut_cond]
  obtain ⟨_, _, _, h⟩ := pushBlocks_frame (blockSeq body)
    ((blockSamples body).foldl (fun t x => condSample x t) (acceptBlock (blockSeq body) s))
  rw [h]

/-- The fan-out changes no pipeline but its queue, and that only where the pair is active (40_conditioner.md
R136). -/
theorem pushBlocks_pipe (seq : Word) (s : State) (c : Chan) (v : Variant) :
    ∃ q, (pushBlocks seq s).pipe.get c v = { s.pipe.get c v with q := q } ∧
      (pairActive s.cfg c v = false → q = (s.pipe.get c v).q) := by
  have nodup : (allPairs.filter fun cv => pairActive s.cfg cv.1 cv.2).Nodup :=
    (by decide : allPairs.Nodup).filter _
  obtain ⟨pushed, others, -, -⟩ := pushes_spec (outBlock seq s) _ nodup s
  by_cases hp : (c, v) ∈ (allPairs.filter fun cv => pairActive s.cfg cv.1 cv.2) ∧
      fullAt s.depths.qDepth (s.pipe.get c v).q.length = false
  · have active : pairActive s.cfg c v = true := (List.mem_filter.1 hp.1).2
    exact ⟨_, pushed c v hp.1 hp.2, fun h => by rw [active] at h; cases h⟩
  · exact ⟨_, others c v hp, fun _ => rfl⟩

/-- An accepted block changes no pipeline but its queue, and that only where the pair is active. -/
theorem condAccepted_pipe (body : List Word) (s : State) (c : Chan) (v : Variant) :
    ∃ q, (condAccepted body s).pipe.get c v = { s.pipe.get c v with q := q } ∧
      (pairActive s.cfg c v = false → q = (s.pipe.get c v).q) := by
  have samples := condSamples_frame (blockSamples body) (acceptBlock (blockSeq body) s)
  unfold condAccepted
  simp only [clearOut_pipe]
  generalize (blockSamples body).foldl (fun t x => condSample x t) (acceptBlock (blockSeq body) s) = u
    at samples
  have hpipe : u.pipe = s.pipe := by rw [samples]; rfl
  have hcfg : u.cfg = s.cfg := by rw [samples]; rfl
  rw [← hpipe, ← hcfg]
  exact pushBlocks_pipe (blockSeq body) u c v

/-- STOP empties every queue and changes nothing else of a pipeline (45_host_commands.md R247). -/
theorem shutdown_pipe (s : State) (c : Chan) (v : Variant) :
    (shutdown s).pipe.get c v = { s.pipe.get c v with q := [] } := by
  rw [shutdown_eq]
  exact PerPipe.get_map _ _ _ _

end Sys2Proof.Machine
end

section
/-!
PROOFS. The reset values (10_state.md R50), and that the invariants hold in them.
-/

namespace Sys2Proof.Machine

open Sys2Proof

/-! ### The reset values -/

theorem coefReset_hIndex (c : Chan) {k : Nat} (hk : k < 64) :
    coefReset (hIndex c k) = if k = 0 then 0x4000#32 else 0#32 := by
  unfold coefReset hIndex
  cases c <;> by_cases h : k = 0 <;> simp only [chanNum, h, if_true, if_false]
  all_goals first | rfl | exact if_neg (by omega)

theorem coefReset_wIndex (c : Chan) {k : Nat} (hk : k < 64) :
    coefReset (wIndex c k) = if k = 0 then 0x4000#32 else 0#32 := by
  unfold coefReset wIndex
  cases c <;> by_cases h : k = 0 <;> simp only [chanNum, h, if_true, if_false]
  all_goals first | rfl | exact if_neg (by omega)

@[simp] theorem reset_pipe (c : Chan) (v : Variant) : State.reset.pipe.get c v = .reset :=
  PerPipe.get_all _ c v

@[simp] theorem reset_kern (c : Chan) : State.reset.kern.get c = .reset := by cases c <;> rfl

@[simp] theorem reset_rotidx (c : Chan) : State.reset.cond.rotidx.get c = 0#6 := by cases c <;> rfl

@[simp] theorem reset_out (c : Chan) : State.reset.cond.out.get c = [] := by cases c <;> rfl

/-- Settles O15: the groups by the lemmas above, every scalar element by computation. -/
theorem resetValuesAreTheSpecs : Obligations.ResetValuesAreTheSpecs :=
  ⟨rfl, rfl, rfl, rfl, rfl, rfl, rfl, rfl, fun c _ hk => ⟨coefReset_hIndex c hk, coefReset_wIndex c hk⟩,
    rfl, rfl, rfl, reset_rotidx, rfl, rfl, reset_kern, reset_pipe, rfl, rfl, rfl, rfl, rfl⟩

/-! ### The invariants at reset -/

theorem PipeRanges.reset : PipeRanges .reset where
  h1 := by unfold SoftReg; decide
  h2 := by unfold SoftReg; decide
  tcnt_low := by decide
  tcnt_high := by decide
  flen := by decide
  search _ := rfl

theorem KernelRanges.reset : KernelRanges .reset := by
  constructor <;> unfold SoftReg <;> decide

theorem DatapathOk.reset : DatapathOk State.reset where
  pipes c v := by rw [reset_pipe]; exact .reset
  kernels c := by rw [reset_kern]; exact .reset
  dl := List.length_replicate

theorem StreamsEmpty.reset : StreamsEmpty State.reset where
  sym c v := by rw [reset_pipe]; rfl
  raw c v := by rw [reset_pipe]; rfl
  dec c v := by rw [reset_pipe]; rfl
  cand c v := by rw [reset_pipe]; rfl
  out := reset_out

theorem LifecycleOk.reset : LifecycleOk State.reset where
  no_cause _ := rfl
  cause h := nomatch h
  legal h := nomatch h
  idle_queues _ c v := by rw [reset_pipe]; rfl
  stopped_queues h := nomatch h
  invalid_queues h := nomatch h
  inactive_queues c v _ := by rw [reset_pipe]; rfl
  latch h := nomatch h

theorem PhaseOk.reset : PhaseOk State.reset where
  legal h := nomatch h
  idle_dphase _ := rfl
  idle_rotidx _ := reset_rotidx
  dphase h := nomatch h
  rotidx h := nomatch h

theorem IdleFresh.reset : IdleFresh State.reset where
  cond _ := rfl
  kern _ := reset_kern
  pipe _ := reset_pipe
  ofifo _ := rfl
  sticky _ := ⟨rfl, rfl⟩
  cause _ := rfl
  counters _ := ⟨rfl, rfl, rfl, rfl⟩

/-- Settles O49: one lemma per invariant. -/
theorem invariantsHoldAtReset : Obligations.InvariantsHoldAtReset :=
  ⟨Memory.wf_reset, .reset, .reset, .reset, .reset, .reset⟩

end Sys2Proof.Machine
end

section
/-!
PROOFS. Every step keeps the coefficient memories canonical, the lifecycle group consistent and the phases of
the conditioner in range: three instances of `StepKept`.
-/

namespace Sys2Proof.Machine

open Sys2Proof

/-! ### The coefficient memories (10_state.md R34) -/

theorem MemoryOk.kept : StepKept MemoryOk where
  book := by rintro s t ⟨_, _, _, _, _, _, _, _, _, _, _, rfl⟩ h; exact h
  reset _ _ := Memory.wf_reset
  pin _ _ h := h
  cfgWrite _ _ _ _ h := h
  coefWrite s a val _ h := Memory.wf_write s.coef a val h
  start _ _ _ h := h
  invalid _ _ h := h
  closed _ _ h := h
  shutdown s _ h := by rw [shutdown_eq]; exact h
  block s body _ h := by
    obtain ⟨_, _, _, _, e⟩ := condAccepted_frame body s
    rw [e]; exact h
  pipeBegin c v s h := by
    obtain ⟨_, _, _, _, _, e⟩ := pipeBegin_wrote c v s
    rw [e]; exact h
  pipeSample c v z s h := by
    obtain ⟨_, _, _, _, _, e⟩ := pipeSample_wrote c v z s
    rw [e]; exact h

/-- Settles O50: CFGWR of a coefficient word is the only change but for a reset, and a write keeps the
form. -/
theorem stepKeepsMemoryCanonical : Obligations.StepKeepsMemoryCanonical :=
  fun _ _ => MemoryOk.kept.step

/-! ### The lifecycle group (10_state.md R20, R39; 60_exceptions.md R280, R290) -/

/-- A high pin has set the latch, whatever the latch was (45_host_commands.md R248). -/
theorem setShutdown_latch (level : Bool) (s : State) (h : (setShutdown level s).shutdownReq = true) :
    (setShutdown level s).shutdownLatch = true := by
  rw [setShutdown_shutdownReq] at h
  rw [setShutdown_shutdownLatch, h, Bool.or_true]

theorem LifecycleOk.start {s : State} (hl : s.life = .idle) (hc : cfgLegal s.cfg = true)
    (h : LifecycleOk s) : LifecycleOk { s with life := .running } where
  no_cause _ := h.no_cause (by simp [hl])
  cause e := nomatch e
  legal _ := hc
  idle_queues e := nomatch e
  stopped_queues e := nomatch e
  invalid_queues e := nomatch e
  inactive_queues := h.inactive_queues
  latch := h.latch

theorem LifecycleOk.invalid {s : State} (hl : s.life = .idle) (h : LifecycleOk s) :
    LifecycleOk (raiseFatal .configInvalid s) where
  no_cause e := absurd rfl e
  cause _ := .inl rfl
  legal e := nomatch e
  idle_queues e := nomatch e
  stopped_queues e := nomatch e
  invalid_queues _ _ := h.idle_queues hl
  inactive_queues := h.inactive_queues
  latch := h.latch

theorem LifecycleOk.closed {s : State} (h : LifecycleOk s) : LifecycleOk (raiseFatal .srcClosed s) where
  no_cause e := absurd rfl e
  cause _ := .inr rfl
  legal e := nomatch e
  idle_queues e := nomatch e
  stopped_queues e := nomatch e
  invalid_queues _ e := absurd e (by decide : fatalNum .srcClosed ≠ 1#8)
  inactive_queues := h.inactive_queues
  latch := h.latch

theorem LifecycleOk.shutdown {s : State} (hl : s.life = .idle ∨ s.life = .running) (h : LifecycleOk s) :
    LifecycleOk (shutdown s) := by
  have empty : ∀ c v, ((Machine.shutdown s).pipe.get c v).q = [] := fun c v => by rw [shutdown_pipe]
  have cause : s.fatalCause = 0#8 := h.no_cause (by rcases hl with e | e <;> simp [e])
  rw [shutdown_eq] at empty ⊢
  exact {
    no_cause := fun _ => cause
    cause := fun e => nomatch e
    legal := fun e => nomatch e
    idle_queues := fun e => nomatch e
    stopped_queues := fun _ => empty
    invalid_queues := fun e => nomatch e
    inactive_queues := fun c v _ => empty c v
    latch := h.latch }

/-- A block goes only to the queues of active pairs, and only in RUNNING (40_conditioner.md R136). -/
theorem LifecycleOk.block {s : State} (body : List Word) (hl : s.life = .running) (h : LifecycleOk s) :
    LifecycleOk (condAccepted body s) := by
  have inactive : ∀ c v, pairActive s.cfg c v = false → ((condAccepted body s).pipe.get c v).q = [] := by
    intro c v hp
    obtain ⟨q, e, hq⟩ := condAccepted_pipe body s c v
    rw [e]
    exact (hq hp).trans (h.inactive_queues c v hp)
  obtain ⟨_, _, _, _, e⟩ := condAccepted_frame body s
  rw [e] at inactive ⊢
  have not_life : ∀ l, l ≠ .running → s.life ≠ l := fun l hne e => hne (e.symm.trans hl)
  exact {
    no_cause := h.no_cause
    cause := h.cause
    legal := h.legal
    idle_queues := fun e => absurd e (not_life _ (by decide))
    stopped_queues := fun e => absurd e (not_life _ (by decide))
    invalid_queues := fun e => absurd e (not_life _ (by decide))
    inactive_queues := inactive
    latch := h.latch }

/-- A pipeline only shortens queues. -/
theorem LifecycleOk.of_pipelines {s t : State} (hw : PipelinesWrote s t) (hq : QueuesLeft s t)
    (h : LifecycleOk s) : LifecycleOk t := by
  have empty : ∀ c v, (s.pipe.get c v).q = [] → (t.pipe.get c v).q = [] :=
    fun c v e => List.suffix_nil.1 (e ▸ hq c v)
  obtain ⟨_, _, _, _, _, rfl⟩ := hw
  exact {
    no_cause := h.no_cause
    cause := h.cause
    legal := h.legal
    idle_queues := fun hl c v => empty c v (h.idle_queues hl c v)
    stopped_queues := fun hl c v => empty c v (h.stopped_queues hl c v)
    invalid_queues := fun hl hc c v => empty c v (h.invalid_queues hl hc c v)
    inactive_queues := fun c v hp => empty c v (h.inactive_queues c v hp)
    latch := h.latch }

theorem LifecycleOk.kept : StepKept LifecycleOk where
  book := by
    rintro s t ⟨_, _, _, _, _, _, _, _, _, _, _, rfl⟩ h
    exact ⟨h.no_cause, h.cause, h.legal, h.idle_queues, h.stopped_queues, h.invalid_queues,
      h.inactive_queues, h.latch⟩
  reset _ _ := { LifecycleOk.reset with latch := id }
  pin s level h := { h with latch := setShutdown_latch level s }
  cfgWrite s _ _ hl h := { h with
    legal := fun e => by rw [hl] at e; cases e
    inactive_queues := fun c v _ => h.idle_queues hl c v }
  coefWrite _ _ _ _ h := ⟨h.no_cause, h.cause, h.legal, h.idle_queues, h.stopped_queues, h.invalid_queues,
    h.inactive_queues, h.latch⟩
  start _ hl hc h := h.start hl hc
  invalid _ hl h := h.invalid hl
  closed _ _ h := h.closed
  shutdown _ hl h := h.shutdown hl
  block _ body hl h := h.block body hl
  pipeBegin c v s h := h.of_pipelines (pipeBegin_wrote c v s)
    (pipeBegin_keeps (QueuesLeft.kept s c v) s fun _ _ => List.suffix_refl _)
  pipeSample c v z s h := h.of_pipelines (pipeSample_wrote c v z s)
    (pipeSample_keeps (QueuesLeft.kept s c v) z s fun _ _ => List.suffix_refl _)

/-- Settles O53: the transitions of LIFE one by one; blocks go to active pairs in RUNNING only, and
pipelines only shorten queues. -/
theorem stepKeepsLifecycle : Obligations.StepKeepsLifecycle :=
  fun _ _ => LifecycleOk.kept.step

/-! ### The phases of the conditioner (10_state.md R40) -/

/-- The rotation lengths that START lets through (45_host_commands.md R246). -/
theorem rotlen_of_legal {cfg : Cfg} (h : cfgLegal cfg = true) (c : Chan) :
    1 ≤ rotlen cfg c ∧ rotlen cfg c ≤ 64 := by
  simp only [cfgLegal, Bool.and_eq_true, decide_eq_true_eq] at h
  obtain ⟨⟨⟨⟨⟨⟨-, h0⟩, h1⟩, -⟩, -⟩, -⟩, -⟩ := h
  cases c
  · exact h0
  · exact h1

theorem decim_of_legal {cfg : Cfg} (h : cfgLegal cfg = true) : 1 ≤ cfg.decim.toNat := by
  simp only [cfgLegal, Bool.and_eq_true, decide_eq_true_eq] at h
  obtain ⟨⟨⟨⟨⟨⟨⟨⟨-, hd, -⟩, -⟩, -⟩, -⟩, -⟩, -⟩, -⟩, -⟩ := h
  exact hd

/-- The next rotation index is in range (40_conditioner.md R135). -/
theorem nextRot_lt {s : State} {c : Chan} (h : 1 ≤ rotlen s.cfg c ∧ rotlen s.cfg c ≤ 64) :
    (nextRot s c).toNat < rotlen s.cfg c := by
  have hm := Nat.mod_lt ((s.cond.rotidx.get c).toNat + 1) h.1
  unfold nextRot
  rw [BitVec.toNat_ofNat, Nat.mod_eq_of_lt (by omega)]
  exact hm

/-- COND.SAMPLE's decimation phase (40_conditioner.md R133). -/
theorem condSample_dphase (x : Sample) (s : State) : (condSample x s).cond.dphase =
    if s.cond.dphase.toNat + 1 = s.cfg.decim.toNat then 0#7
    else BitVec.ofNat 7 (s.cond.dphase.toNat + 1) := by
  unfold condSample
  simp only []
  split
  · rw [activeChans_eq]
    split <;> split <;> rfl
  · rfl

/-- COND.SAMPLE moves a channel's rotation index on once, or not at all (40_conditioner.md R133, R135). -/
theorem condSample_rotidx (x : Sample) (s : State) (c : Chan) :
    (condSample x s).cond.rotidx.get c = s.cond.rotidx.get c ∨
      (condSample x s).cond.rotidx.get c = nextRot s c := by
  unfold condSample
  simp only []
  split
  · rw [activeChans_eq]
    split <;> split <;> cases c <;> first | exact .inl rfl | exact .inr rfl
  · exact .inl rfl

theorem condSample_cfg (x : Sample) (s : State) : (condSample x s).cfg = s.cfg := by
  rw [condSample_frame]

/-- The conditioner's phases are in range under a legal configuration. -/
structure PhasesIn (cfg : Cfg) (s : State) : Prop where
  same_cfg : s.cfg = cfg
  dphase : s.cond.dphase.toNat < cfg.decim.toNat
  rotidx : ∀ c, (s.cond.rotidx.get c).toNat < rotlen cfg c

theorem PhasesIn.condSample {cfg : Cfg} (hc : cfgLegal cfg = true) (x : Sample) {s : State}
    (h : PhasesIn cfg s) : PhasesIn cfg (condSample x s) where
  same_cfg := (condSample_cfg x s).trans h.same_cfg
  dphase := by
    have hd := h.dphase
    have := cfg.decim.isLt
    rw [condSample_dphase, h.same_cfg]
    split
    · exact decim_of_legal hc
    · rw [BitVec.toNat_ofNat]
      omega
  rotidx c := by
    rcases condSample_rotidx x s c with e | e <;> rw [e]
    · exact h.rotidx c
    · have hn := nextRot_lt (s := s) (c := c) (h.same_cfg ▸ rotlen_of_legal hc c)
      rwa [h.same_cfg] at hn

/-- A block's samples keep the phases in range (40_conditioner.md R133). -/
theorem PhaseOk.block {s : State} (body : List Word) (hl : s.life = .running) (h : PhaseOk s) :
    PhaseOk (condAccepted body s) := by
  have hs : PhasesIn s.cfg
      ((blockSamples body).foldl (fun t x => condSample x t) (acceptBlock (blockSeq body) s)) :=
    foldl_keeps (PhasesIn s.cfg) _ _ (fun t x _ ht => ht.condSample (h.legal hl) x) _
      ⟨rfl, h.dphase hl, h.rotidx hl⟩
  have hcond := condAccepted_cond body s
  obtain ⟨_, _, _, _, e⟩ := condAccepted_frame body s
  rw [e] at hcond ⊢
  simp only at hcond
  simp only [hcond]
  have not_idle : s.life ≠ .idle := fun e => by rw [hl] at e; cases e
  exact {
    legal := h.legal
    idle_dphase := fun e => absurd e not_idle
    idle_rotidx := fun e => absurd e not_idle
    dphase := fun _ => hs.dphase
    rotidx := fun _ => hs.rotidx }

/-- START finds both phases at 0, below every legal DECIM and ROTLEN (45_host_commands.md R245, R246). -/
theorem PhaseOk.start {s : State} (hl : s.life = .idle) (hc : cfgLegal s.cfg = true) (h : PhaseOk s) :
    PhaseOk { s with life := .running } where
  legal _ := hc
  idle_dphase e := nomatch e
  idle_rotidx e := nomatch e
  dphase _ := by
    have := decim_of_legal hc
    simp only [h.idle_dphase hl, BitVec.toNat_ofNat]
    omega
  rotidx _ c := by
    have := rotlen_of_legal hc c
    simp only [h.idle_rotidx hl c, BitVec.toNat_ofNat]
    omega

/-- Outside IDLE and RUNNING the phases are free. -/
theorem PhaseOk.of_halted {s : State} (hi : s.life ≠ .idle) (hr : s.life ≠ .running) : PhaseOk s where
  legal e := absurd e hr
  idle_dphase e := absurd e hi
  idle_rotidx e := absurd e hi
  dphase e := absurd e hr
  rotidx e := absurd e hr

theorem PhaseOk.of_pipelines {s t : State} (hw : PipelinesWrote s t) (h : PhaseOk s) : PhaseOk t := by
  obtain ⟨_, _, _, _, _, rfl⟩ := hw
  exact ⟨h.legal, h.idle_dphase, h.idle_rotidx, h.dphase, h.rotidx⟩

theorem PhaseOk.kept : StepKept PhaseOk where
  book := by
    rintro s t ⟨_, _, _, _, _, _, _, _, _, _, _, rfl⟩ h
    exact ⟨h.legal, h.idle_dphase, h.idle_rotidx, h.dphase, h.rotidx⟩
  reset _ _ := { PhaseOk.reset with }
  pin _ _ h := ⟨h.legal, h.idle_dphase, h.idle_rotidx, h.dphase, h.rotidx⟩
  cfgWrite s _ _ hl h := by
    have not_running : s.life ≠ .running := fun e => by rw [hl] at e; cases e
    exact { h with
      legal := fun e => absurd e not_running
      dphase := fun e => absurd e not_running
      rotidx := fun e => absurd e not_running }
  coefWrite _ _ _ _ h := ⟨h.legal, h.idle_dphase, h.idle_rotidx, h.dphase, h.rotidx⟩
  start _ hl hc h := h.start hl hc
  invalid _ _ _ := .of_halted (fun e => nomatch e) (fun e => nomatch e)
  closed _ _ _ := .of_halted (fun e => nomatch e) (fun e => nomatch e)
  shutdown s _ _ := by
    rw [shutdown_eq]
    exact .of_halted (fun e => nomatch e) (fun e => nomatch e)
  block _ body hl h := h.block body hl
  pipeBegin c v s h := h.of_pipelines (pipeBegin_wrote c v s)
  pipeSample c v z s h := h.of_pipelines (pipeSample_wrote c v z s)

/-- Settles O54: START finds the phases at 0 under a legal configuration, and in RUNNING only the samples of
an accepted block move them. -/
theorem stepKeepsConditionerPhases : Obligations.StepKeepsConditionerPhases :=
  fun _ _ => PhaseOk.kept.step

end Sys2Proof.Machine
end

section
/-!
PROOFS. Every step keeps the registers of the kernels, the synchronisers and the deframers in range, and leaves
the internal streams empty: two instances of `StepKept`.
-/

namespace Sys2Proof.Machine

open Sys2Proof

/-! ### Soft registers -/

/-- A soft value stored is in range. -/
theorem SoftReg.ofInt {x : Int} (h : -32767 ≤ x ∧ x ≤ 32767) : SoftReg (BitVec.ofInt 16 x) := by
  unfold SoftReg
  rw [toInt_ofInt16 (by omega) h.2]
  exact h.1

/-! ### The synchroniser (42_synchroniser.md R172, R173) -/

/-- The correction of the timing register is at most TGAIN either way (42_synchroniser.md R173). -/
theorem synCorrection_bounds (cfg : Cfg) (early late : Int) :
    -15 ≤ (cfg.tgain.toNat : Int) * synTed early late ∧
      (cfg.tgain.toNat : Int) * synTed early late ≤ 15 := by
  have := cfg.tgain.isLt
  rw [synTed_eq]
  split
  · omega
  · split <;> omega

/-- A call leaves the history holding soft values and the timing register in [-15, 79], whether it strobes or
not. -/
theorem synTrans_timing (cfg : Cfg) (x : Int) (st : SynState) (hlow : -15 ≤ st.tcnt.toInt)
    (hhigh : st.tcnt.toInt ≤ 79) :
    (synTrans cfg x st).st.h1 = BitVec.ofInt 16 x ∧ (synTrans cfg x st).st.h2 = st.h1 ∧
      -15 ≤ (synTrans cfg x st).st.tcnt.toInt ∧ (synTrans cfg x st).st.tcnt.toInt ≤ 79 := by
  by_cases hs : 80 ≤ st.tcnt.toInt + 16
  · have hc := synCorrection_bounds cfg st.h2.toInt x
    rw [synTrans_strobe cfg x st hs]
    simp only [synShift, lockStep_timing]
    rw [toInt_ofInt8 (by omega) (by omega)]
    exact ⟨trivial, trivial, by omega, by omega⟩
  · rw [synTrans_between cfg x st (by omega)]
    simp only []
    rw [toInt_ofInt8 (by omega) (by omega)]
    exact ⟨trivial, trivial, by omega, by omega⟩

/-! ### The deframer (43_deframer.md R193 to R204) -/

/-- The range of the frame buffer's length, and SEARCH with an empty buffer (43_deframer.md R204). -/
structure DfrRanges (d : DfrState) : Prop where
  flen : d.flen.toNat ≤ 1030
  search : d.fstate = .search → d.flen = 0#11

theorem DfrRanges.toSearch (d : DfrState) : DfrRanges (toSearch d) :=
  ⟨by simp [Machine.toSearch], fun _ => rfl⟩

theorem DfrRanges.runUpdate {d : DfrState} (h : DfrRanges d) (b : Bool) : DfrRanges (runUpdate b d) := by
  rw [runUpdate_eq]
  exact ⟨h.flen, h.search⟩

theorem DfrRanges.append {d : DfrState} (h : DfrRanges d) (b : Bool) : DfrRanges (append b d).1 := by
  cases hf : d.fstate with
  | search => rw [append_search b d hf]; exact h
  | fill =>
    by_cases hl : d.flen.toNat < 1030
    · rw [append_room b d hf hl]
      refine ⟨?_, fun e => by rw [hf] at e; cases e⟩
      simp only [BitVec.toNat_add, BitVec.toNat_ofNat]
      omega
    · rw [append_full b d hf (by omega)]
      exact .toSearch d

theorem DfrRanges.abortFrame {d : DfrState} (h : DfrRanges d) : DfrRanges (abortFrame d).1 := by
  unfold Machine.abortFrame
  split
  · exact h
  · exact .toSearch d

theorem DfrRanges.flagSeen (cfg : Cfg) (d : DfrState) : DfrRanges (flagSeen cfg d).1 :=
  ⟨by simp [Machine.flagSeen], fun e => nomatch e⟩

/-- Class by class (43_deframer.md R195 to R201). -/
theorem DfrRanges.hdlcTrans {d : DfrState} (h : DfrRanges d) (cfg : Cfg) (b : Bool) :
    DfrRanges (hdlcTrans cfg b d).1 := by
  have hr := h.runUpdate b
  unfold Machine.hdlcTrans
  simp only []
  split
  · exact hr.append true
  · exact hr
  · exact hr.abortFrame
  · exact hr.append false
  · exact hr
  · exact .flagSeen cfg _
  · exact hr

/-! ### The kernels (41_demodulator.md R155, R158) -/

/-- The signed magnitude that COH puts in its ring is a soft value (41_demodulator.md R155). -/
theorem sgn_mul_bounds (x : Int) {a : Int} (h0 : 0 ≤ a) (h : a ≤ 32767) :
    -32767 ≤ sgn x * a ∧ sgn x * a ≤ 32767 := by
  unfold sgn
  split
  · omega
  · split <;> omega

/-- The tracked mean lies between the mean before and the hypothesis (41_demodulator.md R158). -/
theorem chalMean_bounds (cfg : Cfg) {dc h : Int} (hdc : -32767 ≤ dc ∧ dc ≤ 32767)
    (hh : -32767 ≤ h ∧ h ≤ 32767) : -32767 ≤ chalMean cfg dc h ∧ chalMean cfg dc h ≤ 32767 := by
  have hp : (0 : Int) < 2 ^ cfg.chalDcsh.toNat := Int.pow_pos (by decide)
  unfold chalMean shr
  by_cases hd : 0 ≤ h - dc
  · have h1 := Int.ediv_nonneg hd (Int.le_of_lt hp)
    have h2 := Int.ediv_le_self (2 ^ cfg.chalDcsh.toNat) hd
    omega
  · have h1 := Int.ediv_neg_of_neg_of_pos (by omega : h - dc < 0) hp
    have h2 : (h - dc) * 2 ^ cfg.chalDcsh.toNat ≤ (h - dc) * 1 :=
      Int.mul_le_mul_of_nonpos_left (by omega) hp
    have h3 := (Int.le_ediv_iff_mul_le hp).2 (Int.mul_one (h - dc) ▸ h2)
    omega

theorem SoftReg.chalMean (cfg : Cfg) {dc : BitVec 16} (h : SoftReg dc) (base k : Int) :
    SoftReg (BitVec.ofInt 16 (chalMean cfg dc.toInt (chalHyp cfg base k))) :=
  .ofInt (chalMean_bounds cfg ⟨h, (toInt16_bounds dc).2⟩ (satsoft_bounds _))

theorem KernelRanges.ncoh {k : Kernels} (h : KernelRanges k) (n : NcohState) :
    KernelRanges { k with ncoh := n } :=
  ⟨h.u0, h.u1, h.u2, h.u3, h.u4, h.dc0, h.dc1, h.dc2⟩

theorem KernelRanges.coh {k : Kernels} (h : KernelRanges k) (cfg : Cfg) (z : Sample) :
    KernelRanges { k with coh := (kernelCoh cfg z k.coh).1 } where
  u0 := by
    refine .ofInt (sgn_mul_bounds _ ?_ (Int.min_le_right _ _))
    simp only [shr, absI_eq]
    omega
  u1 := h.u0
  u2 := h.u1
  u3 := h.u2
  u4 := h.u3
  dc0 := h.dc0
  dc1 := h.dc1
  dc2 := h.dc2

theorem KernelRanges.chal {k : Kernels} (h : KernelRanges k) (cfg : Cfg) (z : Sample) :
    KernelRanges { k with chal := (kernelChal cfg z k.chal).1 } where
  u0 := h.u0
  u1 := h.u1
  u2 := h.u2
  u3 := h.u3
  u4 := h.u4
  dc0 := h.dc0.chalMean cfg _ 0
  dc1 := h.dc1.chalMean cfg _ 1
  dc2 := h.dc2.chalMean cfg _ 2

/-! ### The datapath (10_state.md R44 to R47) -/

theorem PipeRanges.dfr {p : Pipe} (h : PipeRanges p) : DfrRanges p.dfr := ⟨h.flen, h.search⟩

/-- The ranges speak of the synchroniser and the deframer only. -/
theorem PipeRanges.of_eq {p p' : Pipe} (h : PipeRanges p) (hs : p'.syn = p.syn)
    (hf : p'.dfr.flen = p.dfr.flen) (hst : p'.dfr.fstate = p.dfr.fstate) : PipeRanges p' where
  h1 := hs ▸ h.h1
  h2 := hs ▸ h.h2
  tcnt_low := hs ▸ h.tcnt_low
  tcnt_high := hs ▸ h.tcnt_high
  flen := hf ▸ h.flen
  search := by rw [hf, hst]; exact h.search

theorem DatapathOk.setPipe {s : State} (h : DatapathOk s) {c : Chan} {v : Variant} {p : Pipe}
    (hp : PipeRanges p) : DatapathOk (s.setPipe c v p) where
  pipes d w := by
    by_cases e : (d, w) = (c, v)
    · obtain ⟨rfl, rfl⟩ := Prod.mk.inj e
      simpa using hp
    · simpa [PerPipe.get_set_other _ _ e] using h.pipes d w
  kernels := h.kernels
  dl := h.dl

theorem DatapathOk.setKern {s : State} (h : DatapathOk s) {c : Chan} {k : Kernels} (hk : KernelRanges k) :
    DatapathOk (s.setKern c k) where
  pipes := h.pipes
  kernels d := by
    by_cases e : d = c
    · subst e
      simpa using hk
    · simpa [PerChan.get_set_other _ _ e] using h.kernels d
  dl := h.dl

theorem DatapathOk.synStep {s : State} (h : DatapathOk s) (c : Chan) (v : Variant) (e : BitVec 16) :
    DatapathOk (synStep c v e s) := by
  have hp := h.pipes c v
  obtain ⟨h1, h2, low, high⟩ := synTrans_timing s.cfg (softOf e) _ hp.tcnt_low hp.tcnt_high
  exact h.setPipe {
    h1 := h1 ▸ .ofInt (softOf_bounds e)
    h2 := h2 ▸ hp.h1
    tcnt_low := low
    tcnt_high := high
    flen := hp.flen
    search := hp.search }

theorem DatapathOk.hdlcBit {s : State} (h : DatapathOk s) (c : Chan) (v : Variant) (d : Bool) :
    DatapathOk (hdlcBit c v d s) := by
  have hp := h.pipes c v
  have hd := hp.dfr.hdlcTrans s.cfg d
  exact h.setPipe ⟨hp.h1, hp.h2, hp.tcnt_low, hp.tcnt_high, hd.flen, hd.search⟩

/-- VAL.FRAME reaches neither the kernels nor the conditioner. -/
theorem valFrame_kern_cond (f : CandFrame) (s : State) :
    (valFrame f s).kern = s.kern ∧ (valFrame f s).cond = s.cond := by
  unfold valFrame setCnt pushFrame
  simp only []
  split
  · exact ⟨rfl, rfl⟩
  · split
    · exact ⟨rfl, rfl⟩
    · split <;> exact ⟨rfl, rfl⟩

theorem DatapathOk.valFrame {s : State} (h : DatapathOk s) (f : CandFrame) : DatapathOk (valFrame f s) := by
  obtain ⟨kern, cond⟩ := valFrame_kern_cond f s
  refine ⟨fun c v => ?_, kern ▸ h.kernels, cond ▸ h.dl⟩
  obtain ⟨_, e⟩ := valFrame_pipe f s c v
  rw [e]
  exact (h.pipes c v).of_eq rfl rfl rfl

theorem DatapathOk.demStep {s : State} (h : DatapathOk s) (c : Chan) (v : Variant) (z : Sample) :
    DatapathOk (demStep c v z s) := by
  have emitted : ∀ (k : Kernels) (soft : Int), KernelRanges k →
      DatapathOk (emitSym c v soft (s.setKern c k)) :=
    fun k soft hk => (h.setKern hk).setPipe ((h.pipes c v).of_eq rfl rfl rfl)
  have hk := h.kernels c
  cases v with
  | ncoh => exact emitted _ _ (hk.ncoh _)
  | coh => exact emitted _ _ (hk.coh s.cfg z)
  | chal => exact emitted _ _ (hk.chal s.cfg z)

/-- Every part of a pipeline's step keeps the ranges. -/
theorem DatapathOk.blockKept (c : Chan) (v : Variant) : BlockKept c v (fun _ => True) DatapathOk := by
  have same : ∀ (t : State) (p : Pipe), p.syn = (t.pipe.get c v).syn →
      p.dfr.flen = (t.pipe.get c v).dfr.flen → p.dfr.fstate = (t.pipe.get c v).dfr.fstate →
      DatapathOk t → DatapathOk (t.setPipe c v p) :=
    fun t p hs hf hst h => h.setPipe ((h.pipes c v).of_eq hs hf hst)
  exact {
    frames := fun _ _ _ _ => trivial
    clearSym := fun t => same t _ rfl rfl rfl
    clearRaw := fun t => same t _ rfl rfl rfl
    clearDec := fun t => same t _ rfl rfl rfl
    clearCand := fun t => same t _ rfl rfl rfl
    syn := fun _ e h => h.synStep c v e
    nrzi := fun t _ => same t _ rfl rfl rfl
    hdlc := fun _ d h => h.hdlcBit c v d
    val := fun _ f _ h => h.valFrame f
    pop := fun t _ _ _ => same t _ rfl rfl rfl
    count := fun t => same t _ rfl rfl rfl
    dem := fun _ z h => h.demStep c v z }

/-- COND.SAMPLE keeps the length of the delay line (40_conditioner.md R133). -/
theorem condSample_dl_length (x : Sample) (s : State) (h : s.cond.dl.length = 64) :
    (condSample x s).cond.dl.length = 64 := by
  have e : (condSample x s).cond.dl = shiftDl x s.cond.dl := by
    unfold condSample
    simp only []
    split
    · rw [activeChans_eq]
      split <;> split <;> rfl
    · rfl
  rw [e, shiftDl, List.length_take, List.length_cons, h]
  rfl

theorem DatapathOk.block {s : State} (h : DatapathOk s) (body : List Word) :
    DatapathOk (condAccepted body s) where
  pipes c v := by
    obtain ⟨_, e, -⟩ := condAccepted_pipe body s c v
    rw [e]
    exact (h.pipes c v).of_eq rfl rfl rfl
  kernels := by
    obtain ⟨_, _, _, _, e⟩ := condAccepted_frame body s
    rw [e]
    exact h.kernels
  dl := by
    rw [condAccepted_cond]
    exact foldl_keeps (fun t => t.cond.dl.length = 64) _ _ (fun t x _ => condSample_dl_length x t)
      (acceptBlock (blockSeq body) s) h.dl

theorem DatapathOk.shutdown {s : State} (h : DatapathOk s) : DatapathOk (shutdown s) where
  pipes c v := by
    rw [shutdown_pipe]
    exact (h.pipes c v).of_eq rfl rfl rfl
  kernels := by rw [shutdown_eq]; exact h.kernels
  dl := by rw [shutdown_eq]; exact h.dl

theorem DatapathOk.kept : StepKept DatapathOk where
  book := by
    rintro s t ⟨_, _, _, _, _, _, _, _, _, _, _, rfl⟩ h
    exact ⟨h.pipes, h.kernels, h.dl⟩
  reset _ _ := ⟨DatapathOk.reset.pipes, DatapathOk.reset.kernels, DatapathOk.reset.dl⟩
  pin _ _ h := ⟨h.pipes, h.kernels, h.dl⟩
  cfgWrite _ _ _ _ h := ⟨h.pipes, h.kernels, h.dl⟩
  coefWrite _ _ _ _ h := ⟨h.pipes, h.kernels, h.dl⟩
  start _ _ _ h := ⟨h.pipes, h.kernels, h.dl⟩
  invalid _ _ h := ⟨h.pipes, h.kernels, h.dl⟩
  closed _ _ h := ⟨h.pipes, h.kernels, h.dl⟩
  shutdown _ _ h := h.shutdown
  block _ body _ h := h.block body
  pipeBegin c v s h := pipeBegin_keeps (DatapathOk.blockKept c v) s h
  pipeSample c v z s h := pipeSample_keeps (DatapathOk.blockKept c v) z s h

/-- Settles O51: the ranges stage by stage; only a pipeline's step, a block's samples and a reset write these
registers. -/
theorem stepKeepsDatapathRanges : Obligations.StepKeepsDatapathRanges :=
  fun _ _ => DatapathOk.kept.step

/-! ### The internal streams (10_state.md R51 (d)) -/

theorem streamsEmpty_iff (s : State) :
    StreamsEmpty s ↔ (∀ c v, Drained c v s) ∧ ∀ c, s.cond.out.get c = [] :=
  ⟨fun h => ⟨fun c v => ⟨h.cand c v, h.dec c v, h.raw c v, h.sym c v⟩, h.out⟩,
    fun ⟨hd, ho⟩ => ⟨fun c v => (hd c v).2.2.2, fun c v => (hd c v).2.2.1, fun c v => (hd c v).2.1,
      fun c v => (hd c v).1, ho⟩⟩

/-- A change to the queues alone leaves the streams. -/
theorem Drained.of_queue {c : Chan} {v : Variant} {s t : State} {q : List Block}
    (e : t.pipe.get c v = { s.pipe.get c v with q := q }) (h : Drained c v s) : Drained c v t := by
  unfold Drained
  rw [e]
  exact h

/-- A pipeline's step leaves the streams of every other pipeline, and the conditioner, alone. -/
theorem StreamsEmpty.of_frame {c : Chan} {v : Variant} {s t : State} (hf : PipeFrame c v s t)
    (hd : Drained c v t) (h : StreamsEmpty s) : StreamsEmpty t := by
  obtain ⟨drained, out⟩ := (streamsEmpty_iff s).1 h
  have hcond : t.cond = s.cond := by rw [hf.rest]
  refine (streamsEmpty_iff t).2 ⟨fun d w => ?_, hcond ▸ out⟩
  by_cases e : (d, w) = (c, v)
  · obtain ⟨rfl, rfl⟩ := Prod.mk.inj e
    exact hd
  · have other : t.pipe.get d w = s.pipe.get d w := by
      rw [congrArg State.pipe hf.rest]
      exact PerPipe.get_set_other _ _ e
    exact Drained.of_queue other (drained d w)

/-- A sample's elements are all consumed (41_demodulator.md R151). -/
theorem StreamsEmpty.pipeSample {s : State} (h : StreamsEmpty s) (c : Chan) (v : Variant) (z : Sample) :
    StreamsEmpty (pipeSample c v z s) := by
  have frame := (pipeSample_keeps (PipeFrame.kept c v s) z s
    ⟨PipeFrame.refl s, by simp [h.cand c v]⟩).1
  exact h.of_frame frame (pipeSample_streams z s (h.cand c v) (h.dec c v) (h.raw c v))

/-- A block is taken off its queue and nothing else (41_demodulator.md R151). -/
theorem StreamsEmpty.pipeBegin {s : State} (h : StreamsEmpty s) (c : Chan) (v : Variant) :
    StreamsEmpty (pipeBegin c v s).2 := by
  have drained : Drained c v s := ((streamsEmpty_iff s).1 h).1 c v
  unfold Machine.pipeBegin
  simp only [(streamsPending_eq_false c v s).2 drained, Bool.false_eq_true, if_false]
  split
  · split
    · exact h
    · next b rest _ =>
      exact h.of_frame (PipeFrame.setPipe s _)
        (Drained.of_queue (q := rest) (PerPipe.get_set_same _ _ _ _) drained)
  · exact h

theorem StreamsEmpty.of_queues {s t : State} (hout : ∀ c, t.cond.out.get c = [])
    (hpipe : ∀ c v, ∃ q, t.pipe.get c v = { s.pipe.get c v with q := q }) (h : StreamsEmpty s) :
    StreamsEmpty t := by
  refine (streamsEmpty_iff t).2 ⟨fun c v => ?_, hout⟩
  obtain ⟨q, e⟩ := hpipe c v
  exact Drained.of_queue e (((streamsEmpty_iff s).1 h).1 c v)

theorem StreamsEmpty.kept : StepKept StreamsEmpty where
  book := by
    rintro s t ⟨_, _, _, _, _, _, _, _, _, _, _, rfl⟩ h
    exact ⟨h.sym, h.raw, h.dec, h.cand, h.out⟩
  reset _ _ := { StreamsEmpty.reset with }
  pin _ _ h := ⟨h.sym, h.raw, h.dec, h.cand, h.out⟩
  cfgWrite _ _ _ _ h := ⟨h.sym, h.raw, h.dec, h.cand, h.out⟩
  coefWrite _ _ _ _ h := ⟨h.sym, h.raw, h.dec, h.cand, h.out⟩
  start _ _ _ h := ⟨h.sym, h.raw, h.dec, h.cand, h.out⟩
  invalid _ _ h := ⟨h.sym, h.raw, h.dec, h.cand, h.out⟩
  closed _ _ h := ⟨h.sym, h.raw, h.dec, h.cand, h.out⟩
  shutdown s _ h := by
    refine h.of_queues ?_ fun c v => ⟨[], shutdown_pipe s c v⟩
    rw [shutdown_eq]
    exact h.out
  block s body _ h := by
    refine h.of_queues (fun c => ?_) fun c v => ?_
    · rw [condAccepted_cond]
      cases c <;> rfl
    · obtain ⟨q, e, -⟩ := condAccepted_pipe body s c v
      exact ⟨q, e⟩
  pipeBegin c v _ h := h.pipeBegin c v
  pipeSample c v z _ h := h.pipeSample c v z

/-- Settles O52: a block's samples are worked off one by one, and BLOCK empties the lists `out[c]`. -/
theorem stepLeavesStreamsEmpty : Obligations.StepLeavesStreamsEmpty :=
  fun _ _ => StreamsEmpty.kept.step

end Sys2Proof.Machine
end

section
/-!
PROOFS. The register space: what CFGWR of a configuration register and of a coefficient word writes and what
every register reads as afterwards (10_state.md R32 to R34), and the computed registers (R28 to R30, R37, R38).
-/

namespace Sys2Proof.Machine

open Sys2Proof

/-! ### CFGWR and REGRD of a mapped register (45_host_commands.md R243, R244) -/

theorem exec_cfgwr_mapped {idx : BitVec 12} {r : Reg} (h : regOfIndex idx = some r) (arg : BitVec 12)
    (val : Word) (s : State) : exec (.cfgwr arg idx val) s = .next (cfgWrite r val s) := by
  show execCfgwr idx val s = _
  rw [execCfgwr, h]

theorem exec_regrd_mapped {idx : BitVec 12} {r : Reg} (h : regOfIndex idx = some r) (arg : BitVec 12)
    (s : State) : exec (.regrd arg idx) s = .next (pushRsp [readReg r s] s) := by
  show execRegrd idx s = _
  rw [execRegrd, h]

/-- A register that IDLE unlocks is written in IDLE (45_host_commands.md R243). -/
theorem cfgWrite_of_idle {r : Reg} {s : State} (ha : regAccess r = .cfg) (hl : s.life = .idle) (val : Word) :
    cfgWrite r val s = writeReg r val s := by
  unfold cfgWrite
  rw [ha]
  exact if_pos hl

/-! ### The scalar configuration registers (10_state.md R32, R33) -/

theorem regOfIndex_cfg (k : CfgReg) : regOfIndex (indexOfReg (.cfg k)) = some (.cfg k) := by
  cases k <;> rfl

/-- A field of at most 32 bits keeps the low bits of the word and reads back zero-extended. -/
theorem toNat_field (val : Word) {w : Nat} (h : w ≤ 32) :
    ((val.setWidth w).setWidth 32).toNat = val.toNat % 2 ^ w := by
  rw [BitVec.toNat_setWidth_of_le h, BitVec.toNat_setWidth]

/-- A write of one field leaves every other. -/
theorem readCfg_writeCfg_other (c : Cfg) {k j : CfgReg} (val : Word) (h : j ≠ k) :
    readCfg (writeCfg c k val) j = readCfg c j := by
  cases k <;> cases j <;> first | rfl | exact absurd rfl h

theorem readReg_setCfg_other (s : State) {k : CfgReg} {r : Reg} (val : Word) (h : r ≠ .cfg k) :
    readReg r { s with cfg := writeCfg s.cfg k val } = readReg r s := by
  cases r with
  | cfg j => exact readCfg_writeCfg_other s.cfg val fun e => h (e ▸ rfl)
  | _ => rfl

/-- Settles O19: the write by CFGWR's own lemma, the field by its width, every other register by the map. -/
theorem cfgwrStoresTheField : Obligations.CfgwrStoresTheField := by
  intro arg k val s hl
  refine ⟨{ s with cfg := writeCfg s.cfg k val }, ?_, rfl, ?_, fun r => readReg_setCfg_other s val⟩
  · rw [exec_cfgwr_mapped (regOfIndex_cfg k), cfgWrite_of_idle rfl hl]
    rfl
  · cases k <;> exact toNat_field val (by decide)

/-! ### The coefficient words (10_state.md R34) -/

/-- The place of a coefficient register in the memory, which is its index (10_state.md R34). -/
def coefPlace : Reg → Option Nat
  | .coefH c k => some (hIndex c k.toNat)
  | .coefW c i => some (wIndex c i.toNat)
  | _ => none

/-- No two coefficient registers share a place. -/
theorem coefPlace_injective {r r' : Reg} {a : Nat} (h : coefPlace r = some a) (h' : coefPlace r' = some a) :
    r = r' := by
  have bound : ∀ k : BitVec 6, k.toNat < 64 := fun k => k.isLt
  cases r <;> cases h <;> cases r' <;> simp only [coefPlace, Option.some.injEq, reduceCtorEq] at h'
  case coefH.refl.coefH c k d j | coefW.refl.coefW c k d j =>
    have := bound k
    have := bound j
    have hk : k = j := by
      apply BitVec.eq_of_toNat_eq
      cases c <;> cases d <;> simp only [hIndex, wIndex, chanNum] at h' <;> omega
    have hc : c = d := by
      cases c <;> cases d <;> simp only [hIndex, wIndex, chanNum] at h' <;> first | rfl | omega
    rw [hk, hc]
  case coefH.refl.coefW c k d j | coefW.refl.coefH c k d j =>
    have := bound k
    have := bound j
    cases c <;> cases d <;> simp only [hIndex, wIndex, chanNum] at h' <;> omega

theorem readReg_coef {r : Reg} {a : Nat} (h : coefPlace r = some a) (s : State) :
    readReg r s = Memory.read s.coef a := by
  cases r <;> cases h <;> rfl

theorem writeReg_coef {r : Reg} {a : Nat} (h : coefPlace r = some a) (val : Word) (s : State) :
    writeReg r val s = { s with coef := Memory.write s.coef a val } := by
  cases r <;> cases h <;> rfl

theorem regAccess_coef {r : Reg} {a : Nat} (h : coefPlace r = some a) : regAccess r = .cfg := by
  cases r <;> cases h <;> rfl

/-- Every other register reads nothing of the memory. -/
theorem readReg_setCoef_of_none {r : Reg} (h : coefPlace r = none) (m : Memory) (s : State) :
    readReg r { s with coef := m } = readReg r s := by
  cases r <;> first | rfl | cases h

theorem indexOfReg_coefH_toNat (c : Chan) (k : BitVec 6) :
    (indexOfReg (.coefH c k)).toNat = hIndex c k.toNat := by
  have := k.isLt
  refine (BitVec.toNat_ofNat _ _).trans (Nat.mod_eq_of_lt ?_)
  cases c <;> simp only [hIndex, chanNum] <;> omega

theorem indexOfReg_coefW_toNat (c : Chan) (i : BitVec 6) :
    (indexOfReg (.coefW c i)).toNat = wIndex c i.toNat := by
  have := i.isLt
  refine (BitVec.toNat_ofNat _ _).trans (Nat.mod_eq_of_lt ?_)
  cases c <;> simp only [wIndex, chanNum] <;> omega

/-- The low six bits of an index number the coefficient within its channel (10_state.md R34). -/
theorem ofNat6_eq {n : Nat} {k : BitVec 6} (h : n % 64 = k.toNat) : BitVec.ofNat 6 n = k :=
  BitVec.eq_of_toNat_eq ((BitVec.toNat_ofNat _ _).trans h)

theorem regOfIndex_coefH (c : Chan) (k : BitVec 6) :
    regOfIndex (indexOfReg (.coefH c k)) = some (.coefH c k) := by
  have hk := k.isLt
  have hn := indexOfReg_coefH_toNat c k
  unfold regOfIndex
  generalize (indexOfReg (.coefH c k)).toNat = n at hn
  simp only []
  cases c <;> simp only [hIndex, chanNum] at hn
  · rw [if_neg (by omega), if_pos (by omega), ofNat6_eq (k := k) (by omega)]
  · rw [if_neg (by omega), if_neg (by omega), if_pos (by omega), ofNat6_eq (k := k) (by omega)]

theorem regOfIndex_coefW (c : Chan) (i : BitVec 6) :
    regOfIndex (indexOfReg (.coefW c i)) = some (.coefW c i) := by
  have hi := i.isLt
  have hn := indexOfReg_coefW_toNat c i
  unfold regOfIndex
  generalize (indexOfReg (.coefW c i)).toNat = n at hn
  simp only []
  cases c <;> simp only [wIndex, chanNum] at hn
  · rw [if_neg (by omega), if_neg (by omega), if_neg (by omega), if_neg (by omega), if_pos (by omega),
      ofNat6_eq (k := i) (by omega)]
  · rw [if_neg (by omega), if_neg (by omega), if_neg (by omega), if_neg (by omega), if_neg (by omega),
      if_pos (by omega), ofNat6_eq (k := i) (by omega)]

/-- Settles O20: a read after the write at the same place and at every other one, the memory being
canonical. -/
theorem coefficientWriteReadsBack : Obligations.CoefficientWriteReadsBack := by
  intro arg r val s hr hl hm
  obtain ⟨a, place, mapped⟩ : ∃ a, coefPlace r = some a ∧ regOfIndex (indexOfReg r) = some r := by
    obtain ⟨c, k, rfl | rfl⟩ := hr
    · exact ⟨_, rfl, regOfIndex_coefH c k⟩
    · exact ⟨_, rfl, regOfIndex_coefW c k⟩
  refine ⟨{ s with coef := Memory.write s.coef a val }, ?_, rfl, ?_, fun r' hne => ?_⟩
  · rw [exec_cfgwr_mapped mapped, cfgWrite_of_idle (regAccess_coef place) hl, writeReg_coef place]
  · rw [readReg_coef place]
    exact Memory.read_write_same s.coef a val hm
  · cases place' : coefPlace r' with
    | none => exact readReg_setCoef_of_none place' _ s
    | some b =>
      have hb : b ≠ a := fun e => hne (coefPlace_injective (e ▸ place') place)
      rw [readReg_coef place', readReg_coef place']
      exact Memory.read_write_other s.coef val hm hb

/-! ### Words of fields, the lowest last -/

/-- The bit that ends a word is its bit 0. -/
theorem append_bit_getLsbD {n : Nat} (x : BitVec n) (b : Bool) : (x ++ bit b).getLsbD 0 = b := by
  rw [BitVec.getLsbD_append, if_pos (by decide)]
  cases b <;> rfl

/-- The fields of STATUS (10_state.md R28), each reached by passing the fields below it. -/
theorem statusWord_fields (s : State) :
    (statusWord s).extractLsb' 0 3 = lifeCode s.life ∧
    (statusWord s).getLsbD 3 = !queuesEmpty s ∧
    (statusWord s).getLsbD 4 = !s.ofifo.isEmpty ∧
    (statusWord s).getLsbD 5 = s.overrun ∧
    (statusWord s).getLsbD 6 = s.blkErr ∧
    (statusWord s).getLsbD 7 = s.shutdownReq ∧
    (statusWord s).extractLsb' 8 8 = s.fatalCause ∧
    (statusWord s).extractLsb' 16 8 = s.lastErr ∧
    (statusWord s).extractLsb' 24 8 = 0#8 := by
  unfold statusWord
  refine ⟨BitVec.extractLsb'_append_eq_right, ?_, ?_, ?_, ?_, ?_, ?_, ?_, ?_⟩
  iterate 5
    · repeat rw [BitVec.getLsbD_append, if_neg (by decide)]
      exact append_bit_getLsbD _ _
  iterate 2
    · repeat rw [BitVec.extractLsb'_append_eq_of_le (by decide)]
      exact BitVec.extractLsb'_append_eq_right
  · repeat rw [BitVec.extractLsb'_append_eq_of_le (by decide)]
    rfl

/-- The fields of PSTATE (10_state.md R38). -/
theorem pstateWord_fields (p : Pipe) :
    (pstateWord p).extractLsb' 0 2 = sstateCode p.syn.sstate ∧
    (pstateWord p).extractLsb' 2 1 = fstateCode p.dfr.fstate ∧
    (pstateWord p).extractLsb' 3 3 = p.dfr.runLen ∧
    (pstateWord p).getLsbD 6 = p.dfr.runBit ∧
    (pstateWord p).getLsbD 7 = p.dfr.prevRaw ∧
    (pstateWord p).extractLsb' 8 11 = p.dfr.flen ∧
    (pstateWord p).extractLsb' 19 13 = 0#13 := by
  unfold pstateWord
  refine ⟨BitVec.extractLsb'_append_eq_right, ?_, ?_, ?_, ?_, ?_, ?_⟩
  iterate 2
    · repeat rw [BitVec.extractLsb'_append_eq_of_le (by decide)]
      exact BitVec.extractLsb'_append_eq_right
  iterate 2
    · repeat rw [BitVec.getLsbD_append, if_neg (by decide)]
      exact append_bit_getLsbD _ _
  · repeat rw [BitVec.extractLsb'_append_eq_of_le (by decide)]
    exact BitVec.extractLsb'_append_eq_right
  · repeat rw [BitVec.extractLsb'_append_eq_of_le (by decide)]
    rfl

/-- The five low bits of IRQ_STATUS (10_state.md R30). -/
theorem irqBits_fields (s : State) :
    (irqBits s).getLsbD 0 = !s.ofifo.isEmpty ∧ (irqBits s).getLsbD 1 = decide (s.life = .fatal) ∧
    (irqBits s).getLsbD 2 = s.blkErr ∧ (irqBits s).getLsbD 3 = s.overrun ∧
    (irqBits s).getLsbD 4 = decide (s.life = .stopped) := by
  unfold irqBits
  refine ⟨append_bit_getLsbD _ _, ?_, ?_, ?_, ?_⟩
  iterate 3
    · repeat rw [BitVec.getLsbD_append, if_neg (by decide)]
      exact append_bit_getLsbD _ _
  · repeat rw [BitVec.getLsbD_append, if_neg (by decide)]
    cases decide (s.life = .stopped) <;> rfl

theorem irqStatusWord_getLsbD (s : State) {i : Nat} (h : i < 5) :
    (irqStatusWord s).getLsbD i = (irqBits s).getLsbD i := by
  unfold irqStatusWord
  rw [BitVec.getLsbD_append, if_pos h]

/-! ### The computed registers and the pins -/

theorem not_queuesEmpty_iff (s : State) :
    (!queuesEmpty s) = true ↔ ∃ c v, (s.pipe.get c v).q ≠ [] := by
  rw [Bool.not_eq_true', ← Bool.not_eq_true, queuesEmpty_iff]
  simp only [Classical.not_forall, ne_eq]

theorem lifeCode_eq (l : Life) : lifeCode l =
    (match l with | .idle => 0#3 | .running => 1#3 | .stopped => 3#3 | .fatal => 4#3) := by
  cases l <;> rfl

theorem sstateCode_eq (l : SState) : sstateCode l =
    (match l with | .unlocked => 0#2 | .acquiring => 1#2 | .locked => 2#2) := by
  cases l <;> rfl

/-- Settles O22: index 0x002 is STATUS, which is read-only; the fields by the layout of the two words. -/
theorem statusAndPstateFields : Obligations.StatusAndPstateFields := by
  have mapped : regOfIndex 0x002#12 = some .status := rfl
  refine ⟨fun arg val s => ⟨exec_regrd_mapped mapped arg s, exec_cfgwr_mapped mapped arg val s⟩,
    fun s => ?_, fun s c v => ?_⟩
  · obtain ⟨life, queues, frames, rest⟩ := statusWord_fields s
    refine ⟨life.trans (lifeCode_eq _), ?_, ?_, rest⟩
    · rw [← not_queuesEmpty_iff, ← queues]; rfl
    · rw [show (readReg .status s).getLsbD 4 = _ from frames]
      simp
  · obtain ⟨sstate, fstate, rest⟩ := pstateWord_fields (s.pipe.get c v)
    refine ⟨sstate.trans (sstateCode_eq _), ?_, rest⟩
    have bit2 := congrArg (BitVec.getLsbD · 0) fstate
    simp only [BitVec.getLsbD_extractLsb'] at bit2
    refine Eq.trans bit2 ?_
    cases (s.pipe.get c v).dfr.fstate <;> rfl

/-- Two masks meet where they share a bit. -/
theorem and_ne_zero_iff {n : Nat} (a b : BitVec n) :
    a &&& b ≠ 0#n ↔ ∃ i, i < n ∧ a.getLsbD i = true ∧ b.getLsbD i = true := by
  rw [Ne, BitVec.eq_of_getLsbD_eq_iff]
  simp

/-- Settles O23: both registers are writable in every lifecycle state; the bits by the layout of IRQ_STATUS. -/
theorem interruptRegistersAndPins : Obligations.InterruptRegistersAndPins := by
  refine ⟨fun arg val s => ⟨?_, ?_⟩, fun s => ?_⟩
  · rw [exec_cfgwr_mapped (r := .irqEnable) rfl]
    exact congrArg _ (by rw [← BitVec.setWidth_eq_extractLsb' (by decide)]; rfl)
  · exact exec_cfgwr_mapped (r := .irqStatus) rfl arg val s
  · obtain ⟨b0, b1, b2, b3, b4⟩ := irqBits_fields s
    have low : ∀ {i}, i < 5 → (readReg .irqStatus s).getLsbD i = (irqBits s).getLsbD i :=
      irqStatusWord_getLsbD s
    refine ⟨?_, ?_, ?_, ?_, ?_, ?_, ?_, ?_⟩
    · rw [low (by decide), b0]; simp
    · rw [low (by decide), b1]; simp
    · rw [low (by decide), b2]
    · rw [low (by decide), b3]
    · rw [low (by decide), b4]; simp
    · exact BitVec.extractLsb'_append_eq_left
    · rw [irqPin, decide_eq_true_iff, and_ne_zero_iff]
      exact exists_congr fun i => and_congr_right fun hi => by rw [low hi]
    · exact decide_eq_true_iff

/-- Settles O24: the seven indices by the map, the value by the definition of the sum. -/
theorem sumViewsSaturate : Obligations.SumViewsSaturate := by
  refine ⟨by decide, fun _ => rfl, fun s j => ?_⟩
  simp only [readReg, readSum, satcnt, PerPipe.toList, PerPipe.get, List.map_cons, List.map_nil,
    List.sum_cons, List.sum_nil, BitVec.toNat_ofNat]
  omega

end Sys2Proof.Machine
end

section
/-!
PROOFS. The register map of 20_memory.md R76: the index of every register, and that the map lists no other.
-/

namespace Sys2Proof.Machine

open Sys2Proof

/-! ### From a register to its index -/

/-- The part of the map from 0x300 on (20_memory.md R76). -/
theorem regOfIndex_counterReg {idx : BitVec 12} (h : 0x300 ≤ idx.toNat) (h' : idx.toNat < 0x400) :
    regOfIndex idx = counterReg idx.toNat := by
  unfold regOfIndex
  simp only []
  iterate 7 rw [if_neg (by omega)]
  rw [if_pos h']

/-- The number `4c + v` of a pipeline (10_state.md R36). -/
theorem pipeOfNum_pipeNum (c : Chan) (v : Variant) :
    pipeOfNum (4 * chanNum c + varNum v) = some (c, v) := by
  cases c <;> cases v <;> rfl

theorem pipeNum_le (c : Chan) (v : Variant) : 4 * chanNum c + varNum v ≤ 6 := by
  cases c <;> cases v <;> decide

/-- A pipeline's eight registers stand together, from `0x320 + 8p` on (10_state.md R36, R38). -/
theorem regOfIndex_pipeRegOf (c : Chan) (v : Variant) {j : Nat} (hj : j < 8) :
    regOfIndex (BitVec.ofNat 12 (0x320 + 8 * (4 * chanNum c + varNum v) + j)) =
      some (pipeRegOf c v j) := by
  have hp := pipeNum_le c v
  have hn : (BitVec.ofNat 12 (0x320 + 8 * (4 * chanNum c + varNum v) + j)).toNat =
      0x320 + 8 * (4 * chanNum c + varNum v) + j :=
    (BitVec.toNat_ofNat _ _).trans (Nat.mod_eq_of_lt (by omega))
  rw [regOfIndex_counterReg (by omega) (by omega), hn]
  unfold counterReg
  split
  iterate 5 · omega
  rw [if_neg (by omega), if_pos (by omega),
    show (0x320 + 8 * (4 * chanNum c + varNum v) + j - 0x320) / 8 = 4 * chanNum c + varNum v by omega,
    show (0x320 + 8 * (4 * chanNum c + varNum v) + j - 0x320) % 8 = j by omega, pipeOfNum_pipeNum]
  rfl

theorem cntOfNum_cntNum (j : CntReg) : cntOfNum (cntNum j) = some j := by cases j <;> rfl

theorem cntNum_lt (j : CntReg) : cntNum j < 7 := by cases j <;> decide

/-- Every register is found at its index. -/
theorem regOfIndex_indexOfReg (r : Reg) : regOfIndex (indexOfReg r) = some r := by
  cases r with
  | cfg k => exact regOfIndex_cfg k
  | coefH c k => exact regOfIndex_coefH c k
  | coefW c i => exact regOfIndex_coefW c i
  | glob g => cases g <;> decide
  | sum j => cases j <;> decide
  | cnt c v j =>
    refine (regOfIndex_pipeRegOf c v (Nat.lt_succ_of_lt (cntNum_lt j))).trans ?_
    rw [pipeRegOf, cntOfNum_cntNum]
  | pstate c v => exact regOfIndex_pipeRegOf c v (j := 7) (by omega)
  | _ => rfl

/-! ### From an index to its register: each part of the map names a register only at that register's index -/

theorem cntNum_of_cntOfNum {j : Nat} {r : CntReg} (h : cntOfNum j = some r) : cntNum r = j := by
  unfold cntOfNum at h
  split at h <;> cases h <;> rfl

theorem cntOfNum_eq_none {j : Nat} (h : cntOfNum j = none) : 7 ≤ j := by
  have named : ∀ j < 7, cntOfNum j ≠ none := by decide
  exact Nat.le_of_not_lt fun hj => named j hj h

theorem pipeNum_of_pipeOfNum {p : Nat} {c : Chan} {v : Variant} (h : pipeOfNum p = some (c, v)) :
    4 * chanNum c + varNum v = p := by
  unfold pipeOfNum at h
  split at h <;> cases h <;> rfl

theorem indexOfReg_scalarReg {n : Nat} {r : Reg} (h : scalarReg n = some r) : (indexOfReg r).toNat = n := by
  unfold scalarReg at h
  split at h <;> cases h <;> rfl

/-- The eight registers of a pipeline: seven counters, then PSTATE (10_state.md R36, R38). -/
theorem indexOfReg_pipeRegOf (c : Chan) (v : Variant) {j : Nat} (hj : j < 8) :
    (indexOfReg (pipeRegOf c v j)).toNat = 0x320 + 8 * (4 * chanNum c + varNum v) + j := by
  have hp := pipeNum_le c v
  unfold pipeRegOf
  split
  · next r hr =>
    refine (BitVec.toNat_ofNat _ _).trans ?_
    rw [cntNum_of_cntOfNum hr]
    omega
  · next hn =>
    have := cntOfNum_eq_none hn
    refine (BitVec.toNat_ofNat _ _).trans ?_
    omega

theorem indexOfReg_counterReg {n : Nat} {r : Reg} (h : counterReg n = some r) : (indexOfReg r).toNat = n := by
  unfold counterReg at h
  split at h
  iterate 5 · cases h; rfl
  split at h
  · next hn =>
    obtain ⟨j, hj, rfl⟩ := Option.map_eq_some_iff.1 h
    refine (BitVec.toNat_ofNat _ _).trans ?_
    rw [cntNum_of_cntOfNum hj]
    omega
  · split at h
    · next hn =>
      obtain ⟨⟨c, v⟩, hp, rfl⟩ := Option.map_eq_some_iff.1 h
      rw [indexOfReg_pipeRegOf c v (Nat.mod_lt _ (by omega)), pipeNum_of_pipeOfNum hp]
      omega
    · cases h

/-- An index that names a register is that register's. -/
theorem indexOfReg_of_regOfIndex {idx : BitVec 12} {r : Reg} (h : regOfIndex idx = some r) :
    indexOfReg r = idx := by
  apply BitVec.eq_of_toNat_eq
  have coef : ∀ n, (BitVec.ofNat 6 n).toNat = n % 64 := fun n => BitVec.toNat_ofNat n 6
  unfold regOfIndex at h
  simp only [] at h
  split at h
  · exact indexOfReg_scalarReg h
  split at h
  · cases h; rw [indexOfReg_coefH_toNat, coef, hIndex, chanNum]; omega
  split at h
  · cases h; rw [indexOfReg_coefH_toNat, coef, hIndex, chanNum]; omega
  split at h
  · cases h
  split at h
  · cases h; rw [indexOfReg_coefW_toNat, coef, wIndex, chanNum]; omega
  split at h
  · cases h; rw [indexOfReg_coefW_toNat, coef, wIndex, chanNum]; omega
  split at h
  · cases h
  split at h
  · exact indexOfReg_counterReg h
  · cases h

/-- Settles O5: the map read both ways, then its rows one by one. -/
theorem registerMapIsExact : Obligations.RegisterMapIsExact := by
  refine ⟨regOfIndex_indexOfReg, fun _ _ => indexOfReg_of_regOfIndex, fun r => ?_, fun r => ?_⟩
  · cases r with
    | cfg k => cases k <;> rfl
    | coefH c k => cases c <;> exact indexOfReg_coefH_toNat _ k
    | coefW c i => cases c <;> exact indexOfReg_coefW_toNat _ i
    | glob g => cases g <;> rfl
    | sum j => cases j <;> rfl
    | cnt c v j => cases c <;> cases v <;> cases j <;> rfl
    | pstate c v => cases c <;> cases v <;> rfl
    | _ => rfl
  · cases r <;> rfl

end Sys2Proof.Machine
end

section
/-!
PROOFS. Locality of the pipelines (20_memory.md R82, 60_exceptions.md R277): what `P[c][v]` does, it does
whatever stands outside it. So the parts of its step commute with every update of the state outside it, and
the steps of two pipelines commute with each other but for the order of their records in OF.
-/

namespace Sys2Proof.Machine

open Sys2Proof

/-! ### Updates outside a pipeline -/

theorem pushFrame_unbounded (rec : List Word) (s : State) (h : s.depths.ofDepth = none) :
    pushFrame rec s = { s with ofifo := s.ofifo ++ [rec] } :=
  pushFrame_room rec s (by rw [h]; rfl)

/-- `U` updates nothing that the step of `P[c][v]` reads or writes: the step's own reads are the same after it,
and its primitive writes may come before or after it. -/
structure Outside (c : Chan) (v : Variant) (U : State → State) : Prop where
  pipe : ∀ s, (U s).pipe.get c v = s.pipe.get c v
  cfg : ∀ s, (U s).cfg = s.cfg
  life : ∀ s, (U s).life = s.life
  setPipe : ∀ s p, (U s).setPipe c v p = U (s.setPipe c v p)
  dem : ∀ s z, demStep c v z (U s) = U (demStep c v z s)
  depths : ∀ s, (U s).depths = s.depths
  push : ∀ s rec, { U s with ofifo := (U s).ofifo ++ [rec] } = U { s with ofifo := s.ofifo ++ [rec] }

section

variable {c : Chan} {v : Variant} {U : State → State}

/-- Which script comes next. -/
theorem Outside.setScript (ms : List Move) : Outside c v fun s => { s with script := ms } where
  pipe _ := rfl
  cfg _ := rfl
  life _ := rfl
  setPipe _ _ := rfl
  dem _ _ := by cases v <;> rfl
  depths _ := rfl
  push _ _ := rfl

/-- The record of overruns, of which there are none where OF is unbounded. -/
theorem Outside.setOverrun (ov : Bool) (g : GlobalCounters) :
    Outside c v fun s => { s with overrun := ov, glob := g } where
  pipe _ := rfl
  cfg _ := rfl
  life _ := rfl
  setPipe _ _ := rfl
  dem _ _ := by cases v <;> rfl
  depths _ := rfl
  push _ _ := rfl

/-- Records that stand in OF already. -/
theorem Outside.prepend (recs : List (List Word)) :
    Outside c v fun s => { s with ofifo := recs ++ s.ofifo } where
  pipe _ := rfl
  cfg _ := rfl
  life _ := rfl
  setPipe _ _ := rfl
  dem _ _ := by cases v <;> rfl
  depths _ := rfl
  push s rec := by simp only [List.append_assoc]

end

/-! ### What another pipeline writes is such an update -/

/-- The kernel states `k`, but that of variant `v` from `k'`. -/
def Kernels.withPart (v : Variant) (k k' : Kernels) : Kernels :=
  match v with
  | .ncoh => { k with ncoh := k'.ncoh }
  | .coh => { k with coh := k'.coh }
  | .chal => { k with chal := k'.chal }

/-- The state `s`, but `P[c][v]` and its kernel's state from `t`, and the records of `t` in OF before those of
`s`. -/
def graft (c : Chan) (v : Variant) (t s : State) : State :=
  { s with
    pipe := s.pipe.set c v (t.pipe.get c v)
    kern := s.kern.set c ((s.kern.get c).withPart v (t.kern.get c))
    ofifo := t.ofifo ++ s.ofifo }

theorem PerPipe.set_comm {α : Type} (x : PerPipe α) {c d : Chan} {v w : Variant} (a b : α)
    (h : (d, w) ≠ (c, v)) : (x.set c v a).set d w b = (x.set d w b).set c v a := by
  cases c <;> cases v <;> cases d <;> cases w <;> first | rfl | exact absurd rfl h

theorem withPart_comm (x : PerChan Kernels) {c d : Chan} {v w : Variant} (k k' : Kernels)
    (h : (d, w) ≠ (c, v)) :
    (x.set c ((x.get c).withPart v k)).set d (((x.set c ((x.get c).withPart v k)).get d).withPart w k') =
      (x.set d ((x.get d).withPart w k')).set c
        (((x.set d ((x.get d).withPart w k')).get c).withPart v k) := by
  cases c <;> cases v <;> cases d <;> cases w <;> first | rfl | exact absurd rfl h

/-- What a kernel computes does not depend on the state of another. -/
theorem demStep_graft {c d : Chan} {v w : Variant} (h : (c, v) ≠ (d, w)) (z : Sample) (t s : State) :
    demStep c v z (graft d w t s) = graft d w t (demStep c v z s) := by
  cases c <;> cases v <;> cases d <;> cases w <;> first | rfl | exact absurd rfl h

theorem Outside.graft {c d : Chan} {v w : Variant} (h : (c, v) ≠ (d, w)) (t : State) :
    Outside c v (graft d w t) where
  pipe s := PerPipe.get_set_other _ _ h
  cfg _ := rfl
  life _ := rfl
  setPipe s p := by
    simp only [State.setPipe, Machine.graft, PerPipe.set_comm _ _ _ h]
  dem s z := demStep_graft h z t s
  depths _ := rfl
  push s rec := by simp only [Machine.graft, List.append_assoc]

/-! ### The parts of a pipeline's step -/

section

variable {c : Chan} {v : Variant} {U : State → State} {P : State → Prop}

/-- Folds commute with an update with which each of their steps commutes. -/
theorem foldl_outside {α : Type} (f : State → α → State) (l : List α)
    (keeps : ∀ t, ∀ a ∈ l, P t → P (f t a)) (comm : ∀ t, ∀ a ∈ l, P t → f (U t) a = U (f t a))
    (s : State) (h : P s) : l.foldl f (U s) = U (l.foldl f s) := by
  induction l generalizing s with
  | nil => rfl
  | cons a l ih =>
    rw [List.foldl_cons, List.foldl_cons, comm s a List.mem_cons_self h]
    exact ih (fun t b hb => keeps t b (List.mem_cons_of_mem a hb))
      (fun t b hb => comm t b (List.mem_cons_of_mem a hb)) _ (keeps s a List.mem_cons_self h)

theorem synStep_outside (o : Outside c v U) (e : BitVec 16) (s : State) :
    synStep c v e (U s) = U (synStep c v e s) := by
  simp only [synStep, o.pipe, o.cfg, o.setPipe]

theorem nrziBit_outside (o : Outside c v U) (r : Bool) (s : State) :
    nrziBit c v r (U s) = U (nrziBit c v r s) := by
  simp only [nrziBit, o.pipe, o.cfg, o.setPipe]

theorem hdlcBit_outside (o : Outside c v U) (d : Bool) (s : State) :
    hdlcBit c v d (U s) = U (hdlcBit c v d s) := by
  simp only [hdlcBit, o.pipe, o.cfg, o.setPipe]

theorem countSample_outside (o : Outside c v U) (s : State) :
    countSample c v (U s) = U (countSample c v s) := by
  simp only [countSample, o.pipe, o.setPipe]

theorem pushFrame_outside (o : Outside c v U) (rec : List Word) (s : State) (h : s.depths.ofDepth = none) :
    pushFrame rec (U s) = U (pushFrame rec s) := by
  rw [pushFrame_unbounded rec s h, pushFrame_unbounded rec _ (by rw [o.depths, h]), o.push]

/-- VAL.FRAME on a frame of the pipeline. -/
theorem valFrame_outside (o : Outside c v U) {f : CandFrame} (hf : f.chan = c ∧ f.var = v) (s : State)
    (h : s.depths.ofDepth = none) : valFrame f (U s) = U (valFrame f s) := by
  obtain ⟨rfl, rfl⟩ := hf
  unfold valFrame setCnt
  simp only [o.pipe, o.setPipe]
  split
  · rfl
  · split
    · rfl
    · exact pushFrame_outside o _ _ h

variable (k : BlockKept c v (fun f => f.chan = c ∧ f.var = v) P) (hof : ∀ t, P t → t.depths.ofDepth = none)
  (o : Outside c v U)

/-! `P` stands for states in which the pipeline holds only its own CandidateFrames and OF is unbounded. -/

include k hof o

theorem drainCand_outside (s : State) (h : P s) : drainCand c v (U s) = U (drainCand c v s) := by
  unfold drainCand
  simp only [o.pipe, o.setPipe]
  exact foldl_outside _ _ (fun t f hf => k.val t f (k.frames s h f hf))
    (fun t f hf ht => valFrame_outside o (k.frames s h f hf) t (hof t ht)) _ (k.clearCand s h)

theorem drainDec_outside (s : State) (h : P s) : drainDec c v (U s) = U (drainDec c v s) := by
  unfold drainDec
  simp only [o.pipe, o.setPipe]
  refine foldl_outside _ _ (fun t d _ ht => drainCand_keeps k.toPipeKept _ (k.hdlc t d ht))
    (fun t d _ ht => ?_) _ (k.clearDec s h)
  rw [hdlcBit_outside o, drainCand_outside k hof o _ (k.hdlc t d ht)]

theorem drainRaw_outside (s : State) (h : P s) : drainRaw c v (U s) = U (drainRaw c v s) := by
  unfold drainRaw
  simp only [o.pipe, o.setPipe]
  refine foldl_outside _ _ (fun t r _ ht => drainDec_keeps k.toPipeKept _ (k.nrzi t r ht))
    (fun t r _ ht => ?_) _ (k.clearRaw s h)
  rw [nrziBit_outside o, drainDec_outside k hof o _ (k.nrzi t r ht)]

theorem drainSym_outside (s : State) (h : P s) : drainSym c v (U s) = U (drainSym c v s) := by
  unfold drainSym
  simp only [o.pipe, o.setPipe]
  refine foldl_outside _ _ (fun t e _ ht => drainRaw_keeps k.toPipeKept _ (k.syn t e ht))
    (fun t e _ ht => ?_) _ (k.clearSym s h)
  rw [synStep_outside o, drainRaw_outside k hof o _ (k.syn t e ht)]

theorem pipeSample_outside (z : Sample) (s : State) (h : P s) :
    pipeSample c v z (U s) = U (pipeSample c v z s) := by
  unfold pipeSample
  rw [countSample_outside o, o.dem, drainSym_outside k hof o _ (k.dem _ z (k.count s h))]

end

end Sys2Proof.Machine
end

section
/-!
PROOFS. The order of the pipelines' steps (20_memory.md R79): two operations of different pipelines commute but
for the order of their records in OF.
-/

namespace Sys2Proof.Machine

open Sys2Proof

/-! ### Operations of one pipeline -/

/-- No element stands in an internal stream and OF is unbounded: the premises of PipelineStepsCommute. -/
structure Calm (s : State) : Prop where
  streams : StreamsEmpty s
  unbounded : s.depths.ofDepth = none

/-- `f` is an operation of `P[c][v]`: from a calm state it leaves a calm state, writes nothing outside its own
group, and commutes with every update outside it. -/
structure PipeOp (c : Chan) (v : Variant) (f : State → State) : Prop where
  calm : ∀ s, Calm s → Calm (f s)
  frame : ∀ s, Calm s → PipeFrame c v s (f s)
  outside : ∀ s U, Calm s → Outside c v U → f (U s) = U (f s)

variable {c d : Chan} {v w : Variant} {f g : State → State}

theorem PipeFrame.unbounded {s t : State} (h : PipeFrame c v s t) (hs : s.depths.ofDepth = none) :
    t.depths.ofDepth = none := by
  rw [h.rest]
  exact hs

theorem PipeOp.id : PipeOp c v fun s => s where
  calm _ h := h
  frame s _ := .refl s
  outside _ _ _ _ := rfl

theorem PipeOp.comp (hg : PipeOp c v g) (hf : PipeOp c v f) : PipeOp c v fun s => g (f s) where
  calm s h := hg.calm _ (hf.calm s h)
  frame s h := (hf.frame s h).trans (hg.frame _ (hf.calm s h))
  outside s U h o := by rw [hf.outside s U h o, hg.outside _ U (hf.calm s h) o]

theorem PipeOp.foldl {α : Type} {op : α → State → State} (h : ∀ a, PipeOp c v (op a)) (l : List α) :
    PipeOp c v fun s => l.foldl (fun t a => op a t) s := by
  induction l with
  | nil => exact .id
  | cons a l ih => exact ih.comp (h a)

theorem PipeOp.pipeSample (c : Chan) (v : Variant) (z : Sample) : PipeOp c v (pipeSample c v z) := by
  have own : ∀ s, Calm s → PipeFrame c v s s ∧ ∀ f ∈ (s.pipe.get c v).cand, f.chan = c ∧ f.var = v :=
    fun s h => ⟨.refl s, by simp [h.streams.cand c v]⟩
  have frame : ∀ s, Calm s → PipeFrame c v s (Machine.pipeSample c v z s) :=
    fun s h => (pipeSample_keeps (PipeFrame.kept c v s) z s (own s h)).1
  exact {
    calm := fun s h => ⟨h.streams.pipeSample c v z, (frame s h).unbounded h.unbounded⟩
    frame := frame
    outside := fun s U h o => pipeSample_outside (PipeFrame.kept c v s)
      (fun t ht => ht.1.unbounded h.unbounded) o z s (own s h) }

theorem PipeOp.pipeSamples (c : Chan) (v : Variant) (zs : List Sample) : PipeOp c v (pipeSamples c v zs) :=
  .foldl (fun z => .pipeSample c v z) zs

/-- The block that a pipeline takes off its queue depends on nothing outside its own group. -/
theorem pipeBegin_congr {s : State} {U : State → State} (h : StreamsEmpty s)
    (hp : (U s).pipe.get c v = s.pipe.get c v) (hc : (U s).cfg = s.cfg) (hl : (U s).life = s.life)
    (set : ∀ p, (U s).setPipe c v p = U (s.setPipe c v p)) :
    pipeBegin c v (U s) = ((pipeBegin c v s).1, U (pipeBegin c v s).2) := by
  have drained : streamsPending (s.pipe.get c v) = false :=
    (streamsPending_eq_false c v s).2 (((streamsEmpty_iff s).1 h).1 c v)
  have may : pipeMayStep c v (U s) = pipeMayStep c v s := by
    rw [pipeMayStep, hl, hc, pipeMayStep]
  unfold pipeBegin
  simp only [hp, may, drained, set, Bool.false_eq_true, if_false]
  split
  · split <;> rfl
  · rfl

theorem pipeBegin_outside {s : State} {U : State → State} (h : StreamsEmpty s) (o : Outside c v U) :
    pipeBegin c v (U s) = ((pipeBegin c v s).1, U (pipeBegin c v s).2) :=
  pipeBegin_congr h (o.pipe s) (o.cfg s) (o.life s) (o.setPipe s)

theorem pipeBegin_frame {s : State} (h : StreamsEmpty s) : PipeFrame c v s (pipeBegin c v s).2 :=
  (pipeBegin_keeps (PipeFrame.kept c v s) s ⟨.refl s, by simp [h.cand c v]⟩).1

theorem PipeOp.pipeBegin (c : Chan) (v : Variant) : PipeOp c v fun s => (pipeBegin c v s).2 where
  calm _ h := ⟨h.streams.pipeBegin c v, (pipeBegin_frame h.streams).unbounded h.unbounded⟩
  frame _ h := pipeBegin_frame h.streams
  outside _ _ h o := congrArg Prod.snd (pipeBegin_outside h.streams o)

theorem PipeOp.pipeStep (c : Chan) (v : Variant) : PipeOp c v (pipeStep c v) where
  calm s h := (PipeOp.pipeSamples c v _).calm _ ((PipeOp.pipeBegin c v).calm s h)
  frame s h := .pipeStep s (by simp [h.streams.cand c v])
  outside s U h o := by
    rw [Machine.pipeStep, pipeBegin_outside h.streams o]
    exact (PipeOp.pipeSamples c v _).outside _ U ((PipeOp.pipeBegin c v).calm s h) o

/-- No operation of a pipeline reads or writes the script. -/
theorem PipeOp.setScript (hf : PipeOp c v f) {s : State} (h : Calm s) (ms : List Move) :
    f { s with script := ms } = { f s with script := ms } :=
  hf.outside s _ h (.setScript ms)

/-! ### The records of an operation -/

/-- The state with OF empty. -/
def noRecords (s : State) : State := { s with ofifo := [] }

/-- The records that the operation appends to OF. -/
def recordsOf (f : State → State) (s : State) : List (List Word) := (f (noRecords s)).ofifo

theorem Calm.of_eq {s t : State} (h : Calm s) (hp : t.pipe = s.pipe) (hc : t.cond = s.cond)
    (hd : t.depths = s.depths) : Calm t := by
  refine ⟨⟨?_, ?_, ?_, ?_, ?_⟩, hd ▸ h.unbounded⟩
  · exact hp ▸ h.streams.sym
  · exact hp ▸ h.streams.raw
  · exact hp ▸ h.streams.dec
  · exact hp ▸ h.streams.cand
  · exact hc ▸ h.streams.out

theorem Calm.noRecords {s : State} (h : Calm s) : Calm (noRecords s) := h.of_eq rfl rfl rfl

theorem Calm.setScript {s : State} (h : Calm s) (ms : List Move) : Calm { s with script := ms } :=
  h.of_eq rfl rfl rfl

/-- What an operation does, it does whatever stands in OF, and appends its records to it. -/
theorem PipeOp.eq_prepend (hf : PipeOp c v f) {s : State} (h : Calm s) :
    f s = { f (noRecords s) with ofifo := s.ofifo ++ recordsOf f s } := by
  have e : { noRecords s with ofifo := s.ofifo ++ (noRecords s).ofifo } = s := by simp [noRecords]
  have := hf.outside (noRecords s) _ h.noRecords (.prepend s.ofifo)
  rw [e] at this
  exact this

theorem PipeOp.ofifo (hf : PipeOp c v f) {s : State} (h : Calm s) :
    (f s).ofifo = s.ofifo ++ recordsOf f s := by
  rw [hf.eq_prepend h]

theorem PipeOp.noRecords_congr (hf : PipeOp c v f) {s : State} (h : Calm s) :
    noRecords (f s) = noRecords (f (noRecords s)) := by
  rw [hf.eq_prepend h]
  rfl

theorem PipeOp.recordsOf_setScript (hf : PipeOp c v f) {s : State} (h : Calm s) (ms : List Move) :
    recordsOf f { s with script := ms } = recordsOf f s := by
  have e := congrArg State.ofifo (hf.setScript h.noRecords ms)
  exact e

/-- One operation of the pipeline after another. -/
theorem PipeOp.recordsOf_comp (hg : PipeOp c v g) (hf : PipeOp c v f) {s : State} (h : Calm s) :
    recordsOf (fun t => g (f t)) s = recordsOf f s ++ recordsOf g (f s) := by
  have e : recordsOf g (f s) = recordsOf g (f (noRecords s)) :=
    congrArg (fun t => (g t).ofifo) (hf.noRecords_congr h)
  rw [e]
  exact hg.ofifo (hf.calm _ h.noRecords)

/-! ### Two pipelines -/

theorem PipeFrame.withPart {s t : State} (h : PipeFrame c v s t) :
    (s.kern.get c).withPart v (t.kern.get c) = t.kern.get c := by
  have ncoh := h.ncoh
  have coh := h.coh
  have chal := h.chal
  generalize s.kern.get c = k at ncoh coh chal ⊢
  generalize t.kern.get c = k' at ncoh coh chal ⊢
  obtain ⟨a, b, e⟩ := k
  obtain ⟨a', b', e'⟩ := k'
  cases v <;> simp_all [Kernels.withPart]

/-- From an empty OF, an operation is the update of its own group and OF by what it leaves there. -/
theorem PipeOp.eq_graft (hf : PipeOp c v f) {s : State} (h : Calm s) (ho : s.ofifo = []) :
    f s = graft c v (f s) s := by
  have frame := hf.frame s h
  have quiet : f s = { f s with overrun := s.overrun, glob := s.glob } :=
    hf.outside s _ h (.setOverrun s.overrun s.glob)
  rw [quiet, frame.rest, graft]
  simp [frame.withPart, ho]

/-- But for OF, an operation is an update of the pipeline's own group. -/
theorem PipeOp.noRecords_eq_graft (hf : PipeOp c v f) {s : State} (h : Calm s) :
    noRecords (f s) = graft c v (noRecords (f (noRecords s))) (noRecords s) :=
  (hf.noRecords_congr h).trans (congrArg noRecords (hf.eq_graft h.noRecords rfl))

/-- After an operation of another pipeline, `g` does what it does without it, beside what that one wrote. -/
theorem PipeOp.after_other (hf : PipeOp c v f) (hg : PipeOp d w g) (h : (d, w) ≠ (c, v)) {s : State}
    (hs : Calm s) :
    g (noRecords (f s)) = graft c v (noRecords (f (noRecords s))) (g (noRecords s)) := by
  rw [hf.noRecords_eq_graft hs]
  exact hg.outside _ _ hs.noRecords (.graft h _)

/-- A pipeline's records do not depend on what another one did before. -/
theorem PipeOp.recordsOf_other (hf : PipeOp c v f) (hg : PipeOp d w g) (h : (d, w) ≠ (c, v)) {s : State}
    (hs : Calm s) : recordsOf g (f s) = recordsOf g s := by
  rw [recordsOf, hf.after_other hg h hs]
  rfl

theorem graft_comm (h : (d, w) ≠ (c, v)) (s t u : State) :
    noRecords (graft d w u (graft c v t s)) = noRecords (graft c v t (graft d w u s)) := by
  simp only [noRecords, graft, PerPipe.set_comm _ _ _ h, withPart_comm _ _ _ h]

/-- Operations of two pipelines, in either order, leave the same state but for OF. -/
theorem PipeOp.comm (hf : PipeOp c v f) (hg : PipeOp d w g) (h : (d, w) ≠ (c, v)) {s : State} (hs : Calm s) :
    noRecords (g (f s)) = noRecords (f (g s)) := by
  have first := congrArg noRecords (hf.after_other hg h hs)
  have second := congrArg noRecords (hg.after_other hf h.symm hs)
  rw [hg.eq_graft hs.noRecords rfl] at first
  rw [hf.eq_graft hs.noRecords rfl] at second
  rw [hg.noRecords_congr (hf.calm s hs), first, hf.noRecords_congr (hg.calm s hs), second]
  exact (graft_comm h (noRecords s) (f (noRecords s)) (g (noRecords s))).symm

/-! ### States that differ in the order of records -/

/-- `s` and `t` are the same but for the order of the records in OF (20_memory.md R79). -/
def SameButOrder (s t : State) : Prop := noRecords s = noRecords t ∧ s.ofifo.Perm t.ofifo

theorem SameButOrder.refl (s : State) : SameButOrder s s := ⟨rfl, .refl _⟩

theorem SameButOrder.symm {s t : State} (h : SameButOrder s t) : SameButOrder t s := ⟨h.1.symm, h.2.symm⟩

theorem SameButOrder.trans {s t u : State} (h : SameButOrder s t) (h' : SameButOrder t u) :
    SameButOrder s u := ⟨h.1.trans h'.1, h.2.trans h'.2⟩

theorem SameButOrder.calm {s t : State} (h : SameButOrder s t) (hs : Calm s) : Calm t := by
  have e := h.1
  simp only [noRecords, State.mk.injEq] at e
  exact hs.of_eq (by simp [e]) (by simp [e]) (by simp [e])

/-- An operation keeps the same states the same but for the order of records. -/
theorem PipeOp.same (hf : PipeOp c v f) {s t : State} (h : SameButOrder s t) (hs : Calm s) :
    SameButOrder (f s) (f t) := by
  have ht := h.calm hs
  have e : recordsOf f s = recordsOf f t := congrArg (fun u => (f u).ofifo) h.1
  refine ⟨by rw [hf.noRecords_congr hs, hf.noRecords_congr ht, h.1], ?_⟩
  rw [hf.ofifo hs, hf.ofifo ht, e]
  exact h.2.append_right _

/-- Operations of two pipelines commute but for the order of their records. -/
theorem PipeOp.swap (hf : PipeOp c v f) (hg : PipeOp d w g) (h : (d, w) ≠ (c, v)) {s : State} (hs : Calm s) :
    SameButOrder (g (f s)) (f (g s)) := by
  refine ⟨hf.comm hg h hs, ?_⟩
  rw [hg.ofifo (hf.calm s hs), hf.ofifo hs, hf.recordsOf_other hg h hs, hf.ofifo (hg.calm s hs), hg.ofifo hs,
    hg.recordsOf_other hf h.symm hs, List.append_assoc, List.append_assoc]
  exact List.perm_append_comm.append_left _

/-! ### Operations of several pipelines -/

section

variable {α : Type} {op : α → State → State} {pipeOf : α → Chan × Variant}
  (hop : ∀ a, PipeOp (pipeOf a).1 (pipeOf a).2 (op a))

include hop

theorem foldl_calm (l : List α) {s : State} (h : Calm s) : Calm (l.foldl (fun t a => op a t) s) :=
  foldl_keeps Calm _ l (fun t a _ ht => (hop a).calm t ht) s h

theorem foldl_same (l : List α) {s t : State} (h : SameButOrder s t) (hs : Calm s) :
    SameButOrder (l.foldl (fun u a => op a u) s) (l.foldl (fun u a => op a u) t) := by
  induction l generalizing s t with
  | nil => exact h
  | cons a l ih => exact ih ((hop a).same h hs) ((hop a).calm s hs)

/-- An operation may come before or after a run of operations each of which is of another pipeline or does
nothing. -/
theorem foldl_swap (hf : PipeOp c v f) (l : List α) (other : ∀ a ∈ l, pipeOf a ≠ (c, v) ∨ ∀ s, op a s = s)
    {s : State} (hs : Calm s) :
    SameButOrder (l.foldl (fun t a => op a t) (f s)) (f (l.foldl (fun t a => op a t) s)) := by
  induction l generalizing s with
  | nil => exact .refl _
  | cons a l ih =>
    have rest := fun t (ht : Calm t) => ih (fun b hb => other b (List.mem_cons_of_mem a hb)) ht
    rcases other a List.mem_cons_self with h | h
    · exact (foldl_same hop l (hf.swap (hop a) h hs) ((hop a).calm _ (hf.calm s hs))).trans
        (rest _ ((hop a).calm s hs))
    · rw [List.foldl_cons, List.foldl_cons, h, h]
      exact rest s hs

end

end Sys2Proof.Machine
end

section
/-!
PROOFS. Runs of pipeline steps one after another and overlapping by the sample (20_memory.md R79; log entry 15):
overlapping block steps end as block steps one after another do, and give every interleaving of the records.
-/

namespace Sys2Proof.Machine

open Sys2Proof

variable {c : Chan} {v : Variant}

/-! ### Steps one after another -/

/-- Steps of the given pipelines, one after another. -/
def pipeSteps (l : List (Chan × Variant)) (s : State) : State :=
  l.foldl (fun t cv => pipeStep cv.1 cv.2 t) s

/-- Whichever pipeline each move names, a run of their moves is the run of their steps. -/
theorem stepAll_pipes (l : List (Chan × Variant)) (ms : List Move) {s : State} (h : Calm s) :
    stepAll l.length { s with script := l.map (fun cv => .agent (.pipe cv.1 cv.2)) ++ ms } =
      .next (pipeSteps l { s with script := ms }) := by
  induction l generalizing s with
  | nil => rfl
  | cons cv l ih =>
    have op := PipeOp.pipeStep cv.1 cv.2
    rw [pipeSteps, List.foldl_cons, op.setScript h]
    refine Eq.trans ?_ (ih (op.calm s h))
    exact congrArg (stepAll l.length) (op.setScript h _)

/-- The next `n` block steps of one pipeline are an operation of it. -/
theorem PipeOp.pipeSteps (c : Chan) (v : Variant) (n : Nat) :
    PipeOp c v (pipeSteps (List.replicate n (c, v))) := by
  induction n with
  | zero => exact .id
  | succ n ih => exact ih.comp (.pipeStep c v)

theorem pipeSteps_same (l : List (Chan × Variant)) {s t : State} (h : SameButOrder s t) (hs : Calm s) :
    SameButOrder (pipeSteps l s) (pipeSteps l t) :=
  foldl_same (pipeOf := id) (fun cv => PipeOp.pipeStep cv.1 cv.2) l h hs

/-! ### Overlapping steps -/

/-- The turns of an overlap, one after another. -/
def overlapTurns (order : List (Chan × Variant)) (w : Overlap) : Overlap := order.foldl overlapTurn w

theorem overlapTurn_sample {w : Overlap} {z : Sample} {zs : List Sample} (h : w.left.get c v = z :: zs) :
    overlapTurn w (c, v) = ⟨w.left.set c v zs, pipeSample c v z w.now⟩ := by
  simp only [overlapTurn, h]

theorem overlapTurn_begin {w : Overlap} (h : w.left.get c v = []) :
    overlapTurn w (c, v) = ⟨w.left.set c v (pipeBegin c v w.now).1, (pipeBegin c v w.now).2⟩ := by
  simp only [overlapTurn, h]

theorem overlapTurn_left_other (w : Overlap) {d : Chan} {e : Variant} (h : (d, e) ≠ (c, v)) :
    (overlapTurn w (c, v)).left.get d e = w.left.get d e := by
  unfold overlapTurn
  split <;> exact PerPipe.get_set_other _ _ h

/-- A turn in an overlap is an operation of the pipeline whose turn it is. -/
theorem overlapTurn_now (w : Overlap) (c : Chan) (v : Variant) :
    ∃ f, PipeOp c v f ∧ (overlapTurn w (c, v)).now = f w.now := by
  cases h : w.left.get c v with
  | nil => exact ⟨_, .pipeBegin c v, by rw [overlapTurn_begin h]⟩
  | cons z zs => exact ⟨_, .pipeSample c v z, by rw [overlapTurn_sample h]⟩

/-- The blocks begun by the pipelines of the list, finished. -/
def finishBlocks (left : PerPipe (List Sample)) (l : List (Chan × Variant)) (s : State) : State :=
  l.foldl (fun t cv => pipeSamples cv.1 cv.2 (left.get cv.1 cv.2) t) s

theorem overlapFinish_eq (w : Overlap) : overlapFinish w = finishBlocks w.left allPairs w.now := rfl

theorem finishBlocks_op (left : PerPipe (List Sample)) (cv : Chan × Variant) :
    PipeOp cv.1 cv.2 (pipeSamples cv.1 cv.2 (left.get cv.1 cv.2)) := .pipeSamples _ _ _

theorem overlapFinish_calm {w : Overlap} (h : Calm w.now) : Calm (overlapFinish w) :=
  foldl_calm (pipeOf := id) (finishBlocks_op w.left) allPairs h

/-- An operation of a pipeline that has begun no block may come before or after the others finish theirs. -/
theorem overlapFinish_swap {f : State → State} (hf : PipeOp c v f) {left : PerPipe (List Sample)}
    (h : left.get c v = []) {s : State} (hs : Calm s) :
    SameButOrder (overlapFinish ⟨left, f s⟩) (f (overlapFinish ⟨left, s⟩)) := by
  refine foldl_swap (pipeOf := id) (finishBlocks_op left) hf allPairs (fun cv _ => ?_) hs
  by_cases e : cv = (c, v)
  · subst e
    exact .inr fun s => by rw [h]; rfl
  · exact .inl e

/-- The blocks of the others do not depend on what a pipeline has left of its own. -/
theorem finishBlocks_set {l : List (Chan × Variant)} (h : (c, v) ∉ l) (left : PerPipe (List Sample))
    (zs : List Sample) (s : State) : finishBlocks (left.set c v zs) l s = finishBlocks left l s := by
  induction l generalizing s with
  | nil => rfl
  | cons cv l ih =>
    have same : (left.set c v zs).get cv.1 cv.2 = left.get cv.1 cv.2 :=
      PerPipe.get_set_other left zs fun e : cv = (c, v) => h (e ▸ List.mem_cons_self)
    rw [finishBlocks, List.foldl_cons, same]
    exact ih (fun m => h (List.mem_cons_of_mem _ m)) _

theorem allPairs_split (c : Chan) (v : Variant) :
    ∃ before after, allPairs = before ++ (c, v) :: after ∧ (c, v) ∉ before ∧ (c, v) ∉ after := by
  obtain ⟨before, after, e⟩ := List.append_of_mem (show (c, v) ∈ allPairs by cases c <;> cases v <;> decide)
  have nodup : allPairs.Nodup := by decide
  rw [e, List.nodup_append, List.nodup_cons] at nodup
  obtain ⟨-, ⟨after', -⟩, before'⟩ := nodup
  exact ⟨before, after, e, fun h => before' _ h _ List.mem_cons_self rfl, after'⟩

/-- A pipeline may finish its block first. -/
theorem overlapFinish_first (c : Chan) (v : Variant) {w : Overlap} (h : Calm w.now) :
    SameButOrder (overlapFinish w)
      (overlapFinish ⟨w.left.set c v [], pipeSamples c v (w.left.get c v) w.now⟩) := by
  obtain ⟨before, after, e, hb, ha⟩ := allPairs_split c v
  have split : ∀ (left : PerPipe (List Sample)) s, finishBlocks left allPairs s =
      finishBlocks left after (pipeSamples c v (left.get c v) (finishBlocks left before s)) := by
    intro left s
    rw [e, finishBlocks, List.foldl_append, List.foldl_cons]
    rfl
  have op := PipeOp.pipeSamples c v (w.left.get c v)
  have swapped : SameButOrder (finishBlocks w.left before (pipeSamples c v (w.left.get c v) w.now))
      (pipeSamples c v (w.left.get c v) (finishBlocks w.left before w.now)) :=
    foldl_swap (pipeOf := id) (finishBlocks_op w.left) op before (fun cv hcv => .inl fun e => hb (e ▸ hcv)) h
  rw [overlapFinish_eq, overlapFinish_eq, split, split, PerPipe.get_set_same, finishBlocks_set ha,
    finishBlocks_set hb]
  exact foldl_same (pipeOf := id) (finishBlocks_op w.left) after swapped.symm
    (op.calm _ (foldl_calm (pipeOf := id) (finishBlocks_op w.left) before h))

/-- A turn that runs a sample of a block changes nothing of how the blocks begun end; one that begins a block
adds a whole block step. -/
theorem overlapFinish_turn (c : Chan) (v : Variant) {w : Overlap} (h : Calm w.now) :
    SameButOrder (overlapFinish (overlapTurn w (c, v))) (overlapFinish w) ∨
    SameButOrder (overlapFinish (overlapTurn w (c, v))) (pipeStep c v (overlapFinish w)) := by
  obtain ⟨f, hf, now⟩ := overlapTurn_now w c v
  have first := overlapFinish_first c v (now ▸ hf.calm _ h : Calm (overlapTurn w (c, v)).now)
  cases hl : w.left.get c v with
  | cons z zs =>
    left
    refine first.trans (SameButOrder.symm ?_)
    have whole := overlapFinish_first c v h
    rw [hl] at whole
    simp only [overlapTurn_sample hl, PerPipe.get_set_same, PerPipe.set_set]
    exact whole
  | nil =>
    right
    refine first.trans ?_
    have unset : w.left.set c v [] = w.left := by rw [← hl, PerPipe.set_get]
    simp only [overlapTurn_begin hl, PerPipe.get_set_same, PerPipe.set_set, unset]
    exact overlapFinish_swap (.pipeStep c v) hl h

/-- Overlapping block steps end as the same block steps one after another (20_memory.md R79). -/
theorem overlapTurns_serial (order : List (Chan × Variant)) {w : Overlap} (h : Calm w.now) :
    ∃ l, SameButOrder (overlapFinish (overlapTurns order w)) (pipeSteps l (overlapFinish w)) := by
  induction order generalizing w with
  | nil => exact ⟨[], .refl _⟩
  | cons cv order ih =>
    obtain ⟨f, hf, now⟩ := overlapTurn_now w cv.1 cv.2
    have calm : Calm (overlapTurn w cv).now := now ▸ hf.calm _ h
    obtain ⟨l, hl⟩ := ih calm
    rcases overlapFinish_turn cv.1 cv.2 h with turn | turn
    · exact ⟨l, hl.trans (pipeSteps_same l turn (overlapFinish_calm calm))⟩
    · exact ⟨cv :: l, hl.trans (pipeSteps_same l turn (overlapFinish_calm calm))⟩

end Sys2Proof.Machine
end

section
/-!
PROOFS. The interleavings of the pipelines' records (20_memory.md R79): a sample gives at most one record, so that
the turns of an overlap can be ordered to give the records in any order that keeps each pipeline's own.
-/

namespace Sys2Proof.Machine

open Sys2Proof

variable {c : Chan} {v : Variant}

/-! ### One sample, at most one record -/

theorem valFrame_adds (f : CandFrame) (s : State) : (valFrame f s).ofifo.length ≤ s.ofifo.length + 1 := by
  unfold valFrame pushFrame
  simp only []
  split
  · exact Nat.le_succ _
  split
  · exact Nat.le_succ _
  split
  · exact Nat.le_succ _
  · simp [setCnt]

theorem drainCand_adds (s : State) :
    (drainCand c v s).ofifo.length ≤ s.ofifo.length + (s.pipe.get c v).cand.length := by
  have fold : ∀ (l : List CandFrame) (t : State),
      (l.foldl (fun t f => valFrame f t) t).ofifo.length ≤ t.ofifo.length + l.length := by
    intro l
    induction l with
    | nil => exact fun t => Nat.le_refl _
    | cons f l ih =>
      intro t
      have := valFrame_adds f t
      have := ih (valFrame f t)
      simp only [List.foldl_cons, List.length_cons]
      omega
  exact fold _ _

theorem framesOf_length (ts : BitVec 64) (o : DfrOut) : (framesOf c v ts o).length ≤ 1 := by
  cases o <;> simp [framesOf]

/-- One decoded bit gives at most one record. -/
theorem drainDec_adds {s : State} {d : Bool} (hc : (s.pipe.get c v).cand = [])
    (hd : (s.pipe.get c v).dec = [d]) : (drainDec c v s).ofifo.length ≤ s.ofifo.length + 1 := by
  unfold drainDec
  simp only [hd, List.foldl_cons, List.foldl_nil]
  refine Nat.le_trans (drainCand_adds _) (Nat.add_le_add_left ?_ _)
  simp only [hdlcBit, setPipe_pipe, PerPipe.get_set_same, hc, List.nil_append]
  exact framesOf_length _ _

/-- At most one raw bit gives at most one record. -/
theorem drainRaw_adds {s : State} {r : Option Bool} (hc : (s.pipe.get c v).cand = [])
    (hd : (s.pipe.get c v).dec = []) (hr : (s.pipe.get c v).raw = r.toList) :
    (drainRaw c v s).ofifo.length ≤ s.ofifo.length + 1 := by
  unfold drainRaw
  cases r with
  | none =>
    simp only [hr, Option.toList_none, List.foldl_nil]
    exact Nat.le_succ _
  | some b =>
    simp only [hr, Option.toList_some, List.foldl_cons, List.foldl_nil]
    exact drainDec_adds (by simp [nrziBit, hc]) (by simp [nrziBit, hd]; rfl)

/-- DEM adds one element to the SymbolStream and no record. -/
theorem demStep_sym (z : Sample) (s : State) : ∃ e,
    ((demStep c v z s).pipe.get c v).sym = (s.pipe.get c v).sym ++ [e] ∧
    (demStep c v z s).ofifo = s.ofifo := by
  cases v <;> exact ⟨_, by simp [demStep, demNcoh, demCoh, demChal, emitSym]; rfl, rfl⟩

/-- One sample gives at most one record (41_demodulator.md R151, 42_synchroniser.md R175, 43_deframer.md
R199). -/
theorem recordsOf_pipeSample_length (z : Sample) {s : State} (h : Calm s) :
    (recordsOf (pipeSample c v z) s).length ≤ 1 := by
  have streams := h.streams
  obtain ⟨hc, hd, hr⟩ := demStep_streams (c := c) (v := v) z (countSample c v (noRecords s))
  obtain ⟨e, hsym, hof⟩ := demStep_sym (c := c) (v := v) z (countSample c v (noRecords s))
  unfold recordsOf pipeSample drainSym
  generalize demStep c v z (countSample c v (noRecords s)) = t at hc hd hr hsym hof
  simp only [countSample, setPipe_pipe, PerPipe.get_set_same, noRecords, streams.cand, streams.dec,
    streams.raw, streams.sym, List.nil_append] at hc hd hr hsym
  simp only [hsym, List.foldl_cons, List.foldl_nil]
  have adds := drainRaw_adds (c := c) (v := v)
    (s := synStep c v e (t.setPipe c v { t.pipe.get c v with sym := [] })) (by simp [synStep, hc])
    (by simp [synStep, hd]) (by simp [synStep, hr]; rfl)
  simpa [synStep, hof, countSample, noRecords] using adds

/-! ### The records that a pipeline has still to give -/

/-- The records of the block that `P[c][v]` has begun, and of its next `n` block steps. -/
def dueRecords (n : Nat) (c : Chan) (v : Variant) (w : Overlap) : List (List Word) :=
  recordsOf (fun s => pipeSteps (List.replicate n (c, v)) (pipeSamples c v (w.left.get c v) s)) w.now

theorem PipeOp.due (n : Nat) (c : Chan) (v : Variant) (zs : List Sample) :
    PipeOp c v fun s => Machine.pipeSteps (List.replicate n (c, v)) (Machine.pipeSamples c v zs s) :=
  (PipeOp.pipeSteps c v n).comp (.pipeSamples c v zs)

/-- A turn that runs a sample gives that sample's records. -/
theorem dueRecords_sample (n : Nat) {w : Overlap} {z : Sample} {zs : List Sample}
    (hl : w.left.get c v = z :: zs) (h : Calm w.now) :
    dueRecords n c v w =
      recordsOf (pipeSample c v z) w.now ++ dueRecords n c v (overlapTurn w (c, v)) := by
  simp only [dueRecords, hl, overlapTurn_sample hl, PerPipe.get_set_same]
  exact (PipeOp.due n c v zs).recordsOf_comp (.pipeSample c v z) h

/-- A turn that begins a block gives none. -/
theorem dueRecords_begin (n : Nat) {w : Overlap} (hl : w.left.get c v = []) (h : Calm w.now) :
    dueRecords (n + 1) c v w = dueRecords n c v (overlapTurn w (c, v)) := by
  have begun : pipeStep c v (noRecords w.now) =
      pipeSamples c v (pipeBegin c v w.now).1 (noRecords (pipeBegin c v w.now).2) := by
    rw [pipeStep, pipeBegin_congr (U := noRecords) h.streams rfl rfl rfl fun _ => rfl]
  simp only [dueRecords, hl, overlapTurn_begin hl, PerPipe.get_set_same, recordsOf, ← begun]
  rfl

theorem pipeBegin_ofifo {s : State} (h : StreamsEmpty s) : (pipeBegin c v s).2.ofifo = s.ofifo := by
  have drained : streamsPending (s.pipe.get c v) = false :=
    (streamsPending_eq_false c v s).2 (((streamsEmpty_iff s).1 h).1 c v)
  unfold pipeBegin
  simp only [drained, Bool.false_eq_true, if_false]
  split
  · split <;> rfl
  · rfl

theorem dueRecords_zero {w : Overlap} (hl : w.left.get c v = []) : dueRecords 0 c v w = [] := by
  rw [dueRecords, hl]
  rfl

/-- A turn of another pipeline changes nothing of them. -/
theorem dueRecords_other (n : Nat) (w : Overlap) {d : Chan} {e : Variant} (h : (d, e) ≠ (c, v))
    (hw : Calm w.now) : dueRecords n d e (overlapTurn w (c, v)) = dueRecords n d e w := by
  obtain ⟨f, hf, now⟩ := overlapTurn_now w c v
  rw [dueRecords, overlapTurn_left_other w h, now, dueRecords]
  exact hf.recordsOf_other (.due n d e _) h hw

theorem overlapTurns_replicate_other (k n : Nat) {w : Overlap} {d : Chan} {e : Variant}
    (h : (d, e) ≠ (c, v)) (hw : Calm w.now) :
    dueRecords n d e (overlapTurns (List.replicate k (c, v)) w) = dueRecords n d e w := by
  induction k generalizing w with
  | zero => rfl
  | succ k ih =>
    obtain ⟨f, hf, now⟩ := overlapTurn_now w c v
    exact (ih (now ▸ hf.calm _ hw)).trans (dueRecords_other n w h hw)

theorem overlapTurns_calm (order : List (Chan × Variant)) {w : Overlap} (hw : Calm w.now) :
    Calm (overlapTurns order w).now := by
  induction order generalizing w with
  | nil => exact hw
  | cons cv order ih =>
    obtain ⟨f, hf, now⟩ := overlapTurn_now w cv.1 cv.2
    exact ih (now ▸ hf.calm _ hw)

/-! ### The next record -/

/-- Some turns of `P[c][v]` give just the record `r`, after which `rest` is due. -/
def Delivers (c : Chan) (v : Variant) (r : List Word) (rest : List (List Word)) (w : Overlap) : Prop :=
  ∃ k m, (overlapTurns (List.replicate k (c, v)) w).now.ofifo = w.now.ofifo ++ [r] ∧
    dueRecords m c v (overlapTurns (List.replicate k (c, v)) w) = rest

variable {r : List Word} {rest : List (List Word)}

theorem Delivers.of_turn {w : Overlap} (same : (overlapTurn w (c, v)).now.ofifo = w.now.ofifo)
    (h : Delivers c v r rest (overlapTurn w (c, v))) : Delivers c v r rest w := by
  obtain ⟨k, m, given, due⟩ := h
  exact ⟨k + 1, m, same ▸ given, due⟩

/-- The record comes from a sample of the block begun, or from a later block. -/
theorem Delivers.of_samples (n : Nat)
    (later : ∀ w, w.left.get c v = [] → Calm w.now → dueRecords n c v w = r :: rest → Delivers c v r rest w)
    (zs : List Sample) (w : Overlap) (hl : w.left.get c v = zs) (h : Calm w.now)
    (due : dueRecords n c v w = r :: rest) : Delivers c v r rest w := by
  induction zs generalizing w with
  | nil => exact later w hl h due
  | cons z zs ih =>
    have op := PipeOp.pipeSample c v z
    have now : (overlapTurn w (c, v)).now = pipeSample c v z w.now := by rw [overlapTurn_sample hl]
    have given := op.ofifo h
    have short := recordsOf_pipeSample_length (c := c) (v := v) z h
    rw [dueRecords_sample n hl h] at due
    cases recs : recordsOf (pipeSample c v z) w.now with
    | nil =>
      rw [recs, List.nil_append] at due
      rw [recs, List.append_nil, ← now] at given
      exact (ih _ (by rw [overlapTurn_sample hl]; exact PerPipe.get_set_same _ _ _ _) (now ▸ op.calm _ h)
        due).of_turn given
    | cons r' more =>
      rw [recs] at due short given
      obtain rfl : more = [] := List.length_eq_zero_iff.1 (by simpa using short)
      obtain ⟨rfl, due'⟩ := List.cons.inj due
      exact ⟨1, n, now ▸ given, due'⟩

/-- The next record that is due comes after some turns of its pipeline. -/
theorem Delivers.of_due (n : Nat) (w : Overlap) (h : Calm w.now) (due : dueRecords n c v w = r :: rest) :
    Delivers c v r rest w := by
  induction n generalizing w with
  | zero =>
    refine Delivers.of_samples 0 (fun w hl _ due => ?_) _ w rfl h due
    rw [dueRecords_zero hl] at due
    cases due
  | succ n ih =>
    refine Delivers.of_samples (n + 1) (fun w hl h due => ?_) _ w rfl h due
    have now : (overlapTurn w (c, v)).now = (pipeBegin c v w.now).2 := by rw [overlapTurn_begin hl]
    exact (ih _ (now ▸ (PipeOp.pipeBegin c v).calm _ h) ((dueRecords_begin n hl h).symm.trans due)).of_turn
      (by rw [now, pipeBegin_ofifo h.streams])

/-! ### Every interleaving -/

/-- Blocks of which no record is due give none when they finish. -/
theorem finishBlocks_quiet (left : PerPipe (List Sample)) {l : List (Chan × Variant)} (nodup : l.Nodup)
    {s : State} (h : Calm s)
    (quiet : ∀ cv ∈ l, recordsOf (pipeSamples cv.1 cv.2 (left.get cv.1 cv.2)) s = []) :
    (finishBlocks left l s).ofifo = s.ofifo := by
  induction l generalizing s with
  | nil => rfl
  | cons cv l ih =>
    obtain ⟨new, nodup'⟩ := List.nodup_cons.1 nodup
    have op := finishBlocks_op left cv
    have first : (pipeSamples cv.1 cv.2 (left.get cv.1 cv.2) s).ofifo = s.ofifo := by
      rw [op.ofifo h, quiet cv List.mem_cons_self, List.append_nil]
    refine (ih nodup' (op.calm s h) fun cw hcw => ?_).trans first
    rw [op.recordsOf_other (finishBlocks_op left cw) (fun e : cw = cv => new (e ▸ hcw)) h]
    exact quiet cw (List.mem_cons_of_mem _ hcw)

theorem overlapFinish_quiet {w : Overlap} (h : Calm w.now)
    (due : ∀ c v, ∃ n, dueRecords n c v w = []) : (overlapFinish w).ofifo = w.now.ofifo := by
  refine finishBlocks_quiet w.left (by decide) h fun cv _ => ?_
  obtain ⟨n, all⟩ := due cv.1 cv.2
  rw [dueRecords, (PipeOp.pipeSteps cv.1 cv.2 n).recordsOf_comp (finishBlocks_op w.left cv) h] at all
  exact (List.append_eq_nil_iff.1 all).1

/-- The records of `P[c][v]` in an interleaving. -/
def ownRecords (c : Chan) (v : Variant) (z : List ((Chan × Variant) × List Word)) : List (List Word) :=
  (z.filter fun e => decide (e.1 = (c, v))).map Prod.snd

theorem ownRecords_cons_same (c : Chan) (v : Variant) (r : List Word)
    (z : List ((Chan × Variant) × List Word)) :
    ownRecords c v (((c, v), r) :: z) = r :: ownRecords c v z := by
  simp [ownRecords]

theorem ownRecords_cons_other {c d : Chan} {v e : Variant} (h : (d, e) ≠ (c, v)) (r : List Word)
    (z : List ((Chan × Variant) × List Word)) : ownRecords d e (((c, v), r) :: z) = ownRecords d e z := by
  simp [ownRecords, h.symm]

/-- Every interleaving of the records due is the outcome of some overlap: each record in turn is brought about by
turns of its own pipeline (20_memory.md R79). -/
theorem overlapTurns_interleave (z : List ((Chan × Variant) × List Word)) {w : Overlap} (h : Calm w.now)
    (due : ∀ c v, ∃ n, dueRecords n c v w = ownRecords c v z) :
    ∃ order, (overlapFinish (overlapTurns order w)).ofifo = w.now.ofifo ++ z.map Prod.snd := by
  induction z generalizing w with
  | nil => exact ⟨[], by rw [List.map_nil, List.append_nil]; exact overlapFinish_quiet h due⟩
  | cons e z ih =>
    obtain ⟨⟨c, v⟩, r⟩ := e
    obtain ⟨n, hn⟩ := due c v
    rw [ownRecords_cons_same] at hn
    obtain ⟨k, m, given, rest⟩ := Delivers.of_due n w h hn
    obtain ⟨order, done⟩ := ih (w := overlapTurns (List.replicate k (c, v)) w) (overlapTurns_calm _ h)
      fun d e => by
        by_cases own : (d, e) = (c, v)
        · obtain ⟨rfl, rfl⟩ := Prod.mk.inj own
          exact ⟨m, rest⟩
        · obtain ⟨n', hn'⟩ := due d e
          rw [ownRecords_cons_other own] at hn'
          exact ⟨n', (overlapTurns_replicate_other k n' own h).trans hn'⟩
    refine ⟨List.replicate k (c, v) ++ order, ?_⟩
    rw [overlapTurns, List.foldl_append]
    refine done.trans ?_
    rw [given, List.append_assoc]
    rfl

end Sys2Proof.Machine
end

section
/-!
PROOFS. The obligation on the order of the pipelines' steps (20_memory.md R79, 41_demodulator.md R159).
-/

namespace Sys2Proof.Machine

open Sys2Proof

/-! ### Records are only appended -/

/-- Every part of every pipeline's step leaves the records in OF before new ones. -/
theorem ofifoPrefix_kept (recs : List (List Word)) (c : Chan) (v : Variant) :
    BlockKept c v (fun _ => True) fun t => recs <+: t.ofifo := by
  have more : ∀ {d w s t}, PipeFrame d w s t → recs <+: s.ofifo → recs <+: t.ofifo := by
    rintro d w s t ⟨-, -, -, -, new, e⟩ h
    exact e ▸ h.trans (List.prefix_append _ _)
  exact ⟨⟨fun _ _ _ _ => trivial, fun _ h => h, fun _ h => h, fun _ h => h, fun _ h => h, fun _ _ h => h,
    fun _ _ h => h, fun _ _ h => h, fun t f _ => more (.valFrame f t)⟩, fun _ _ _ _ h => h, fun _ h => h,
    fun t z => more (.demStep (c := c) (v := v) z t)⟩

theorem pipeSteps_ofifo (l : List (Chan × Variant)) (s : State) :
    ∃ new, (pipeSteps l s).ofifo = s.ofifo ++ new := by
  obtain ⟨new, h⟩ := foldl_keeps (fun t => s.ofifo <+: t.ofifo) _ l
    (fun t cv _ ht => pipeStep_keeps (ofifoPrefix_kept s.ofifo cv.1 cv.2) t ht) s (List.prefix_refl _)
  exact ⟨new, h.symm⟩

theorem overlapSteps_ofifo (order : List (Chan × Variant)) (s : State) :
    ∃ new, (overlapSteps order s).ofifo = s.ofifo ++ new := by
  obtain ⟨new, h⟩ := overlapSteps_keeps (ofifoPrefix_kept s.ofifo) order s (List.prefix_refl _)
  exact ⟨new, h.symm⟩

/-! ### The three clauses -/

theorem overlapSteps_eq (order : List (Chan × Variant)) (s : State) :
    overlapSteps order s = overlapFinish (overlapTurns order ⟨.all [], s⟩) := rfl

/-- Two steps in either order. -/
theorem pipeStep_comm {c d : Chan} {v w : Variant} (h : (c, v) ≠ (d, w)) {s : State} (hs : Calm s) :
    noRecords (pipeSteps [(c, v), (d, w)] s) = noRecords (pipeSteps [(d, w), (c, v)] s) ∧
    ∃ x y, (pipeSteps [(c, v), (d, w)] s).ofifo = s.ofifo ++ x ++ y ∧
      (pipeSteps [(d, w), (c, v)] s).ofifo = s.ofifo ++ y ++ x := by
  have f := PipeOp.pipeStep c v
  have g := PipeOp.pipeStep d w
  refine ⟨f.comm g h.symm hs, recordsOf (pipeStep c v) s, recordsOf (pipeStep d w) s, ?_, ?_⟩
  · rw [← f.ofifo hs, ← f.recordsOf_other g h.symm hs]
    exact g.ofifo (f.calm s hs)
  · rw [← g.ofifo hs, ← g.recordsOf_other f h hs]
    exact f.ofifo (g.calm s hs)

/-- Overlapping block steps against the same block steps one after another. -/
theorem overlapSteps_serial (order : List (Chan × Variant)) {s : State} (hs : Calm s) :
    ∃ l x y, noRecords (overlapSteps order s) = noRecords (pipeSteps l s) ∧
      (overlapSteps order s).ofifo = s.ofifo ++ x ∧ (pipeSteps l s).ofifo = s.ofifo ++ y ∧ x.Perm y := by
  obtain ⟨l, rest, records⟩ := overlapTurns_serial order (w := ⟨.all [], s⟩) hs
  obtain ⟨x, hx⟩ := overlapSteps_ofifo order s
  obtain ⟨y, hy⟩ := pipeSteps_ofifo l s
  refine ⟨l, x, y, rest, hx, hy, ?_⟩
  rw [← overlapSteps_eq, hx] at records
  exact (List.perm_append_left_iff s.ofifo).1 (records.trans (hy ▸ .refl _))

/-- The records of a pipeline's next blocks, run alone, are those due at the beginning of an overlap. -/
theorem dueRecords_alone {c : Chan} {v : Variant} {n : Nat} {s t : State} (hs : Calm s) (ms : List Move)
    (run : stepAll n { s with ofifo := [], script := List.replicate n (.agent (.pipe c v)) } = .next t) :
    dueRecords n c v ⟨.all [], { s with script := ms }⟩ = t.ofifo := by
  have alone := stepAll_pipes (List.replicate n (c, v)) [] hs.noRecords
  rw [List.length_replicate, List.map_replicate, List.append_nil] at alone
  obtain rfl := Host.Outcome.next.inj (alone.symm.trans run)
  have op := PipeOp.pipeSteps c v n
  rw [dueRecords, PerPipe.get_all]
  exact (op.recordsOf_setScript hs ms).trans (op.recordsOf_setScript hs []).symm

/-- Settles O60: the operations of different pipelines commute but for the order of their records; an overlap's
turns are moved apart into whole blocks; and a record at a time, every interleaving is brought about. -/
theorem pipelineStepsCommute : Obligations.PipelineStepsCommute := by
  refine ⟨?_, ?_, ?_⟩
  · intro s a b c d v w ms hs hof h ha hb
    have calm : Calm s := ⟨hs, hof⟩
    obtain rfl := Host.Outcome.next.inj (ha.symm.trans (stepAll_pipes [(c, v), (d, w)] ms calm))
    obtain rfl := Host.Outcome.next.inj (hb.symm.trans (stepAll_pipes [(d, w), (c, v)] ms calm))
    exact pipeStep_comm h (calm.setScript ms)
  · intro s t order ms hs hof ht
    have calm : Calm s := ⟨hs, hof⟩
    obtain ⟨l, x, y, rest, hx, hy, perm⟩ := overlapSteps_serial order (calm.setScript ms)
    obtain rfl : overlapSteps order { s with script := ms } = t := Host.Outcome.next.inj ht
    exact ⟨l, _, x, y, stepAll_pipes l ms calm, rest, hx, hy, perm⟩
  · intro s recs z ms hs hof run own
    have calm : Calm s := ⟨hs, hof⟩
    obtain ⟨order, done⟩ := overlapTurns_interleave z (w := ⟨.all [], { s with script := ms }⟩)
      (calm.setScript ms) fun c v => by
        obtain ⟨t, alone, given⟩ := run c v
        exact ⟨_, (dueRecords_alone calm ms alone).trans (given.trans (own c v).symm)⟩
    exact ⟨order, _, rfl, done⟩

end Sys2Proof.Machine
end

section
/-!
PROOFS. SYN.STEP (42_synchroniser.md R172 to R177): a call between strobes, and a strobe with the transitions of
the lock state machine, one lemma per state.
-/

namespace Sys2Proof.Machine

open Sys2Proof

/-! ### The lock state machine, state by state (42_synchroniser.md R176) -/

section
variable (cfg : Cfg) (sig pe r : Bool) {st : SynState}

theorem lockStep_unlocked_silent (h : st.sstate = .unlocked) :
    lockStep cfg false pe r st = { st := st, bit := none, locked := false, unlocked := false } := by
  simp [lockStep, h]

theorem lockStep_unlocked_signal (h : st.sstate = .unlocked) :
    lockStep cfg true pe r st =
      { st := { st with sstate := .acquiring, good := if pe then 0#8 else 1#8 }
        bit := none, locked := false, unlocked := false } := by
  simp [lockStep, h]

theorem lockStep_acquiring_silent (h : st.sstate = .acquiring) :
    lockStep cfg false pe r st =
      { st := { st with sstate := .unlocked }, bit := none, locked := false, unlocked := false } := by
  simp [lockStep, h]

/-- The strobes in a row with signal and without phase error, this one counted. -/
def goodAfter (pe : Bool) (st : SynState) : BitVec 8 := if pe then 0#8 else addSat8 st.good 1

theorem lockStep_acquiring_gains (h : st.sstate = .acquiring)
    (enough : cfg.nLock.toNat ≤ (goodAfter pe st).toNat) :
    lockStep cfg true pe r st =
      { st := { st with sstate := .locked, good := goodAfter pe st, err := 0#8, sil := 0#8 }
        bit := none, locked := true, unlocked := false } := by
  simp only [lockStep, h, if_true]
  exact if_pos enough

theorem lockStep_acquiring_stays (h : st.sstate = .acquiring)
    (few : ¬cfg.nLock.toNat ≤ (goodAfter pe st).toNat) :
    lockStep cfg true pe r st =
      { st := { st with good := goodAfter pe st }, bit := none, locked := false, unlocked := false } := by
  simp only [lockStep, h, if_true]
  exact if_neg few

/-- The strobes in a row without signal, this one counted. -/
def silAfter (sig : Bool) (st : SynState) : BitVec 8 := if sig then 0#8 else addSat8 st.sil 1

/-- The leaky counter of phase errors after a strobe. -/
def errAfter (cfg : Cfg) (pe : Bool) (st : SynState) : BitVec 8 :=
  if pe then addSat8 st.err cfg.errInc.toNat else decSat8 st.err

/-- A strobe in LOCKED loses lock: phase errors or silence have gone on for too long. -/
def LosesLock (cfg : Cfg) (sig pe : Bool) (st : SynState) : Prop :=
  cfg.errMax.toNat ≤ (errAfter cfg pe st).toNat ∨ cfg.nSil.toNat ≤ (silAfter sig st).toNat

theorem lockStep_locked_loses (h : st.sstate = .locked) (lost : LosesLock cfg sig pe st) :
    lockStep cfg sig pe r st =
      { st := { st with sstate := .unlocked, sil := silAfter sig st, err := errAfter cfg pe st }
        bit := some r, locked := false, unlocked := true } := by
  simp only [lockStep, h]
  exact if_pos lost

theorem lockStep_locked_stays (h : st.sstate = .locked) (kept : ¬LosesLock cfg sig pe st) :
    lockStep cfg sig pe r st =
      { st := { st with sil := silAfter sig st, err := errAfter cfg pe st }
        bit := some r, locked := false, unlocked := false } := by
  simp only [lockStep, h]
  exact if_neg kept

/-! ### The transition table with its side effects (42_synchroniser.md R176, R177) -/

/-- The rows of UNLOCKED. -/
theorem lockStep_of_unlocked (h : st.sstate = .unlocked) (k : PipeCounters) :
    let b := lockStep cfg sig pe r st
    (¬sig = true → b.st.sstate = .unlocked ∧ b.st.good = st.good) ∧
    (sig = true → b.st.sstate = .acquiring ∧ (pe = true → b.st.good = 0#8) ∧
      (¬pe = true → b.st.good = 1#8)) ∧
    b.st.err = st.err ∧ b.st.sil = st.sil ∧
    (countLocks b k).locks = k.locks ∧ (countLocks b k).unlocks = k.unlocks := by
  cases sig with
  | false =>
    rw [lockStep_unlocked_silent cfg pe r h]
    simp [h, countLocks]
  | true =>
    rw [lockStep_unlocked_signal cfg pe r h]
    simp +contextual [countLocks]

theorem goodAfter_toNat (st : SynState) :
    (pe = true → (goodAfter pe st).toNat = 0) ∧
    (¬pe = true → (goodAfter pe st).toNat = min (st.good.toNat + 1) 255) := by
  cases pe <;> simp [goodAfter, addSat8_toNat]

/-- The rows of ACQUIRING. -/
theorem lockStep_of_acquiring (h : st.sstate = .acquiring) (k : PipeCounters) :
    let b := lockStep cfg sig pe r st
    (¬sig = true → b.st.sstate = .unlocked ∧ b.st.good = st.good) ∧
    (sig = true → (pe = true → b.st.good.toNat = 0) ∧
      (¬pe = true → b.st.good.toNat = min (st.good.toNat + 1) 255) ∧
      (b.st.good.toNat < cfg.nLock.toNat → b.st.sstate = .acquiring) ∧
      (cfg.nLock.toNat ≤ b.st.good.toNat → b.st.sstate = .locked)) ∧
    (b.st.sstate = .locked → b.st.err = 0#8 ∧ b.st.sil = 0#8 ∧
      (countLocks b k).locks = oneMore k.locks) ∧
    (b.st.sstate ≠ .locked → b.st.err = st.err ∧ b.st.sil = st.sil ∧ (countLocks b k).locks = k.locks) ∧
    (countLocks b k).unlocks = k.unlocks := by
  obtain ⟨good_pe, good_clean⟩ := goodAfter_toNat pe st
  cases sig with
  | false =>
    rw [lockStep_acquiring_silent cfg pe r h]
    simp [countLocks]
  | true =>
    by_cases enough : cfg.nLock.toNat ≤ (goodAfter pe st).toNat
    · rw [lockStep_acquiring_gains cfg pe r h enough]
      exact ⟨nofun, fun _ => ⟨good_pe, good_clean, fun few => absurd few (Nat.not_lt.2 enough), fun _ => rfl⟩,
        fun _ => ⟨rfl, rfl, incWord_eq _⟩, fun other => absurd rfl other, rfl⟩
    · have other : st.sstate ≠ .locked := fun locked => nomatch h.symm.trans locked
      rw [lockStep_acquiring_stays cfg pe r h enough]
      exact ⟨nofun, fun _ => ⟨good_pe, good_clean, fun _ => h, fun many => absurd many enough⟩,
        fun locked => (other locked).elim, fun _ => ⟨rfl, rfl, rfl⟩, rfl⟩

theorem silAfter_toNat (st : SynState) :
    (sig = true → (silAfter sig st).toNat = 0) ∧
    (¬sig = true → (silAfter sig st).toNat = min (st.sil.toNat + 1) 255) := by
  cases sig <;> simp [silAfter, addSat8_toNat]

theorem errAfter_toNat (st : SynState) :
    (pe = true → (errAfter cfg pe st).toNat = min (st.err.toNat + cfg.errInc.toNat) 255) ∧
    (¬pe = true → (errAfter cfg pe st).toNat = st.err.toNat - 1) := by
  cases pe <;> simp [errAfter, addSat8_toNat, decSat8_toNat]

/-- The rows of LOCKED. -/
theorem lockStep_of_locked (h : st.sstate = .locked) (k : PipeCounters) :
    let b := lockStep cfg sig pe r st
    let lost := cfg.errMax.toNat ≤ b.st.err.toNat ∨ cfg.nSil.toNat ≤ b.st.sil.toNat
    b.st.good = st.good ∧ (countLocks b k).locks = k.locks ∧
    (sig = true → b.st.sil.toNat = 0) ∧ (¬sig = true → b.st.sil.toNat = min (st.sil.toNat + 1) 255) ∧
    (pe = true → b.st.err.toNat = min (st.err.toNat + cfg.errInc.toNat) 255) ∧
    (¬pe = true → b.st.err.toNat = st.err.toNat - 1) ∧
    (lost → b.st.sstate = .unlocked ∧ (countLocks b k).unlocks = oneMore k.unlocks) ∧
    (¬lost → b.st.sstate = .locked ∧ (countLocks b k).unlocks = k.unlocks) := by
  obtain ⟨sil_sig, sil_silent⟩ := silAfter_toNat sig st
  obtain ⟨err_pe, err_clean⟩ := errAfter_toNat cfg pe st
  by_cases lost : LosesLock cfg sig pe st
  · rw [lockStep_locked_loses cfg sig pe r h lost]
    exact ⟨rfl, rfl, sil_sig, sil_silent, err_pe, err_clean, fun _ => ⟨rfl, incWord_eq _⟩,
      fun kept => absurd lost kept⟩
  · rw [lockStep_locked_stays cfg sig pe r h lost]
    exact ⟨rfl, rfl, sil_sig, sil_silent, err_pe, err_clean, fun again => absurd again lost,
      fun _ => ⟨h, rfl⟩⟩

end

/-! ### SYN.STEP in a pipeline -/

theorem exec_synStep (c : Chan) (v : Variant) (e : BitVec 16) (s : State) :
    exec (.synStep c v e) s = .next (synStep c v e s) := rfl

/-- The early/late correction of a strobe whose late sample is `late` (42_synchroniser.md R173). -/
def correctTiming (cfg : Cfg) (late : Int) (a : SynState) : SynState :=
  { a with tcnt := BitVec.ofInt 8 (a.tcnt.toInt + 16 - 80 - (cfg.tgain.toNat : Int) * synTed a.h2.toInt late) }

/-- At a strobe the timing register stands in [64, 127] before the call, so that it holds the corrected count
exactly. -/
theorem correctTiming_tcnt (cfg : Cfg) (late : Int) (a : SynState) (h : 80 ≤ a.tcnt.toInt + 16) :
    (correctTiming cfg late a).tcnt.toInt =
      a.tcnt.toInt + 16 - 80 - (cfg.tgain.toNat : Int) * synTed a.h2.toInt late := by
  have correction := synCorrection_bounds cfg a.h2.toInt late
  have high : a.tcnt.toInt < 128 := BitVec.toInt_lt
  exact toInt_ofInt8 (by omega) (by omega)

/-- What the lock state machine leaves at a strobe whose late sample is `late`. -/
def strobeLock (cfg : Cfg) (late : Int) (a : SynState) : SynResult :=
  lockStep cfg (synSig cfg a.h1.toInt) (synPe cfg a.h2.toInt a.h1.toInt late) (decide (0 < a.h1.toInt))
    (correctTiming cfg late a)

/-- The lock state machine leaves the corrected count. -/
theorem strobeLock_tcnt (cfg : Cfg) (late : Int) (a : SynState) (h : 80 ≤ a.tcnt.toInt + 16) :
    (strobeLock cfg late a).st.tcnt.toInt =
      a.tcnt.toInt + 16 - 80 - (cfg.tgain.toNat : Int) * synTed a.h2.toInt late := by
  obtain ⟨tcnt, -, -⟩ := lockStep_timing cfg _ _ _ (correctTiming cfg late a)
  rw [strobeLock, tcnt, correctTiming_tcnt cfg late a h]

theorem strobeLock_h1 (cfg : Cfg) (late : Int) (a : SynState) : (strobeLock cfg late a).st.h1 = a.h1 := by
  obtain ⟨-, h1, -⟩ := lockStep_timing cfg _ _ _ (correctTiming cfg late a)
  exact h1

theorem strobeLock_bit (cfg : Cfg) (late : Int) (a : SynState) : (strobeLock cfg late a).bit.toList =
    if a.sstate = .locked then [decide (0 < a.h1.toInt)] else [] := by
  have state : (correctTiming cfg late a).sstate = a.sstate := rfl
  rw [strobeLock, lockStep_bit, state]
  split <;> rfl

/-- A strobe in pipeline `P[c][v]`. -/
theorem synStep_strobe (c : Chan) (v : Variant) (e : BitVec 16) (s : State)
    (h : 80 ≤ (s.pipe.get c v).syn.tcnt.toInt + 16) :
    synStep c v e s =
      let r := strobeLock s.cfg (softOf e) (s.pipe.get c v).syn
      s.setPipe c v { s.pipe.get c v with
        syn := synShift (softOf e) r.st, cnt := countLocks r (s.pipe.get c v).cnt
        raw := (s.pipe.get c v).raw ++ r.bit.toList } := by
  unfold synStep
  simp only []
  rw [synTrans_strobe _ _ _ h]
  rfl

/-- Settles O39: below 64 the timing register has room for 16 more ticks, and the soft value fits the history. -/
theorem synStepBetweenStrobes : Obligations.SynStepBetweenStrobes := by
  intro c v e s h
  have low : -128 ≤ (s.pipe.get c v).syn.tcnt.toInt := BitVec.le_toInt _
  obtain ⟨soft_low, soft_high⟩ := softOf_bounds e
  refine ⟨_, _, toInt_ofInt8 (by omega) (by omega), toInt_ofInt16 (by omega) soft_high, ?_⟩
  rw [exec_synStep, synStep]
  simp [synTrans_between _ _ _ h, countLocks]

/-- Settles O40: the timing and the history from the correction of R173, the bit from R175, and the rows of the
transition table, one lemma per state. -/
theorem synStepOnAStrobe : Obligations.SynStepOnAStrobe := by
  intro c v e s h
  obtain ⟨soft_low, soft_high⟩ := softOf_bounds e
  refine ⟨_, exec_synStep c v e s, ?_⟩
  rw [synStep_strobe c v e s h]
  simp only [setPipe_pipe, PerPipe.get_set_same]
  refine ⟨rfl, ?_⟩
  rw [← synTed_eq, ← synPe_iff, ← synSig_iff]
  exact ⟨strobeLock_tcnt _ _ _ h, toInt_ofInt16 (by omega) soft_high, strobeLock_h1 _ _ _,
    congrArg _ (strobeLock_bit _ _ _),
    fun unlocked => lockStep_of_unlocked (st := correctTiming ..) _ _ _ _ unlocked _,
    fun acquiring => lockStep_of_acquiring (st := correctTiming ..) _ _ _ _ acquiring _,
    fun locked => lockStep_of_locked (st := correctTiming ..) _ _ _ _ locked _⟩

end Sys2Proof.Machine
end

section
/-!
PROOFS. The command processor (45_host_commands.md): what CP's turn does with the packet at the head of CMD
(R240), the meaning of each host command by LIFE (R241 to R252), and that nothing in IDLE disturbs what reset
left (R245).
-/

namespace Sys2Proof.Machine

open Sys2Proof

/-! ### CP's turn (R240) -/

theorem step_of_cp_turn {s : State} {ms : List Move} (h : s.script = .agent .cp :: ms) :
    step s = cpStep { s with script := ms } := by
  unfold step
  rw [h]
  rfl

theorem shutdownEnabled_iff (s : State) : shutdownEnabled s = true ↔
    s.shutdownLatch = true ∧ (s.life = .idle ∨ s.life = .running) := by
  simp [shutdownEnabled]

theorem shutdownEnabled_eq_false {s : State}
    (h : s.shutdownLatch = false ∨ s.life = .stopped ∨ s.life = .fatal) : shutdownEnabled s = false := by
  rcases h with h | h | h <;> simp [shutdownEnabled, h]

theorem cpStep_shutdown {s : State} (h : shutdownEnabled s = true) : cpStep s = .next (shutdown s) := by
  unfold cpStep
  exact if_pos h

theorem cpStep_instr {s : State} {p : Packet} {ps : List Packet} {i : Instr}
    (hs : shutdownEnabled s = false) (hc : s.cmd = p :: ps) (hd : decodePacket p = .instr i) :
    cpStep s = if ready i s then exec i { s with cmd := ps } else .next s := by
  simp only [cpStep, hs, hc, packetReady, execPacket, hd, Bool.false_eq_true, if_false]

/-- RSP has room: it is unbounded, or the words fit beside those that wait. -/
theorem rspRoom_iff (n : Nat) (s : State) : rspRoom n s = true ↔
    ∀ d, s.depths.rspDepth = some d → (s.rsp.map List.length).sum + n ≤ d := by
  unfold rspRoom rspWords
  cases s.depths.rspDepth <;> simp

theorem rspRoom_eq_false {n d : Nat} {s : State} (hd : s.depths.rspDepth = some d)
    (h : d < (s.rsp.map List.length).sum + n) : rspRoom n s = false := by
  rw [Bool.eq_false_iff, Ne, rspRoom_iff]
  exact fun room => Nat.not_le_of_lt h (room d hd)

/-- Settles O6: no shutdown step stands in the way, and the packet is ready, command by command. -/
theorem stepExecutesTheHeadPacket : Obligations.StepExecutesTheHeadPacket := by
  intro s p ps ms i hscript hcmd hlife hdecode hready
  have disabled : shutdownEnabled { s with script := ms } = false := shutdownEnabled_eq_false hlife
  have isReady : ready i { s with script := ms } = true := by
    cases i with
    | fence a => exact (queuesEmpty_iff _).2 hready
    | regrd a idx => exact (rspRoom_iff 1 _).2 hready
    | frpop a => exact (rspRoom_iff (frpopLen s) _).2 hready
    | _ => rfl
  rw [step_of_cp_turn hscript, cpStep_instr disabled hcmd hdecode, if_pos isReady]

/-- A command that is not ready leaves CP's turn without effect. -/
theorem step_unready {s : State} {p : Packet} {ps : List Packet} {ms : List Move} {i : Instr}
    (hscript : s.script = .agent .cp :: ms) (hcmd : s.cmd = p :: ps) (hs : shutdownEnabled s = false)
    (hdecode : decodePacket p = .instr i) (hready : ready i s = false) :
    step s = .next { s with script := ms } := by
  have unready : ready i { s with script := ms } = false := by cases i <;> exact hready
  rw [step_of_cp_turn hscript, cpStep_instr (s := { s with script := ms }) hs hcmd hdecode, unready]
  rfl

/-- Settles O9: one case per command that can wait, FRPOP's by the length of its answer. -/
theorem unreadyCommandWaits : Obligations.UnreadyCommandWaits := by
  intro s p ps ms hscript hcmd hs hwait
  rcases hwait with ⟨⟨a, hdecode⟩, c, v, waits⟩ | ⟨a, idx, d, hdecode, hd, short⟩ |
    ⟨a, d, hdecode, hd, hof, short⟩ | ⟨a, d, f, fs, hdecode, hd, hof, short⟩ <;>
    refine step_unready hscript hcmd hs hdecode ?_
  · rw [ready, Bool.eq_false_iff, Ne, queuesEmpty_iff]
    exact fun empty => waits (empty c v)
  · exact rspRoom_eq_false hd short
  · rw [ready, frpopLen, hof]
    exact rspRoom_eq_false hd short
  · rw [ready, frpopLen, hof]
    exact rspRoom_eq_false hd short

/-! ### The shutdown step and STOP (R247, R248) -/

/-- `t` is `s` shut down: every queued block dropped and counted, LIFE at STOPPED, nothing else changed. -/
structure ShutDown (s t : State) : Prop where
  rest : t = { s with life := .stopped, glob := t.glob, pipe := t.pipe }
  glob : t.glob = { s.glob with shutdownDrops := t.glob.shutdownDrops }
  drops : t.glob.shutdownDrops.toNat = min (s.glob.shutdownDrops.toNat + waiting s) 4294967295
  pipe : ∀ c v, t.pipe.get c v = { s.pipe.get c v with q := [] }

theorem shutdown_shutDown (s : State) : ShutDown s (shutdown s) where
  rest := by rw [shutdown_eq]
  glob := by rw [shutdown_eq]
  drops := by rw [shutdown_eq]; exact moreBy_toNat _ _
  pipe := shutdown_pipe s

/-- Settles O8: the test of the latch comes first, and the step is a shutdown. -/
theorem shutdownStepPreemptsCommands : Obligations.ShutdownStepPreemptsCommands := by
  intro s ms hscript hlatch hlife
  have enabled : shutdownEnabled { s with script := ms } = true := (shutdownEnabled_iff _).2 ⟨hlatch, hlife⟩
  have effect := shutdown_shutDown { s with script := ms }
  exact ⟨_, (step_of_cp_turn hscript).trans (cpStep_shutdown enabled),
    effect.rest, effect.glob, effect.drops, effect.pipe⟩

theorem exec_stop_open {s : State} (arg : BitVec 24) (h : s.life = .idle ∨ s.life = .running) :
    exec (.stop arg) s = .next (shutdown s) := by
  show execStop arg s = _
  rcases h with h | h <;> rw [execStop, h]

theorem exec_stop_closed {s : State} (arg : BitVec 24) (h : s.life = .stopped ∨ s.life = .fatal) :
    exec (.stop arg) s = .next s := by
  show execStop arg s = _
  rcases h with h | h <;> rw [execStop, h]

/-- Settles O26: STOP shuts down in IDLE and RUNNING. -/
theorem stopDropsAndCountsQueuedBlocks : Obligations.StopDropsAndCountsQueuedBlocks := by
  intro arg s
  have effect := shutdown_shutDown s
  exact ⟨fun h => ⟨_, exec_stop_open arg h, effect.rest, effect.glob, effect.drops, effect.pipe⟩,
    exec_stop_closed arg⟩

/-! ### START (R245, R246) -/

/-- The conditions of R246, in numbers. -/
theorem cfgLegal_iff (cfg : Cfg) : cfgLegal cfg = true ↔
    (cfg.nch.toNat = 1 ∨ cfg.nch.toNat = 2) ∧ cfg.varmask.toNat ≠ 0 ∧
    1 ≤ cfg.decim.toNat ∧ cfg.decim.toNat ≤ 64 ∧
    1 ≤ cfg.ntaps.toNat ∧ cfg.ntaps.toNat ≤ 64 ∧
    1 ≤ cfg.rotlen0.toNat ∧ cfg.rotlen0.toNat ≤ 64 ∧
    1 ≤ cfg.rotlen1.toNat ∧ cfg.rotlen1.toNat ≤ 64 ∧
    cfg.fsAcq.toNat = cfg.decim.toNat * 48000 ∧
    1 ≤ cfg.nLock.toNat ∧ 1 ≤ cfg.errMax.toNat ∧ 1 ≤ cfg.nSil.toNat := by
  simp only [cfgLegal, Bool.and_eq_true, Bool.or_eq_true, decide_eq_true_eq, and_assoc, Config.fsWork,
    Ne, ← BitVec.toNat_inj, BitVec.toNat_ofNat, Nat.reducePow, Nat.reduceMod]

theorem exec_start_idle {s : State} (arg : BitVec 24) (h : s.life = .idle) : exec (.start arg) s =
    if cfgLegal s.cfg then .next { s with life := .running } else .next (raiseFatal .configInvalid s) := by
  show execStart arg s = _
  rw [execStart, h]

theorem exec_start_refused {s : State} (arg : BitVec 24) (h : s.life ≠ .idle) :
    exec (.start arg) s = .next (cmdErrWith 0x12#8 s) := by
  show execStart arg s = _
  unfold execStart
  split
  · contradiction
  · rfl
  · rfl
  · rfl

/-- Settles O25: the check in numbers, then the two outcomes in IDLE. -/
theorem startChecksTheConfiguration : Obligations.StartChecksTheConfiguration := by
  intro arg s
  refine ⟨fun idle legal => ?_, fun idle illegal => ?_, exec_start_refused arg⟩
  · rw [exec_start_idle arg idle, if_pos ((cfgLegal_iff s.cfg).2 legal)]
  · rw [exec_start_idle arg idle, if_neg (mt (cfgLegal_iff s.cfg).1 illegal)]
    rfl

/-! ### NOP and FENCE (R241, R249) -/

/-- Settles O17: both answer the state they are given. -/
theorem nopAndFenceChangeNothing : Obligations.NopAndFenceChangeNothing :=
  fun _ _ => ⟨rfl, rfl⟩

/-! ### CFGWR and REGRD (R243, R244) -/

theorem exec_cfgwr_unmapped {idx : BitVec 12} (h : regOfIndex idx = none) (arg : BitVec 12) (val : Word)
    (s : State) : exec (.cfgwr arg idx val) s = .next (cmdErrWith 0x13#8 s) := by
  show execCfgwr idx val s = _
  rw [execCfgwr, h]
  rfl

theorem cfgWrite_readOnly {r : Reg} (h : regAccess r = .ro) (val : Word) (s : State) :
    cfgWrite r val s = cmdErrWith 0x14#8 s := by
  rw [cfgWrite, h]
  rfl

theorem cfgWrite_outside_idle {r : Reg} {s : State} (h : regAccess r = .cfg) (hl : s.life ≠ .idle)
    (val : Word) : cfgWrite r val s = cmdErrWith 0x12#8 s := by
  unfold cfgWrite
  rw [h]
  exact if_neg hl

/-- Settles O18: one lemma per refusal. -/
theorem cfgwrRefusalsInOrder : Obligations.CfgwrRefusalsInOrder := by
  intro arg idx val s
  refine ⟨fun h => exec_cfgwr_unmapped h arg val s, fun r hr ha => ?_, fun r hr ha hl => ?_⟩
  · rw [exec_cfgwr_mapped hr, cfgWrite_readOnly ha]
  · rw [exec_cfgwr_mapped hr, cfgWrite_outside_idle ha hl]

theorem exec_regrd_unmapped {idx : BitVec 12} (h : regOfIndex idx = none) (arg : BitVec 12) (s : State) :
    exec (.regrd arg idx) s = .next { cmdErrWith 0x13#8 s with rsp := s.rsp ++ [[0#32]] } := by
  show execRegrd idx s = _
  rw [execRegrd, h]
  rfl

/-- The map ends at 0x3FF (20_memory.md R76). -/
theorem regOfIndex_above {idx : BitVec 12} (h : 0x400 ≤ idx.toNat) : regOfIndex idx = none := by
  unfold regOfIndex
  simp only []
  iterate 8 rw [if_neg (by omega)]

/-- Settles O21: the two answers of REGRD, the end of the map, and the registers as fields of the state. -/
theorem regrdAnswersOneWord : Obligations.RegrdAnswersOneWord := by
  intro arg idx s
  refine ⟨fun r hr => exec_regrd_mapped hr arg s, fun h => exec_regrd_unmapped h arg s, regOfIndex_above,
    rfl, rfl, rfl, rfl, rfl, ?_, rfl, rfl, rfl, rfl, rfl, fun c v => ⟨rfl, rfl, rfl, rfl, rfl, rfl, rfl⟩⟩
  exact BitVec.toNat_setWidth_of_le (by decide)

/-! ### BLOCK outside RUNNING, EOS and FRPOP (R250 to R252) -/

theorem exec_block_refused {s : State} (chid : BitVec 8) (len : BitVec 16) (body : List Word)
    (h : s.life = .idle ∨ s.life = .fatal) :
    exec (.block chid len body) s = .next (cmdErrWith 0x12#8 s) := by
  show execBlock chid len body s = _
  rcases h with h | h <;> rw [execBlock, h] <;> rfl

theorem exec_block_stopped {s : State} (chid : BitVec 8) (len : BitVec 16) (body : List Word)
    (h : s.life = .stopped) : exec (.block chid len body) s = .next (raise .shutdownDrop s) := by
  show execBlock chid len body s = _
  rw [execBlock, h]

theorem exec_eos_idle {s : State} (arg : BitVec 24) (h : s.life = .idle) :
    exec (.eos arg) s = .next (cmdErrWith 0x12#8 s) := by
  show execEos arg s = _
  rw [execEos, h]
  rfl

theorem exec_eos_running {s : State} (arg : BitVec 24) (h : s.life = .running) :
    exec (.eos arg) s = .next (raiseFatal .srcClosed s) := by
  show execEos arg s = _
  rw [execEos, h]

theorem exec_eos_closed {s : State} (arg : BitVec 24) (h : s.life = .stopped ∨ s.life = .fatal) :
    exec (.eos arg) s = .next s := by
  show execEos arg s = _
  rcases h with h | h <;> rw [execEos, h]

/-- Settles O27: one lemma per lifecycle state and command. -/
theorem blockAndEosByLifecycle : Obligations.BlockAndEosByLifecycle :=
  ⟨fun chid len body _ => ⟨exec_block_refused chid len body, exec_block_stopped chid len body⟩,
    fun arg _ => ⟨exec_eos_idle arg, exec_eos_running arg, exec_eos_closed arg⟩⟩

theorem exec_frpop_empty {s : State} (arg : BitVec 24) (h : s.ofifo = []) :
    exec (.frpop arg) s = .next (pushRsp [0#32] s) := by
  show execFrpop arg s = _
  rw [execFrpop, h]

theorem exec_frpop_record {s : State} (arg : BitVec 24) {f : List Word} {fs : List (List Word)}
    (h : s.ofifo = f :: fs) : exec (.frpop arg) s = .next (pushRsp f { s with ofifo := fs }) := by
  show execFrpop arg s = _
  rw [execFrpop, h]

/-- Settles O30: the two cases of OF. -/
theorem frpopMovesTheOldestRecord : Obligations.FrpopMovesTheOldestRecord :=
  fun arg _ => ⟨exec_frpop_empty arg, fun _ _ => exec_frpop_record arg⟩

end Sys2Proof.Machine
end

section
/-!
PROOFS. In IDLE nothing runs but what the host sets up (45_host_commands.md R245): whatever keeps LIFE at IDLE
writes only the configuration, CMD_ERR, LAST_ERR, IRQ_ENABLE and the ports.
-/

namespace Sys2Proof.Machine

open Sys2Proof

/-! ### What the host may set up in IDLE -/

/-- `t` differs from `s` only in the configuration, CMD_ERR, LAST_ERR, IRQ_ENABLE, the ports, and the model's
own fields. -/
def SetUp (s t : State) : Prop :=
  ∃ err irq cfg coef n cmd part rsp req latch depths ms k, t = { s with
    lastErr := err, irqEnable := irq, cfg := cfg, coef := coef, glob := { s.glob with cmdErr := n }
    cmd := cmd, cmdPart := part, rsp := rsp, shutdownReq := req, shutdownLatch := latch
    depths := depths, script := ms, tick := k }

theorem MovedOn.setUp {s t : State} (h : MovedOn s t) : SetUp s t := by
  obtain ⟨_, _, _, rfl⟩ := h
  exact ⟨_, _, _, _, _, _, _, _, _, _, _, _, _, rfl⟩

theorem SetUp.raiseCmdErr (code : BitVec 8) (s : State) : SetUp s (raiseCmdErr code s) :=
  ⟨_, _, _, _, _, _, _, _, _, _, _, _, _, rfl⟩

theorem SetUp.pushRsp (ws : List Word) (s : State) : SetUp s (pushRsp ws s) :=
  ⟨_, _, _, _, _, _, _, _, _, _, _, _, _, rfl⟩

/-- A reset is the reset state but for what the host has set up (70_reset_and_hazards.md R310). -/
theorem ResetOf.setUp {s t : State} (h : ResetOf s t) : SetUp State.reset t := by
  obtain ⟨_, _, _, _, e⟩ := h
  exact ⟨_, _, _, _, _, _, _, _, _, _, _, _, _, e⟩

theorem hostAct_setUp (a : HostAct) (s : State) : SetUp s (hostAct a s) ∨ SetUp .reset (hostAct a s) := by
  cases a with
  | sendWord w last => cases last <;> exact .inl ⟨_, _, _, _, _, _, _, _, _, _, _, _, _, rfl⟩
  | takeWord =>
    refine .inl ?_
    show SetUp s (Machine.takeWord s)
    unfold Machine.takeWord
    split <;> exact ⟨_, _, _, _, _, _, _, _, _, _, _, _, _, rfl⟩
  | setShutdown level => exact .inl ⟨_, _, _, _, _, _, _, _, _, _, _, _, _, rfl⟩
  | rstPulse => exact .inr (pinReset_resetOf s).setUp

/-! ### The invariant under each change of the state -/

theorem IdleFresh.of_not_idle {s : State} (h : s.life ≠ .idle) : IdleFresh s := by
  constructor <;> exact fun e => absurd e h

theorem IdleFresh.setUp {s t : State} (h : IdleFresh s) (e : SetUp s t) : IdleFresh t := by
  obtain ⟨_, _, _, _, _, _, _, _, _, _, _, _, _, rfl⟩ := e
  exact ⟨h.cond, h.kern, h.pipe, h.ofifo, h.sticky, h.cause, h.counters⟩

/-- Flags that are clear stay clear (10_state.md R30). -/
theorem IdleFresh.clearSticky {s : State} (h : IdleFresh s) (val : Word) : IdleFresh (clearSticky val s) where
  cond := h.cond
  kern := h.kern
  pipe := h.pipe
  ofifo := h.ofifo
  sticky idle := by
    obtain ⟨blkErr, overrun⟩ := h.sticky idle
    simp [Machine.clearSticky, blkErr, overrun]
  cause := h.cause
  counters := h.counters

theorem IdleFresh.writeReg {s : State} (h : IdleFresh s) (r : Reg) (val : Word) :
    IdleFresh (writeReg r val s) := by
  cases r with
  | irqStatus => exact h.clearSticky val
  | irqEnable | cfg k | coefH c k | coefW c i => exact h.setUp ⟨_, _, _, _, _, _, _, _, _, _, _, _, _, rfl⟩
  | _ => exact h

/-- A command that leaves LIFE at IDLE is a set-up, a write of IRQ_STATUS or a reset; FRPOP finds no record. -/
theorem IdleFresh.exec {i : Instr} {s t : State} (hi : IsCommand i) (hx : exec i s = .next t)
    (h : IdleFresh s) : IdleFresh t := by
  rcases exec_command_cases hi hx with rfl | rfl | ⟨code, rfl⟩ | ⟨r, val, -, -, rfl⟩ |
    ⟨w, rfl | ⟨code, rfl⟩⟩ | ⟨-, -, rfl⟩ | ⟨-, -, rfl⟩ | ⟨-, rfl⟩ | ⟨hl, rfl⟩ | ⟨hl, code, rfl⟩ |
    ⟨hl, body, rfl⟩ | ⟨-, rfl⟩ | ⟨f, rest, hf, rfl⟩
  · exact h
  · exact IdleFresh.reset.setUp (softReset_resetOf s).setUp
  · exact h.setUp (.raiseCmdErr code s)
  · exact h.writeReg r val
  · exact h.setUp (.pushRsp _ s)
  · exact (h.setUp (.raiseCmdErr code s)).setUp (.pushRsp _ _)
  · exact .of_not_idle nofun
  · exact .of_not_idle nofun
  · exact .of_not_idle nofun
  · refine .of_not_idle ?_
    rw [raise_life, hl]
    nofun
  · refine .of_not_idle ?_
    rw [raise_life, hl]
    nofun
  · refine .of_not_idle ?_
    obtain ⟨_, _, _, _, e⟩ := condAccepted_frame body s
    rw [e, hl]
    nofun
  · exact .of_not_idle nofun
  · refine .of_not_idle fun idle => ?_
    have empty : s.ofifo = [] := h.ofifo idle
    rw [empty] at hf
    cases hf

/-! ### The pipelines stand still in IDLE (41_demodulator.md R151) -/

theorem pipeBegin_of_idle {s : State} (h : s.life = .idle) (c : Chan) (v : Variant) :
    pipeBegin c v s = ([], s) := by
  simp [pipeBegin, pipeMayStep, h]

theorem pipeStep_of_idle {s : State} (h : s.life = .idle) (c : Chan) (v : Variant) : pipeStep c v s = s := by
  rw [pipeStep, pipeBegin_of_idle h]
  rfl

theorem PerPipe.set_all {α : Type} (a : α) (c : Chan) (v : Variant) :
    (PerPipe.all a).set c v a = .all a := by
  cases c <;> cases v <;> rfl

theorem overlapTurn_of_idle {s : State} (h : s.life = .idle) (cv : Chan × Variant) :
    overlapTurn ⟨.all [], s⟩ cv = ⟨.all [], s⟩ := by
  simp only [overlapTurn, PerPipe.get_all, pipeBegin_of_idle h, PerPipe.set_all]

theorem overlapSteps_of_idle {s : State} (h : s.life = .idle) (order : List (Chan × Variant)) :
    overlapSteps order s = s := by
  have turns : order.foldl overlapTurn ⟨.all [], s⟩ = ⟨.all [], s⟩ := by
    induction order with
    | nil => rfl
    | cons cv order ih => rw [List.foldl_cons, overlapTurn_of_idle h, ih]
  rw [overlapSteps, turns]
  rfl

/-- What pipelines write leaves LIFE, and in IDLE they write nothing. -/
theorem IdleFresh.of_pipelines {s t : State} (h : IdleFresh s) (wrote : PipelinesWrote s t)
    (still : s.life = .idle → t = s) : IdleFresh t := by
  by_cases idle : s.life = .idle
  · rw [still idle]
    exact h
  · obtain ⟨_, _, _, _, _, rfl⟩ := wrote
    exact .of_not_idle idle

/-- Settles O55: by the inversion of `step`, each of its outcomes leaves IDLE or keeps what is fresh there. -/
theorem stepKeepsIdleFresh : Obligations.StepKeepsIdleFresh := by
  intro s t h hs
  obtain ⟨u, moved, outcome⟩ := step_cases hs
  have hu : IdleFresh u := h.setUp moved.setUp
  rcases outcome with ⟨-, rfl⟩ | rfl | ⟨code, rfl⟩ | ⟨i, hi, hx⟩ | ⟨c, v, rfl⟩ | ⟨order, rfl⟩ | ⟨a, rfl⟩
  · exact .of_not_idle nofun
  · exact hu
  · exact hu.setUp (.raiseCmdErr code u)
  · exact hu.exec hi hx
  · exact hu.of_pipelines (pipeStep_wrote c v u) fun idle => pipeStep_of_idle idle c v
  · exact hu.of_pipelines (overlapSteps_wrote order u) fun idle => overlapSteps_of_idle idle order
  · exact (hostAct_setUp a u).elim hu.setUp IdleFresh.reset.setUp

end Sys2Proof.Machine
end

section
/-!
PROOFS. Resets and hazards (70_reset_and_hazards.md): what a pulse on `rst` and an SRESET leave (R310, R311), and
that outside IDLE nothing but a reset touches the configuration (R319).
-/

namespace Sys2Proof.Machine

open Sys2Proof

/-! ### The two resets (R310) -/

theorem step_of_host_move {s : State} {a : HostAct} {ms : List Move} (h : s.script = .host a :: ms) :
    step s = .next (hostAct a { s with script := ms }) := by
  unfold step
  rw [h]
  rfl

theorem exec_sreset (arg : BitVec 24) (s : State) : exec (.sreset arg) s = .next (softReset s) := rfl

/-- Settles O14: the step is the pin's reset of the state with its script moved on, and SRESET's meaning is
`softReset`, which differs from the pin's in CMD and RSP alone. -/
theorem resetRestoresTheResetState : Obligations.ResetRestoresTheResetState :=
  ⟨fun _ _ pulse => step_of_host_move pulse, exec_sreset⟩

/-! ### What leaves the configuration alone (20_memory.md R85) -/

/-- `t` has the configuration registers and the coefficients of `s`. -/
def SameConfig (s t : State) : Prop := t.cfg = s.cfg ∧ t.coef = s.coef

theorem SameConfig.refl (s : State) : SameConfig s s := ⟨rfl, rfl⟩

theorem SameConfig.trans {s t u : State} (h : SameConfig s t) (h' : SameConfig t u) : SameConfig s u :=
  ⟨h'.1.trans h.1, h'.2.trans h.2⟩

theorem Bookkept.sameConfig {s t : State} (h : Bookkept s t) : SameConfig s t := by
  obtain ⟨_, _, _, _, _, _, _, _, _, _, _, rfl⟩ := h
  exact .refl s

theorem PipelinesWrote.sameConfig {s t : State} (h : PipelinesWrote s t) : SameConfig s t := by
  obtain ⟨_, _, _, _, _, rfl⟩ := h
  exact .refl s

theorem shutdown_sameConfig (s : State) : SameConfig s (shutdown s) := by
  rw [shutdown_eq]
  exact .refl s

theorem condAccepted_sameConfig (body : List Word) (s : State) : SameConfig s (condAccepted body s) := by
  obtain ⟨_, _, _, _, frame⟩ := condAccepted_frame body s
  rw [frame]
  exact .refl s

/-- Outside IDLE a register that CFGWR may write is no configuration register (45_host_commands.md R243). -/
theorem writeReg_sameConfig {r : Reg} {s : State} (val : Word) (outside : s.life ≠ .idle)
    (allowed : regAccess r = .cfg → s.life = .idle) : SameConfig s (writeReg r val s) := by
  cases r with
  | cfg k | coefH c i | coefW c i => exact absurd (allowed rfl) outside
  | _ => exact .refl s

/-! ### The step -/

/-- Outside IDLE a command leaves the configuration, or is SRESET (45_host_commands.md R242, R243). -/
theorem exec_sameConfig {i : Instr} {s t : State} (hi : IsCommand i) (hx : exec i s = .next t)
    (outside : s.life ≠ .idle) : SameConfig s t ∨ ResetOf s t := by
  rcases exec_command_cases hi hx with rfl | rfl | ⟨code, rfl⟩ | ⟨r, val, -, allowed, rfl⟩ |
    ⟨w, rfl | ⟨code, rfl⟩⟩ | ⟨idle, -, -⟩ | ⟨idle, -, -⟩ | ⟨-, rfl⟩ | ⟨-, rfl⟩ | ⟨-, code, rfl⟩ |
    ⟨-, body, rfl⟩ | ⟨-, rfl⟩ | ⟨f, rest, -, rfl⟩
  · exact .inl (.refl _)
  · exact .inr (softReset_resetOf s)
  · exact .inl (raiseCmdErr_bookkept code s).sameConfig
  · exact .inl (writeReg_sameConfig val outside allowed)
  · exact .inl (pushRsp_bookkept _ s).sameConfig
  · exact .inl ((raiseCmdErr_bookkept code s).sameConfig.trans (pushRsp_bookkept _ _).sameConfig)
  · exact absurd idle outside
  · exact absurd idle outside
  · exact .inl (shutdown_sameConfig s)
  · exact .inl (raise_bookkept _ s).sameConfig
  · exact .inl (raise_bookkept _ s).sameConfig
  · exact .inl (condAccepted_sameConfig body s)
  · exact .inl (.refl s)
  · exact .inl (popFrame_bookkept f rest s).sameConfig

/-- No action of the HOST reaches the configuration but the pin `rst`. -/
theorem hostAct_sameConfig (a : HostAct) (s : State) :
    SameConfig s (hostAct a s) ∨ ResetOf s (hostAct a s) := by
  cases a with
  | sendWord w last => exact .inl (receiveWord_bookkept w last s).sameConfig
  | takeWord => exact .inl (takeWord_bookkept s).sameConfig
  | setShutdown level => exact .inl (.refl s)
  | rstPulse => exact .inr (pinReset_resetOf s)

theorem MovedOn.life {s u : State} (h : MovedOn s u) : u.life = s.life := by
  obtain ⟨_, _, _, rfl⟩ := h
  rfl

/-- Settles O57: by the inversion of `step`. The one write to the configuration is CFGWR's, which IDLE alone
allows; every other outcome is outside it or is a reset. -/
theorem configurationIsFrozen : Obligations.ConfigurationIsFrozen := by
  intro s t outside h
  obtain ⟨u, moved, outcome⟩ := step_cases h
  suffices SameConfig u t ∨ ResetOf u t from
    this.imp moved.bookkept.sameConfig.trans moved.resetOf
  rcases outcome with ⟨-, rfl⟩ | rfl | ⟨code, rfl⟩ | ⟨i, hi, hx⟩ | ⟨c, v, rfl⟩ | ⟨order, rfl⟩ | ⟨a, rfl⟩
  · exact .inl (shutdown_sameConfig u)
  · exact .inl (.refl _)
  · exact .inl (raiseCmdErr_bookkept code u).sameConfig
  · exact exec_sameConfig hi hx (moved.life ▸ outside)
  · exact .inl (pipeStep_wrote c v u).sameConfig
  · exact .inl (overlapSteps_wrote order u).sameConfig
  · exact hostAct_sameConfig a u

end Sys2Proof.Machine
end

section
/-!
PROOFS. The encoding (30_encoding.md): decoding opcode by opcode (R101 to R104, R110 to R112), the encoder as its
inverse, and CP's turn on a packet that is rejected.
-/

namespace Sys2Proof.Machine

open Sys2Proof Sys2Proof.Laws

/-! ### Headers (R101) -/

/-- The opcode field of a header, in numbers. -/
theorem opcodeField_toNat (hdr : Word) : (hdr.extractLsb' 24 8 : BitVec 8).toNat = hdr.toNat / 2 ^ 24 := by
  have := hdr.isLt
  rw [BitVec.extractLsb'_toNat, Nat.shiftRight_eq_div_pow]
  omega

theorem opcodeOf_eq_some {b : BitVec 8} {op : Opcode} (h : opcodeOf b = some op) : opcodeNum op = b := by
  apply BitVec.eq_of_toNat_eq
  unfold opcodeOf at h
  split at h
  all_goals first | (next e => cases h; exact e.symm) | cases h

/-- The numbers of the table of R101. -/
theorem opcodeOf_eq_none (b : BitVec 8) : opcodeOf b = none ↔
    b.toNat ∉ [0x00, 0x01, 0x02, 0x03, 0x04, 0x05, 0x06, 0x10, 0x11, 0x20] := by
  unfold opcodeOf
  split <;> simp_all

theorem opcodeOf_of_num {hdr : Word} {op : Opcode} (h : hdr.toNat / 2 ^ 24 = (opcodeNum op).toNat) :
    opcodeOf (hdr.extractLsb' 24 8) = some op := by
  have field : (hdr.extractLsb' 24 8 : BitVec 8) = opcodeNum op :=
    BitVec.eq_of_toNat_eq ((opcodeField_toNat hdr).trans h)
  rw [field]
  cases op <;> rfl

theorem header_field (op : Opcode) (arg : BitVec 24) {i n : Nat} (h : i + n ≤ 24) :
    (header op arg).extractLsb' i n = arg.extractLsb' i n := by
  apply BitVec.eq_of_getLsbD_eq
  intro j hj
  have inArg : i + j < 24 := by omega
  rw [BitVec.getLsbD_extractLsb', BitVec.getLsbD_extractLsb', header, BitVec.getLsbD_append]
  simp [inArg]

/-- A word is the header of its own fields. -/
theorem header_fields {hdr : Word} {op : Opcode} (h : opcodeOf (hdr.extractLsb' 24 8) = some op) :
    header op (hdr.extractLsb' 0 24) = hdr := by
  rw [header, opcodeOf_eq_some h]
  exact BitVec.extractLsb'_append_extractLsb'_eq_extractLsb' rfl |>.trans BitVec.extractLsb'_eq_self

/-! ### Decoding opcode by opcode (R102 to R104) -/

/-- What a packet whose opcode is `op` decodes to. -/
def decodeAs (p : Packet) : Opcode → Decoded
  | .nop => decodeH p (.nop (p.hdr.extractLsb' 0 24))
  | .sreset => decodeH p (.sreset (p.hdr.extractLsb' 0 24))
  | .cfgwr => decodeRW p (.cfgwr (p.hdr.extractLsb' 12 12) (p.hdr.extractLsb' 0 12))
  | .regrd => decodeH p (.regrd (p.hdr.extractLsb' 12 12) (p.hdr.extractLsb' 0 12))
  | .start => decodeH p (.start (p.hdr.extractLsb' 0 24))
  | .stop => decodeH p (.stop (p.hdr.extractLsb' 0 24))
  | .fence => decodeH p (.fence (p.hdr.extractLsb' 0 24))
  | .block => .instr (.block (p.hdr.extractLsb' 16 8) (p.hdr.extractLsb' 0 16) p.body)
  | .eos => decodeH p (.eos (p.hdr.extractLsb' 0 24))
  | .frpop => decodeH p (.frpop (p.hdr.extractLsb' 0 24))

theorem decodePacket_of_opcode {p : Packet} {op : Opcode} (h : opcodeOf (p.hdr.extractLsb' 24 8) = some op) :
    decodePacket p = decodeAs p op := by
  unfold decodePacket
  rw [h]
  cases op <;> rfl

theorem decodePacket_of_no_opcode {p : Packet} (h : opcodeOf (p.hdr.extractLsb' 24 8) = none) :
    decodePacket p = .reserved := by
  unfold decodePacket
  rw [h]

theorem decodeH_eq_instr {p : Packet} {i j : Instr} : decodeH p i = .instr j ↔ p.body = [] ∧ j = i := by
  unfold decodeH
  split <;> simp_all [eq_comm]

theorem decodeRW_eq_instr {p : Packet} {i : Word → Instr} {j : Instr} :
    decodeRW p i = .instr j ↔ ∃ val, p.body = [val] ∧ j = i val := by
  unfold decodeRW
  split
  · next val e => simp [e, eq_comm]
  · next e => exact ⟨nofun, fun ⟨val, h, _⟩ => absurd h (e val)⟩

/-- Only the table's own opcodes are not reserved (R111). -/
theorem decodeAs_ne_reserved (p : Packet) (op : Opcode) : decodeAs p op ≠ .reserved := by
  have hH : ∀ i, decodeH p i ≠ .reserved := fun i => by unfold decodeH; split <;> nofun
  cases op with
  | cfgwr => simp only [decodeAs, decodeRW]; split <;> nofun
  | block => nofun
  | _ => exact hH _

/-- A packet is reserved exactly where its opcode is none of the table (R111). -/
theorem decodePacket_reserved_iff (p : Packet) :
    decodePacket p = .reserved ↔ opcodeOf (p.hdr.extractLsb' 24 8) = none := by
  cases h : opcodeOf (p.hdr.extractLsb' 24 8) with
  | none => simp [decodePacket_of_no_opcode h]
  | some op => simp [decodePacket_of_opcode h, decodeAs_ne_reserved p op]

/-! ### Encode, then decode -/

/-- A packet with the header of an opcode decodes as that opcode. -/
theorem decode_packet_header (op : Opcode) (arg : BitVec 24) (body : List Word) {i : Instr}
    (h : decodeAs ⟨header op arg, body⟩ op = .instr i) : decode (.packet ⟨header op arg, body⟩) = some i := by
  simp only [decode, decodePacket_of_opcode (p := ⟨header op arg, body⟩) (header_opcode op arg), h]

theorem unpackSample_packSample (x : Sample) : unpackSample (packSample x) = x := by
  unfold unpackSample packSample
  rw [BitVec.extractLsb'_append_eq_right, BitVec.extractLsb'_append_eq_left]

/-- Format H (R102). -/
theorem decode_formatH {op : Opcode} {i : BitVec 24 → Instr} (h : ∀ p, decodeAs p op =
    decodeH p (i (p.hdr.extractLsb' 0 24))) (arg : BitVec 24) :
    decode (.packet ⟨header op arg, []⟩) = some (i arg) :=
  decode_packet_header op arg [] (by rw [h, header_arg]; rfl)

/-- Settles O1: a host command by its format, a stage operation by its position in the chain. -/
theorem decodeOfEncodeIsTheOperation : Obligations.DecodeOfEncodeIsTheOperation := by
  have high : ∀ (op : Opcode) (arg idx : BitVec 12), (header op (arg ++ idx)).extractLsb' 12 12 = arg :=
    fun op arg idx => (header_field op _ (by decide)).trans BitVec.extractLsb'_append_eq_left
  have low : ∀ (op : Opcode) (arg idx : BitVec 12), (header op (arg ++ idx)).extractLsb' 0 12 = idx :=
    fun op arg idx => (header_field op _ (by decide)).trans BitVec.extractLsb'_append_eq_right
  intro i
  cases i with
  | nop arg | sreset arg | start arg | stop arg | fence arg | eos arg | frpop arg =>
    exact decode_formatH (fun _ => rfl) arg
  | cfgwr arg idx val =>
    exact decode_packet_header _ _ _ (by simp only [decodeAs, high, low]; rfl)
  | regrd arg idx =>
    exact decode_packet_header _ _ _ (by simp only [decodeAs, high, low]; rfl)
  | block chid len body =>
    have chidField : (header .block (chid ++ len)).extractLsb' 16 8 = chid :=
      (header_field .block _ (by decide)).trans BitVec.extractLsb'_append_eq_left
    have lenField : (header .block (chid ++ len)).extractLsb' 0 16 = len :=
      (header_field .block _ (by decide)).trans BitVec.extractLsb'_append_eq_right
    exact decode_packet_header _ _ _ (by simp only [decodeAs, chidField, lenField])
  | condSample z | demNcoh c z | demCoh c z | demChal c z =>
    simp only [encode, decode, decodeElement, demInstr, unpackSample_packSample]
  | synStep c v e | nrziBit c v r | hdlcBit c v d => rfl
  | valFrame f => simp only [encode, decode, decodeElement, and_self, if_true]

/-! ### Decode, then encode -/

/-- Settles O2: the header is put together again from its fields, format by format. -/
theorem encodeOfDecodeIsThePacket : Obligations.EncodeOfDecodeIsThePacket := by
  rintro ⟨hdr, body⟩ i h
  have high12 : hdr.extractLsb' 12 12 ++ hdr.extractLsb' 0 12 = hdr.extractLsb' 0 24 :=
    BitVec.extractLsb'_append_extractLsb'_eq_extractLsb' rfl
  have high8 : hdr.extractLsb' 16 8 ++ hdr.extractLsb' 0 16 = hdr.extractLsb' 0 24 :=
    BitVec.extractLsb'_append_extractLsb'_eq_extractLsb' rfl
  cases hop : opcodeOf (hdr.extractLsb' 24 8) with
  | none =>
    rw [decodePacket_of_no_opcode (p := ⟨hdr, body⟩) hop] at h
    cases h
  | some op =>
    have hdrEq := header_fields hop
    rw [decodePacket_of_opcode (p := ⟨hdr, body⟩) hop] at h
    cases op with
    | cfgwr =>
      obtain ⟨val, rfl, rfl⟩ := decodeRW_eq_instr.1 h
      simp only [encode, high12, hdrEq]
    | regrd =>
      obtain ⟨rfl, rfl⟩ := decodeH_eq_instr.1 h
      simp only [encode, high12, hdrEq]
    | block =>
      cases h
      simp only [encode, high8, hdrEq]
    | _ =>
      obtain ⟨rfl, rfl⟩ := decodeH_eq_instr.1 h
      simp only [encode, hdrEq]

/-- Settles O3: the opcode field as a number, and BLOCK has no rejection (R112). -/
theorem reservedExactlyOutsideTheTable : Obligations.ReservedExactlyOutsideTheTable := by
  refine ⟨fun p => ?_, fun p h => ⟨_, decodePacket_of_opcode (op := .block) (opcodeOf_of_num h)⟩⟩
  rw [decodePacket_reserved_iff, opcodeOf_eq_none, opcodeField_toNat]

/-- Settles O4: each packet decodes by computation. -/
theorem specPacketsDecode : Obligations.SpecPacketsDecode :=
  ⟨rfl, rfl, rfl, rfl, rfl, rfl, rfl, rfl⟩

/-! ### Rejected packets (R111, R112) -/

theorem cpStep_reserved {s : State} {p : Packet} {ps : List Packet} (hs : shutdownEnabled s = false)
    (hc : s.cmd = p :: ps) (hd : decodePacket p = .reserved) :
    cpStep s = .next (cmdErrWith 0x10#8 { s with cmd := ps }) := by
  simp only [cpStep, hs, hc, packetReady, execPacket, hd, Bool.false_eq_true, if_false, if_true]
  rfl

theorem cpStep_badLength {s : State} {p : Packet} {ps : List Packet} (hs : shutdownEnabled s = false)
    (hc : s.cmd = p :: ps) (hd : decodePacket p = .badLength) :
    cpStep s = .next (cmdErrWith 0x11#8 { s with cmd := ps }) := by
  simp only [cpStep, hs, hc, packetReady, execPacket, hd, Bool.false_eq_true, if_false, if_true]
  rfl

/-- Every opcode of format H (R102) refuses a packet of more than the header. -/
theorem decodePacket_longH {p : Packet}
    (h : p.hdr.toNat / 2 ^ 24 ∈ [0x00, 0x01, 0x03, 0x04, 0x05, 0x06, 0x11, 0x20]) (hb : p.body ≠ []) :
    decodePacket p = .badLength := by
  have long : ∀ i, decodeH p i = .badLength := by
    intro i
    unfold decodeH
    split
    · contradiction
    · rfl
  cases hop : opcodeOf (p.hdr.extractLsb' 24 8) with
  | none =>
    rw [opcodeOf_eq_none, opcodeField_toNat] at hop
    simp only [List.mem_cons, List.not_mem_nil, or_false] at h hop
    omega
  | some op =>
    have num := congrArg BitVec.toNat (opcodeOf_eq_some hop)
    rw [opcodeField_toNat] at num
    rw [decodePacket_of_opcode hop]
    cases op with
    | cfgwr | block => rw [← num] at h; exact absurd h (by decide)
    | _ => exact long _

theorem decodePacket_cfgwr_length {p : Packet} (h : p.hdr.toNat / 2 ^ 24 = 0x02) (hb : p.body.length ≠ 1) :
    decodePacket p = .badLength := by
  rw [decodePacket_of_opcode (op := .cfgwr) (opcodeOf_of_num h)]
  simp only [decodeAs, decodeRW]
  split
  · next e => exact absurd (by rw [e]; rfl) hb
  · rfl

/-- Settles O7: the opcode's range decides between the two rejections and BLOCK. -/
theorem stepRejectsBadPackets : Obligations.StepRejectsBadPackets := by
  intro s p ps ms hscript hcmd hs op after
  have turn := step_of_cp_turn hscript
  refine ⟨fun h => ?_, fun ⟨h, hb⟩ => ?_, fun ⟨h, hb⟩ => ?_, fun h => ?_⟩
  · refine turn.trans (cpStep_reserved hs hcmd ?_)
    rw [decodePacket_reserved_iff, opcodeOf_eq_none, opcodeField_toNat]
    simp only [List.mem_cons, List.not_mem_nil, or_false]
    omega
  · exact turn.trans (cpStep_badLength hs hcmd (decodePacket_longH h hb))
  · exact turn.trans (cpStep_badLength hs hcmd (decodePacket_cfgwr_length h hb))
  · exact turn.trans (cpStep_instr (s := { s with script := ms }) hs hcmd
      (decodePacket_of_opcode (op := .block) (opcodeOf_of_num h)))

end Sys2Proof.Machine
end

section
/-!
PROOFS. The Link Deframer (43_deframer.md): NRZI.BIT undoes a transmitter's encoding (R191), HDLC.BIT class by
class (R193 to R201), and a stuffed, delimited frame comes out as it went in.
-/

namespace Sys2Proof.Machine

open Sys2Proof

/-! ### Operations one after another -/

/-- A list of operations that each answer a next state runs as a fold. -/
theorem execAll_map {α : Type} {i : α → Instr} {f : α → State → State}
    (h : ∀ a s, exec (i a) s = .next (f a s)) (l : List α) (s : State) :
    execAll (l.map i) s = .next (l.foldl (fun t a => f a t) s) := by
  induction l generalizing s with
  | nil => rfl
  | cons a l ih =>
    rw [List.map_cons, execAll, h]
    exact ih (f a s)

theorem setPipe_self (s : State) (c : Chan) (v : Variant) : s.setPipe c v (s.pipe.get c v) = s := by
  simp only [State.setPipe, PerPipe.set_get]

theorem setPipe_setPipe (s : State) (c : Chan) (v : Variant) (p q : Pipe) :
    (s.setPipe c v p).setPipe c v q = s.setPipe c v q := by
  simp only [State.setPipe, PerPipe.set_set]

/-! ### NRZI.BIT (R191) -/

theorem exec_nrziBit (c : Chan) (v : Variant) (r : Bool) (s : State) :
    exec (.nrziBit c v r) s = .next (nrziBit c v r s) := rfl

/-- NRZI.BIT takes back what the transmitter did to one bit. -/
theorem nrziDecode_encoded (cfg : Cfg) (level d : Bool) :
    nrziDecode cfg level (level ^^ d ^^ cfg.nrziInv.getLsbD 0) = d := by
  unfold nrziDecode
  cases level <;> cases d <;> cases cfg.nrziInv.getLsbD 0 <;> rfl

/-- A pipeline after NRZI.BIT has left the decoded bits `ds`, the last raw bit being `level`. -/
def nrziTaken (level : Bool) (ds : List Bool) (p : Pipe) : Pipe :=
  { p with dfr := { p.dfr with prevRaw := level }, dec := p.dec ++ ds }

theorem nrziTaken_nil (p : Pipe) : nrziTaken p.dfr.prevRaw [] p = p := by
  simp [nrziTaken]

theorem nrziTaken_nrziTaken (l l' : Bool) (ds ds' : List Bool) (p : Pipe) :
    nrziTaken l' ds' (nrziTaken l ds p) = nrziTaken l' (ds ++ ds') p := by
  simp [nrziTaken]

theorem nrziBit_eq (c : Chan) (v : Variant) (r : Bool) (s : State) : nrziBit c v r s =
    s.setPipe c v (nrziTaken r [nrziDecode s.cfg (s.pipe.get c v).dfr.prevRaw r] (s.pipe.get c v)) := rfl

/-- NRZI.BIT over the encoding of a list of bits, from the level before. -/
theorem nrziBit_nrziEncode (c : Chan) (v : Variant) (ds : List Bool) (s : State) :
    ∃ level, (nrziEncode (s.cfg.nrziInv.getLsbD 0) (s.pipe.get c v).dfr.prevRaw ds).foldl
        (fun t r => nrziBit c v r t) s = s.setPipe c v (nrziTaken level ds (s.pipe.get c v)) := by
  induction ds generalizing s with
  | nil => exact ⟨(s.pipe.get c v).dfr.prevRaw, by rw [nrziTaken_nil, setPipe_self]; rfl⟩
  | cons d ds ih =>
    have first := nrziBit_eq c v ((s.pipe.get c v).dfr.prevRaw ^^ d ^^ s.cfg.nrziInv.getLsbD 0) s
    rw [nrziDecode_encoded] at first
    obtain ⟨level, run⟩ := ih (nrziBit c v
      ((s.pipe.get c v).dfr.prevRaw ^^ d ^^ s.cfg.nrziInv.getLsbD 0) s)
    refine ⟨level, Eq.trans ?_ (run.trans ?_)⟩
    · rw [first]
      simp only [setPipe_cfg, setPipe_pipe, PerPipe.get_set_same]
      rw [← first]
      rfl
    · rw [first, setPipe_setPipe, setPipe_pipe, PerPipe.get_set_same, nrziTaken_nrziTaken]
      rfl

/-- Settles O41: one bit by the definition, a whole encoding by induction on its bits. -/
theorem nrziUndoesItsEncoding : Obligations.NrziUndoesItsEncoding := by
  refine ⟨exec_nrziBit, fun c v ds s => ?_⟩
  obtain ⟨level, run⟩ := nrziBit_nrziEncode c v ds s
  have after : (s.setPipe c v (nrziTaken level ds (s.pipe.get c v))).pipe.get c v =
      nrziTaken level ds (s.pipe.get c v) := PerPipe.get_set_same _ _ _ _
  exact ⟨_, (execAll_map (exec_nrziBit c v) _ s).trans (congrArg _ run), by rw [after]; rfl,
    by rw [after]; rfl⟩

/-! ### HDLC.BIT class by class (R193 to R201) -/

theorem exec_hdlcBit (c : Chan) (v : Variant) (d : Bool) (s : State) :
    exec (.hdlcBit c v d) s = .next (hdlcBit c v d s) := rfl

/-- What `d'` has in common with `d` after a class's own effect: the raw level and the run counter. -/
def SameRunCounter (d d' : DfrState) : Prop :=
  d'.prevRaw = d.prevRaw ∧ d'.runBit = d.runBit ∧ d'.runLen = d.runLen

theorem append_sameRunCounter (b : Bool) (d : DfrState) : SameRunCounter d (append b d).1 := by
  unfold append
  split
  · exact ⟨rfl, rfl, rfl⟩
  · split <;> exact ⟨rfl, rfl, rfl⟩

theorem abortFrame_sameRunCounter (d : DfrState) : SameRunCounter d (abortFrame d).1 := by
  unfold abortFrame
  split <;> exact ⟨rfl, rfl, rfl⟩

/-- No class touches the run counter but by R194. -/
theorem hdlcTrans_sameRunCounter (cfg : Cfg) (b : Bool) (d : DfrState) :
    SameRunCounter (runUpdate b d) (hdlcTrans cfg b d).1 := by
  unfold hdlcTrans
  simp only []
  split
  · exact append_sameRunCounter _ _
  · exact ⟨rfl, rfl, rfl⟩
  · exact abortFrame_sameRunCounter _
  · exact append_sameRunCounter _ _
  · exact ⟨rfl, rfl, rfl⟩
  · exact ⟨rfl, rfl, rfl⟩
  · exact ⟨rfl, rfl, rfl⟩

/-- The run counter leaves the frame. -/
theorem runUpdate_frame (b : Bool) (d : DfrState) : (runUpdate b d).fstate = d.fstate ∧
    (runUpdate b d).flen = d.flen ∧ (runUpdate b d).fbuf = d.fbuf ∧ (runUpdate b d).prevRaw = d.prevRaw := by
  rw [runUpdate_eq]
  exact ⟨rfl, rfl, rfl, rfl⟩

/-- The run counter after a bit, in numbers (R194). -/
theorem runUpdate_runLen (b : Bool) (d : DfrState) : (runUpdate b d).runLen.toNat =
    if b = d.runBit ∧ 0 < d.runLen.toNat then min (d.runLen.toNat + 1) 7 else 1 := by
  rw [runUpdate_eq]
  simp only []
  split
  · rw [BitVec.toNat_ofNat]
    omega
  · rfl

section
variable (cfg : Cfg) (b : Bool) {d : DfrState}

/-- DATA in FILL with room (R195, R198, R201). -/
theorem hdlcTrans_stores (fill : d.fstate = .fill) (few : onesRun d ≤ 4) (room : d.flen.toNat < 1030) :
    hdlcTrans cfg b d =
      ({ runUpdate b d with fbuf := fbufSet d.fbuf d.flen.toNat b, flen := d.flen + 1#11 }, .quiet) := by
  obtain ⟨hst, hlen, hbuf, -⟩ := runUpdate_frame b d
  rw [hdlcTrans_data cfg b d few, append_room b _ (hst.trans fill) (hlen ▸ room), hlen, hbuf]

/-- DATA in FILL with a full buffer (R201). -/
theorem hdlcTrans_overflows (fill : d.fstate = .fill) (few : onesRun d ≤ 4) (full : 1030 ≤ d.flen.toNat) :
    hdlcTrans cfg b d = (toSearch (runUpdate b d), .malformed) := by
  obtain ⟨hst, hlen, -, -⟩ := runUpdate_frame b d
  rw [hdlcTrans_data cfg b d few, append_full b _ (hst.trans fill) (hlen ▸ full)]

/-- ABORT in FILL (R197). -/
theorem hdlcTrans_aborts (fill : d.fstate = .fill) (many : 6 ≤ onesRun d) :
    hdlcTrans cfg true d = (toSearch (runUpdate true d), .aborted) := by
  obtain ⟨hst, -, -, -⟩ := runUpdate_frame true d
  rw [hdlcTrans_abort cfg d many, abortFrame, hst.trans fill]

/-- SIX, STUFF, IDLE0, and every class but FLAG in SEARCH (R195 to R198, R200). -/
theorem hdlcTrans_ignores (h : onesRun d = 5 ∨ (b = false ∧ onesRun d = 7) ∨
      (d.fstate = .search ∧ ¬(b = false ∧ onesRun d = 6))) :
    hdlcTrans cfg b d = (runUpdate b d, .quiet) := by
  obtain ⟨hst, -, -, -⟩ := runUpdate_frame b d
  rcases h with five | ⟨rfl, seven⟩ | ⟨search, noFlag⟩
  · exact hdlcTrans_five cfg b d five
  · exact hdlcTrans_idle cfg d (Nat.le_of_eq seven.symm)
  · have notSix : b = false → onesRun d ≠ 6 := fun hb h6 => noFlag ⟨hb, h6⟩
    have search' := hst.trans search
    by_cases few : onesRun d ≤ 4
    · rw [hdlcTrans_data cfg b d few, append_search b _ search']
    by_cases five : onesRun d = 5
    · exact hdlcTrans_five cfg b d five
    have many : 6 ≤ onesRun d := by omega
    cases b with
    | true => rw [hdlcTrans_abort cfg d many, abortFrame, search']
    | false =>
      have := notSix rfl
      exact hdlcTrans_idle cfg d (by omega)

end

/-- What HDLC.BIT leaves of its pipeline. -/
theorem hdlcBit_pipe (c : Chan) (v : Variant) (d : Bool) (s : State) :
    (hdlcBit c v d s).pipe.get c v = { s.pipe.get c v with
      dfr := (hdlcTrans s.cfg d (s.pipe.get c v).dfr).1
      cnt := countDfr (hdlcTrans s.cfg d (s.pipe.get c v).dfr).2 (s.pipe.get c v).cnt
      cand := (s.pipe.get c v).cand ++ framesOf c v (s.pipe.get c v).sampCnt
        (hdlcTrans s.cfg d (s.pipe.get c v).dfr).2 } :=
  PerPipe.get_set_same _ _ _ _

/-- Settles O42: the run counter by R194, then one lemma per class. -/
theorem hdlcBitClassByClass : Obligations.HdlcBitClassByClass := by
  intro c v d s
  refine ⟨_, exec_hdlcBit c v d s, ?_⟩
  rw [hdlcBit_pipe]
  intro a b k k' p cand cand'
  obtain ⟨hprev, hbit, hlen⟩ := hdlcTrans_sameRunCounter s.cfg d a
  refine ⟨rfl, hprev.trans (runUpdate_frame d a).2.2.2, ?_, ?_, ?_, ?_, ?_, ?_⟩
  · exact hbit.trans (by rw [runUpdate_eq])
  · exact (congrArg BitVec.toNat hlen).trans (runUpdate_runLen d a)
  · intro fill few room
    have trans : hdlcTrans s.cfg d (s.pipe.get c v).dfr = _ := hdlcTrans_stores s.cfg d fill few room
    simp only [b, k', cand', trans]
    refine ⟨(runUpdate_frame d a).1.trans fill, ?_, ?_, ?_, rfl, List.append_nil _⟩
    · show (a.flen + 1#11).toNat = _
      rw [BitVec.toNat_add, BitVec.toNat_ofNat]
      omega
    · rw [fbufSet_getLsbD _ room, if_pos rfl]
    · intro i hi
      rw [fbufSet_getLsbD _ room, if_neg hi]
  · intro fill few full
    have trans : hdlcTrans s.cfg d (s.pipe.get c v).dfr = _ := hdlcTrans_overflows s.cfg d fill few full
    simp only [b, k', cand', trans]
    exact ⟨rfl, rfl, (runUpdate_frame d a).2.2.1, rfl, List.append_nil _⟩
  · rintro fill rfl many
    have trans : hdlcTrans s.cfg true (s.pipe.get c v).dfr = _ := hdlcTrans_aborts s.cfg fill many
    simp only [b, k', cand', trans]
    exact ⟨rfl, rfl, (runUpdate_frame true a).2.2.1, rfl, List.append_nil _⟩
  · intro h
    obtain ⟨hst, hfl, hbuf, -⟩ := runUpdate_frame d a
    have trans : hdlcTrans s.cfg d (s.pipe.get c v).dfr = _ := hdlcTrans_ignores s.cfg d h
    simp only [b, k', cand', trans]
    exact ⟨hst, hfl, hbuf, rfl, List.append_nil _⟩

/-! ### FLAG (R199) -/

theorem runUpdate_false_of_ones {d : DfrState} (hb : d.runBit = true) :
    runUpdate false d = { d with runBit := false, runLen := 1#3 } := by
  rw [runUpdate_eq, if_neg (by simp [hb])]

theorem closeFrame_fill (cfg : Cfg) {d : DfrState} (h : d.flen.toNat - 6 = 0) : closeFrame cfg d = .quiet := by
  simp only [closeFrame, h, if_true]

theorem closeFrame_bad (cfg : Cfg) {d : DfrState} (h0 : d.flen.toNat - 6 ≠ 0)
    (h : lengthBad cfg (d.flen.toNat - 6) = true) : closeFrame cfg d = .malformed := by
  simp only [closeFrame, h0, h, if_true, if_false]

theorem closeFrame_good (cfg : Cfg) {d : DfrState} (h : lengthBad cfg (d.flen.toNat - 6) = false) :
    closeFrame cfg d = .emit (fbufList d.fbuf (d.flen.toNat - 6)) := by
  have h0 : d.flen.toNat - 6 ≠ 0 := by
    have := ((lengthBad_iff cfg _).1 h).1
    omega
  simp only [closeFrame, h0, h, Bool.false_eq_true, if_false]

/-- FLAG's output is the closing rule's in FILL, nothing in SEARCH. -/
theorem hdlcTrans_flag_eq (cfg : Cfg) {d : DfrState} (hb : d.runBit = true) (hl : d.runLen = 6#3) :
    hdlcTrans cfg false d = ({ d with fstate := .fill, flen := 0#11, runBit := false, runLen := 1#3 },
      if d.fstate = .fill then closeFrame cfg d else .quiet) := by
  have six : onesRun d = 6 := by simp [onesRun, hb, hl]
  rw [hdlcTrans_flag cfg d six, runUpdate_false_of_ones hb, flagSeen]
  cases d.fstate <;> rfl

/-- Settles O43: FLAG in SEARCH, then the closing rule's three outcomes. -/
theorem flagAppliesTheLengthRule : Obligations.FlagAppliesTheLengthRule := by
  intro c v s hb hl
  refine ⟨_, exec_hdlcBit c v false s, ?_⟩
  rw [hdlcBit_pipe, hdlcTrans_flag_eq s.cfg hb hl]
  intro a k k' cand cand' n good
  have rule : lengthBad s.cfg n = false ↔ good := lengthBad_iff s.cfg n
  refine ⟨?_, ?_, ?_, ?_⟩
  · simp only [hdlcBit, hdlcTrans_flag_eq s.cfg hb hl, k', cand', a]
  · intro h
    have quiet : (if a.fstate = .fill then closeFrame s.cfg a else .quiet) = .quiet := by
      rcases h with search | empty
      · rw [search]; rfl
      · rw [closeFrame_fill s.cfg empty, ite_self]
    simp only [k', cand', a, quiet]
    exact ⟨rfl, List.append_nil _⟩
  · intro fill some bad
    have isBad : lengthBad s.cfg n = true := by simpa using mt rule.1 bad
    simp only [k', cand', a, fill, if_true, closeFrame_bad s.cfg some isBad]
    exact ⟨rfl, List.append_nil _⟩
  · intro fill ok
    simp only [k', cand', a, fill, if_true, closeFrame_good s.cfg (rule.2 ok)]
    exact ⟨rfl, rfl⟩

/-! ### A stuffed frame in the deframer (95_test_vectors.md, `stuff`) -/

/-- HDLC.BIT over the bits takes the deframer from `d` to `d'` and gives neither a count nor a frame. -/
inductive QuietRun (cfg : Cfg) : List Bool → DfrState → DfrState → Prop where
  | nil (d : DfrState) : QuietRun cfg [] d d
  | cons {b : Bool} {bs : List Bool} {d d' d'' : DfrState} (first : hdlcTrans cfg b d = (d', .quiet))
      (rest : QuietRun cfg bs d' d'') : QuietRun cfg (b :: bs) d d''

theorem QuietRun.append {cfg : Cfg} {bs bs' : List Bool} {d d' d'' : DfrState} (h : QuietRun cfg bs d d')
    (h' : QuietRun cfg bs' d' d'') : QuietRun cfg (bs ++ bs') d d'' := by
  induction h with
  | nil => exact h'
  | cons first _ ih => exact .cons first (ih h')

/-- In the machine such bits change the deframer's state and nothing else. -/
theorem QuietRun.hdlcBits {bs : List Bool} (c : Chan) (v : Variant) {s : State} {d' : DfrState}
    (h : QuietRun s.cfg bs (s.pipe.get c v).dfr d') :
    bs.foldl (fun t b => hdlcBit c v b t) s = s.setPipe c v { s.pipe.get c v with dfr := d' } := by
  generalize hd : (s.pipe.get c v).dfr = d at h
  generalize hcfg : s.cfg = cfg at h
  induction h generalizing s with
  | nil d =>
    subst hd
    exact (setPipe_self s c v).symm
  | @cons b bs d d₁ d₂ first rest ih =>
    subst hd hcfg
    have one : hdlcBit c v b s = s.setPipe c v { s.pipe.get c v with dfr := d₁ } := by
      simp only [hdlcBit, first, countDfr, framesOf, List.append_nil]
    have tail := ih (s := s.setPipe c v { s.pipe.get c v with dfr := d₁ })
      (by simp only [setPipe_pipe, PerPipe.get_set_same]) rfl
    rw [List.foldl_cons, one, tail, setPipe_setPipe, setPipe_pipe, PerPipe.get_set_same]

/-- A frame is in progress: the bits `l` are stored, and the last `k` decoded bits are 1s. -/
structure Storing (k : Nat) (l : List Bool) (d : DfrState) : Prop where
  fill : d.fstate = .fill
  len : d.flen.toNat = l.length
  bits : fbufList d.fbuf l.length = l
  ones : onesRun d = k

theorem onesRun_runUpdate_true (d : DfrState) : onesRun (runUpdate true d) = min (onesRun d + 1) 7 := by
  have len := runUpdate_runLen true d
  have bit : (runUpdate true d).runBit = true := by rw [runUpdate_eq]
  unfold onesRun
  rw [if_pos bit, len]
  cases d.runBit with
  | false => simp
  | true => simp; omega

theorem onesRun_runUpdate_false (d : DfrState) : onesRun (runUpdate false d) = 0 := by
  have bit : (runUpdate false d).runBit = false := by rw [runUpdate_eq]
  simp [onesRun, bit]

/-- A bit stored at the end of the list of stored bits. -/
theorem fbufList_fbufSet (f : BitVec 1030) {n : Nat} (h : n < 1030) (b : Bool) :
    fbufList (fbufSet f n b) (n + 1) = fbufList f n ++ [b] := by
  simp only [fbufList, List.range_succ, List.map_append, List.map_cons, List.map_nil,
    fbufSet_getLsbD f h, if_true]
  congr 1
  refine List.map_congr_left fun i hi => ?_
  rw [fbufSet_getLsbD f h, if_neg (Nat.ne_of_lt (List.mem_range.1 hi))]

/-- The run of 1s after a bit, as long as it is below seven. -/
def nextOnes (k : Nat) (b : Bool) : Nat := if b then k + 1 else 0

theorem Storing.ones_next {k : Nat} {l : List Bool} {d : DfrState} (h : Storing k l d) (hk : k ≤ 6) (b : Bool) :
    onesRun (runUpdate b d) = nextOnes k b := by
  cases b with
  | true => rw [onesRun_runUpdate_true, h.ones]; simp [nextOnes]; omega
  | false => exact onesRun_runUpdate_false d

/-- A data bit joins the stored bits. -/
theorem Storing.store {k : Nat} {l : List Bool} {d : DfrState} (h : Storing k l d) (cfg : Cfg) (b : Bool)
    (hk : k ≤ 4) (room : l.length < 1030) :
    ∃ d', hdlcTrans cfg b d = (d', .quiet) ∧ Storing (nextOnes k b) (l ++ [b]) d' := by
  have room' : d.flen.toNat < 1030 := h.len ▸ room
  refine ⟨_, hdlcTrans_stores cfg b h.fill (h.ones ▸ hk) room', ?_, ?_, ?_, ?_⟩
  · exact (runUpdate_frame b d).1.trans h.fill
  · show (d.flen + 1#11).toNat = _
    rw [BitVec.toNat_add, BitVec.toNat_ofNat, h.len, List.length_append]
    simp
    omega
  · rw [List.length_append, h.len]
    exact (fbufList_fbufSet d.fbuf room b).trans (by rw [h.bits])
  · exact h.ones_next (by omega) b

/-- The bit after five 1s is not stored. -/
theorem Storing.skip {l : List Bool} {d : DfrState} (h : Storing 5 l d) (cfg : Cfg) (b : Bool) :
    ∃ d', hdlcTrans cfg b d = (d', .quiet) ∧ Storing (nextOnes 5 b) l d' := by
  obtain ⟨hst, hlen, hbuf, -⟩ := runUpdate_frame b d
  refine ⟨_, hdlcTrans_five cfg b d h.ones, hst.trans h.fill, ?_, ?_, h.ones_next (by decide) b⟩
  · rw [hlen, h.len]
  · rw [hbuf, h.bits]

/-- Stuffed bits are stored as they were before the stuffing. -/
theorem Storing.stuffed (cfg : Cfg) (bits : List Bool) {k : Nat} {l : List Bool} {d : DfrState}
    (h : Storing k l d) (hk : k ≤ 4) (room : l.length + bits.length ≤ 1024) :
    ∃ k' d', QuietRun cfg (stuffFrom k bits) d d' ∧ Storing k' (l ++ bits) d' ∧ k' ≤ 4 := by
  induction bits generalizing k l d with
  | nil => exact ⟨k, d, .nil d, by rwa [List.append_nil], hk⟩
  | cons b bits ih =>
    rw [List.length_cons] at room
    obtain ⟨d₁, first, stored⟩ := h.store cfg b hk (by omega)
    have room₁ : (l ++ [b]).length + bits.length ≤ 1024 := by
      rw [List.length_append, List.length_singleton]
      omega
    rw [List.append_cons]
    cases b with
    | false =>
      obtain ⟨k', d', run, stored'⟩ := ih stored (Nat.zero_le 4) room₁
      exact ⟨k', d', .cons first run, stored'⟩
    | true =>
      by_cases five : k = 4
      · subst five
        obtain ⟨d₂, second, skipped⟩ := stored.skip cfg false
        obtain ⟨k', d', run, stored'⟩ := ih skipped (Nat.zero_le 4) room₁
        exact ⟨k', d', .cons first (.cons second run), stored'⟩
      · obtain ⟨k', d', run, stored'⟩ := ih stored (show k + 1 ≤ 4 by omega) room₁
        refine ⟨k', d', ?_, stored'⟩
        rw [stuffFrom, if_neg five]
        exact .cons first run

/-- The delimiter up to its last bit: its first six bits are stored, its sixth 1 is not. -/
theorem Storing.delimited (cfg : Cfg) {k : Nat} {l : List Bool} {d : DfrState} (h : Storing k l d)
    (hk : k ≤ 4) (room : l.length ≤ 1024) :
    ∃ d', QuietRun cfg [false, true, true, true, true, true, true] d d' ∧
      Storing 6 (l ++ [false, true, true, true, true, true]) d' := by
  obtain ⟨d₀, e₀, s₀⟩ := h.store cfg false hk (by omega)
  obtain ⟨d₁, e₁, s₁⟩ := s₀.store cfg true (by simp [nextOnes]) (by simp; omega)
  obtain ⟨d₂, e₂, s₂⟩ := s₁.store cfg true (by simp [nextOnes]) (by simp; omega)
  obtain ⟨d₃, e₃, s₃⟩ := s₂.store cfg true (by simp [nextOnes]) (by simp; omega)
  obtain ⟨d₄, e₄, s₄⟩ := s₃.store cfg true (by simp [nextOnes]) (by simp; omega)
  obtain ⟨d₅, e₅, s₅⟩ := s₄.store cfg true (by simp [nextOnes]) (by simp; omega)
  obtain ⟨d₆, e₆, s₆⟩ := s₅.skip cfg true
  refine ⟨d₆, .cons e₀ (.cons e₁ (.cons e₂ (.cons e₃ (.cons e₄ (.cons e₅ (.cons e₆ (.nil _))))))), ?_⟩
  simpa [nextOnes] using s₆

/-- The last bit of the delimiter: the stored bits but the delimiter's six are a frame. -/
theorem Storing.closed {cfg : Cfg} {bits : List Bool} {d : DfrState}
    (h : Storing 6 (bits ++ [false, true, true, true, true, true]) d)
    (legal : lengthBad cfg bits.length = false) :
    ∃ d', hdlcTrans cfg false d = (d', .emit bits) ∧ d'.fstate = .fill ∧ d'.flen = 0#11 ∧
      d'.runBit = false := by
  have len : d.flen.toNat - 6 = bits.length := by rw [h.len, List.length_append]; rfl
  have stored : fbufList d.fbuf bits.length = bits := by
    have e := congrArg (List.take bits.length) h.bits
    rw [List.length_append, List.take_left, fbufList, ← List.map_take, List.take_range] at e
    simpa [fbufList] using e
  obtain ⟨hst, hfl, hbuf, -⟩ := runUpdate_frame false d
  have good : closeFrame cfg (runUpdate false d) = .emit bits := by
    rw [closeFrame_good cfg (by rw [hfl, len]; exact legal), hfl, hbuf, len, stored]
  rw [hdlcTrans_flag cfg d h.ones, flagSeen, hst.trans h.fill]
  refine ⟨_, congrArg _ good, rfl, rfl, ?_⟩
  show (runUpdate false d).runBit = false
  rw [runUpdate_eq]

/-- Settles O44: the stuffed bits are stored without the stuffing, the delimiter's first bits after them, and the
delimiter's last bit cuts those off. -/
theorem deframerRecoversEveryStuffedFrame : Obligations.DeframerRecoversEveryStuffedFrame := by
  intro c v bits s fill empty noOnes low high whole six
  have start : Storing 0 [] (s.pipe.get c v).dfr :=
    ⟨fill, by rw [empty]; rfl, rfl, by simp [onesRun, noOnes]⟩
  obtain ⟨k, d₁, stuffed, stored, hk⟩ := start.stuffed s.cfg bits (Nat.zero_le 4) (by simpa using high)
  rw [List.nil_append] at stored
  obtain ⟨d₂, delimiting, delimited⟩ := stored.delimited s.cfg hk high
  have legal : lengthBad s.cfg bits.length = false :=
    (lengthBad_iff s.cfg bits.length).2 ⟨low, whole, by omega, six⟩
  obtain ⟨d₃, last, fill', empty', noOnes'⟩ := Storing.closed (cfg := s.cfg) delimited legal
  have split : stuffFrom 0 bits ++ delimiter =
      (stuffFrom 0 bits ++ [false, true, true, true, true, true, true]) ++ [false] := by
    rw [List.append_assoc]
    rfl
  have run : (stuffFrom 0 bits ++ delimiter).foldl (fun t b => hdlcBit c v b t) s =
      hdlcBit c v false (s.setPipe c v { s.pipe.get c v with dfr := d₂ }) := by
    rw [split, List.foldl_append, (stuffed.append delimiting).hdlcBits]
    rfl
  have closing : hdlcBit c v false (s.setPipe c v { s.pipe.get c v with dfr := d₂ }) =
      s.setPipe c v { s.pipe.get c v with
        dfr := d₃
        cnt := countDfr (.emit bits) (s.pipe.get c v).cnt
        cand := (s.pipe.get c v).cand ++ framesOf c v (s.pipe.get c v).sampCnt (.emit bits) } := by
    simp only [hdlcBit, setPipe_cfg, setPipe_pipe, PerPipe.get_set_same, last, setPipe_setPipe]
  have after := PerPipe.get_set_same s.pipe c v { s.pipe.get c v with
    dfr := d₃
    cnt := countDfr (.emit bits) (s.pipe.get c v).cnt
    cand := (s.pipe.get c v).cand ++ framesOf c v (s.pipe.get c v).sampCnt (.emit bits) }
  refine ⟨_, (execAll_map (exec_hdlcBit c v) _ s).trans (congrArg _ (run.trans closing)), ?_⟩
  rw [setPipe_pipe, after]
  exact ⟨rfl, fill', empty', noOnes'⟩

end Sys2Proof.Machine
end

section
/-!
PROOFS. The Frame Validator (44_validator.md): the outcomes of VAL.FRAME (R221, R224, R228), the record (R226), and
the CRC (R223, R225), by the linearity of its register.
-/

namespace Sys2Proof.Machine

open Sys2Proof

/-! ### VAL.FRAME (R221, R222, R224, R228) -/

theorem exec_valFrame (f : CandFrame) (s : State) : exec (.valFrame f) s = .next (valFrame f s) := rfl

theorem frameLenBad_eq_false {n : Nat} (h : ¬(n < 24 ∨ n % 8 ≠ 0 ∨ 1024 < n)) : frameLenBad n = false := by
  rw [Bool.eq_false_iff, Ne, frameLenBad_iff]
  exact h

/-- Settles O45: one lemma per outcome, the last two by the room in OF. -/
theorem valFrameCountsAndDelivers : Obligations.ValFrameCountsAndDelivers := by
  intro f s n p bad ok valid
  refine ⟨fun h => ?_, fun h hc => ?_, fun h hc room => ?_, fun h hc full => ?_⟩
  · exact congrArg _ (valFrame_bad f s ((frameLenBad_iff _).2 h))
  · exact congrArg _ (valFrame_crc f s (frameLenBad_eq_false h) hc)
  · have hasRoom : fullAt valid.depths.ofDepth valid.ofifo.length = false := by
      rw [Bool.eq_false_iff, Ne, fullAt_iff]
      rintro ⟨d, hd, le⟩
      exact Nat.not_le_of_lt (room d hd) le
    rw [exec_valFrame, valFrame_valid f s (frameLenBad_eq_false h) hc]
    exact congrArg _ (pushFrame_room _ valid hasRoom)
  · have isFull : fullAt valid.depths.ofDepth valid.ofifo.length = true := (fullAt_iff _ _).2 full
    rw [exec_valFrame, valFrame_valid f s (frameLenBad_eq_false h) hc]
    exact congrArg _ (pushFrame_full _ valid isFull)

/-! ### The record (R226) -/

/-- Bit `i` of word `j` of a packed list, the words after its last read as 0. -/
theorem packBits_getLsbD (l : List Bool) (j : Nat) {i : Nat} (hi : i < 32) :
    ((packBits l)[j]?.getD 0#32).getLsbD i = (l[32 * j + i]?).getD false := by
  by_cases hj : j < (l.length + 31) / 32
  · have word : (packBits l)[j]? = some (packWord l j) := by simp [packBits, hj]
    rw [word, Option.getD_some, packWord_getLsbD l j hi]
  · have none : (packBits l)[j]? = none := by
      rw [List.getElem?_eq_none_iff, packBits_length]
      omega
    have beyond : l[32 * j + i]? = Option.none := by
      rw [List.getElem?_eq_none_iff]
      omega
    rw [none, beyond]
    simp

/-- The bits of the payload. -/
theorem payloadOf_getElem? {bits : List Bool} {k : Nat} (h : k < bits.length - 16) :
    (payloadOf bits)[k]? = bits[k]? := by
  rw [payloadOf, List.getElem?_take_of_lt h]

theorem payloadOf_length (bits : List Bool) : (payloadOf bits).length = bits.length - 16 := by
  rw [payloadOf, List.length_take]
  omega

/-- The bits of the CRC field as the second word of the record holds them. -/
theorem fieldWord_getLsbD (bits : List Bool) {i : Nat} (hi : i < 16) :
    (BitVec.ofNat 16 (natOfBits (fieldOf bits))).getLsbD i = (bits[bits.length - 16 + i]?).getD false := by
  rw [BitVec.getLsbD_ofNat, natOfBits_testBit, fieldOf, List.getElem?_drop]
  simp [hi]

/-- The first word of a record: the tag, the variant, the channel. -/
def recordTag (c : Chan) (v : Variant) : Word :=
  0xA5#8 ++ 0#8 ++ BitVec.ofNat 8 (varNum v) ++ BitVec.ofNat 8 (chanNum c)

theorem recordTag_fields (c : Chan) (v : Variant) :
    (recordTag c v).extractLsb' 24 8 = 0xA5#8 ∧ (recordTag c v).extractLsb' 16 8 = 0#8 ∧
    ((recordTag c v).extractLsb' 8 8 : BitVec 8).toNat = varNum v ∧
    ((recordTag c v).extractLsb' 0 8 : BitVec 8).toNat = chanNum c := by
  cases c <;> cases v <;> decide

/-- Settles O46: the four words of the record's head by their fields, the payload's by the packing. -/
theorem frameRecordLayout : Obligations.FrameRecordLayout := by
  intro f low high m w
  have bitOf : ∀ k, k < f.bits.length → some ((f.bits[k]?).getD false) = f.bits[k]? := by
    intro k hk
    rw [List.getElem?_eq_getElem hk, Option.getD_some]
  have payload : ∀ j i, i < 32 → (w (4 + j)).getLsbD i = ((payloadOf f.bits)[32 * j + i]?).getD false := by
    intro j i hi
    have skip : (frameRecord f)[4 + j]? = (packBits (payloadOf f.bits))[j]? := by
      rw [Nat.add_comm]
      rfl
    simp only [w, skip]
    exact packBits_getLsbD _ j hi
  obtain ⟨tag, zeros, var, chan⟩ := recordTag_fields f.chan f.var
  have w1 : w 1 = BitVec.ofNat 16 (natOfBits (fieldOf f.bits)) ++ BitVec.ofNat 16 (payloadOf f.bits).length := rfl
  refine ⟨?_, ?_, ?_, ?_, ?_, ?_, ?_, ?_, ?_, ?_⟩
  · rw [frameRecord, List.length_append, packBits_length, payloadOf_length]
    rfl
  · exact tag
  · exact zeros
  · exact var
  · exact chan
  · rw [w1, BitVec.extractLsb'_append_eq_right, BitVec.toNat_ofNat, payloadOf_length]
    omega
  · intro i hi
    rw [w1, BitVec.getLsbD_append, ← bitOf (m + i) (by omega)]
    simp [fieldWord_getLsbD f.bits hi, m]
  · show f.ts.extractLsb' 32 32 ++ f.ts.extractLsb' 0 32 = f.ts
    exact BitVec.extractLsb'_append_extractLsb'_eq_extractLsb' rfl |>.trans BitVec.extractLsb'_eq_self
  · intro j i hi inside
    rw [payload j i hi, payloadOf_getElem? inside]
    exact bitOf _ (by omega)
  · intro j i hi beyond
    rw [payload j i hi, List.getElem?_eq_none_iff.2 (by rw [payloadOf_length]; exact beyond)]
    rfl

/-! ### The CRC register (R223) -/

/-- The next register: shifted, the polynomial added where the bit differs from bit 15. -/
theorem crcStep_eq (r : BitVec 16) (b : Bool) :
    crcStep r b = (r <<< 1) ^^^ (if (b ^^ r.getLsbD 15) then 0x1021#16 else 0#16) := by
  unfold crcStep
  split
  · rfl
  · exact (BitVec.xor_zero).symm

/-- Bit by bit. -/
theorem crcStep_getLsbD (r : BitVec 16) (b : Bool) {i : Nat} (hi : i < 16) : (crcStep r b).getLsbD i =
    ((decide (0 < i) && r.getLsbD (i - 1)) ^^ ((b ^^ r.getLsbD 15) && (0x1021#16).getLsbD i)) := by
  have poly : (if (b ^^ r.getLsbD 15) then 0x1021#16 else 0#16).getLsbD i =
      ((b ^^ r.getLsbD 15) && (0x1021#16).getLsbD i) := by
    cases b ^^ r.getLsbD 15 <;> simp
  have shifted : (r <<< 1).getLsbD i = (decide (0 < i) && r.getLsbD (i - 1)) := by
    rw [BitVec.getLsbD_shiftLeft]
    cases i <;> simp
    omega
  rw [crcStep_eq, BitVec.getLsbD_xor, poly, shifted]

/-- Bit 0 of the next register is the feedback. -/
theorem crcStep_getLsbD_zero (r : BitVec 16) (b : Bool) : (crcStep r b).getLsbD 0 = (b ^^ r.getLsbD 15) :=
  (crcStep_getLsbD r b (by decide)).trans (by rw [show (0x1021#16).getLsbD 0 = true from rfl]; simp)

/-- The register is linear in itself and the bit. -/
theorem crcStep_xor (r r' : BitVec 16) (b b' : Bool) :
    crcStep (r ^^^ r') (b ^^ b') = crcStep r b ^^^ crcStep r' b' := by
  apply BitVec.eq_of_getLsbD_eq
  intro i hi
  rw [BitVec.getLsbD_xor]
  simp only [crcStep_getLsbD _ _ hi, BitVec.getLsbD_xor, Bool.and_xor_distrib_left, Bool.and_xor_distrib_right]
  simp only [Bool.xor_assoc, Bool.xor_left_comm]

/-- No two registers step to one by the same bit. -/
theorem crcStep_injective (b : Bool) {r r' : BitVec 16} (h : crcStep r b = crcStep r' b) : r = r' := by
  have top : r.getLsbD 15 = r'.getLsbD 15 := by
    have feedback := congrArg (fun x => x.getLsbD 0) h
    simp only [crcStep_getLsbD_zero] at feedback
    exact Bool.xor_right_inj.1 feedback
  apply BitVec.eq_of_getLsbD_eq
  intro i hi
  by_cases last : i = 15
  · exact last ▸ top
  · have shifted := congrArg (fun x => x.getLsbD (i + 1)) h
    have inside : i + 1 < 16 := by omega
    simp only [crcStep_getLsbD _ b inside, top] at shifted
    simpa using Bool.xor_left_inj.1 shifted

theorem foldl_crcStep_injective (bits : List Bool) {r r' : BitVec 16}
    (h : bits.foldl crcStep r = bits.foldl crcStep r') : r = r' := by
  induction bits generalizing r r' with
  | nil => exact h
  | cons b bits ih => exact crcStep_injective b (ih h)

/-- A bit counts: the two bits step a register to different ones. -/
theorem crcStep_ne (r : BitVec 16) (b : Bool) : crcStep r b ≠ crcStep r (!b) := by
  intro h
  have feedback := congrArg (fun x => x.getLsbD 0) h
  simp only [crcStep_getLsbD_zero] at feedback
  exact (Bool.not_eq_self b).1 (Bool.xor_left_inj.1 feedback).symm

/-! ### The field as a register -/

/-- The register whose bit 15 is `b`. -/
def topBit (b : Bool) : BitVec 16 := if b then 0x8000#16 else 0#16

/-- A field as a register: its first bit in bit 15, the next in bit 14. -/
def fieldReg : List Bool → BitVec 16
  | [] => 0#16
  | b :: f => topBit b ^^^ (fieldReg f >>> 1)

theorem topBit_getLsbD (b : Bool) (i : Nat) : (topBit b).getLsbD i = (b && decide (i = 15)) := by
  cases b with
  | false => simp [topBit]
  | true =>
    show (0x8000#16).getLsbD i = _
    rw [show 0x8000#16 = BitVec.twoPow 16 15 from rfl, BitVec.getLsbD_twoPow]
    simp [eq_comm]

theorem fieldReg_getLsbD (f : List Bool) {i : Nat} (hi : i < 16) :
    (fieldReg f).getLsbD (15 - i) = (f[i]?).getD false := by
  induction f generalizing i with
  | nil => simp [fieldReg]
  | cons b f ih =>
    rw [fieldReg, BitVec.getLsbD_xor, topBit_getLsbD, BitVec.getLsbD_ushiftRight]
    cases i with
    | zero => simp
    | succ i =>
      have next : 1 + (15 - (i + 1)) = 15 - i := by omega
      have notTop : ¬15 - (i + 1) = 15 := by omega
      rw [next, ih (by omega), decide_eq_false notTop]
      simp

/-- A bit is as good as bit 15 of the register. -/
theorem crcStep_topBit (r : BitVec 16) (b : Bool) : crcStep r b = crcStep (r ^^^ topBit b) false := by
  have zeroStep : crcStep (topBit b) b = 0#16 := by cases b <;> rfl
  have := crcStep_xor (r ^^^ topBit b) (topBit b) false b
  rwa [BitVec.xor_assoc, BitVec.xor_self, BitVec.xor_zero, Bool.false_xor, zeroStep, BitVec.xor_zero] at this

/-- A zero bit shifts a register whose highest bit is 0. -/
theorem crcStep_ushiftRight {w : BitVec 16} (h : w.getLsbD 0 = false) : crcStep (w >>> 1) false = w := by
  have low : (w >>> 1).getLsbD 15 = false := by simp
  apply BitVec.eq_of_getLsbD_eq
  intro i hi
  rw [crcStep_getLsbD _ _ hi, low]
  cases i with
  | zero => simpa using h.symm
  | succ i => simp [Nat.add_comm]

/-- Zero bits do to the register with the field added what the field does to the register. -/
theorem foldl_crcStep_eq (f : List Bool) (hf : f.length ≤ 16) (r : BitVec 16) :
    f.foldl crcStep r = (List.replicate f.length false).foldl crcStep (r ^^^ fieldReg f) := by
  induction f generalizing r with
  | nil => simp [fieldReg]
  | cons b f ih =>
    rw [List.length_cons] at hf
    have low : (fieldReg f).getLsbD 0 = false := by
      rw [fieldReg_getLsbD f (i := 15) (by decide), List.getElem?_eq_none_iff.2 (by omega)]
      rfl
    have next : crcStep (r ^^^ fieldReg (b :: f)) false = crcStep r b ^^^ fieldReg f := by
      rw [fieldReg, ← BitVec.xor_assoc, crcStep_topBit r b]
      exact (crcStep_xor _ _ false false).trans (by rw [crcStep_ushiftRight low])
    rw [List.foldl_cons, ih (by omega), List.length_cons, List.replicate_succ, List.foldl_cons, next]

theorem crcField_length (r : BitVec 16) : (crcField r).length = 16 := by simp [crcField]

theorem crcField_getElem? (r : BitVec 16) {i : Nat} (hi : i < 16) :
    (crcField r)[i]? = some (!r.getLsbD (15 - i)) := by
  simp [crcField, hi]

/-- The field that matches a register is the register's complement, and no other. -/
theorem crcField_eq_iff (r : BitVec 16) {f : List Bool} (hf : f.length = 16) :
    crcField r = f ↔ r ^^^ fieldReg f = 0xFFFF#16 := by
  have ones : ∀ i, i < 16 → (0xFFFF#16).getLsbD i = true := by decide
  have bits : ∀ i, i < 16 → ((r ^^^ fieldReg f).getLsbD (15 - i) = true ↔ (crcField r)[i]? = f[i]?) := by
    intro i hi
    have inside : i < f.length := hf ▸ hi
    rw [BitVec.getLsbD_xor, fieldReg_getLsbD f hi, crcField_getElem? r hi, List.getElem?_eq_getElem inside,
      Option.getD_some, Option.some_inj]
    cases r.getLsbD (15 - i) <;> cases f[i] <;> simp
  constructor
  · intro h
    apply BitVec.eq_of_getLsbD_eq
    intro i hi
    have back : 15 - (15 - i) = i := by omega
    have bit := (bits (15 - i) (by omega)).2 (by rw [h])
    rw [back] at bit
    rw [bit, ones i hi]
  · intro h
    refine List.ext_getElem? fun i => ?_
    by_cases hi : i < 16
    · exact (bits i hi).1 (by rw [h]; exact ones _ (by omega))
    · rw [List.getElem?_eq_none_iff.2 (by rw [crcField_length]; omega),
        List.getElem?_eq_none_iff.2 (by omega)]

/-! ### The residue and single-bit errors (R223, R225) -/

theorem crcRun_append (l m : List Bool) : crcRun (l ++ m) = m.foldl crcStep (crcRun l) := List.foldl_append

/-- The field matches exactly where the register over payload and field ends at 0x1D0F. -/
theorem fcs16_eq_iff {bits : List Bool} (h : 16 ≤ bits.length) :
    fcs16 (bits.take (bits.length - 16)) = bits.drop (bits.length - 16) ↔ crcRun bits = 0x1D0F#16 := by
  have fieldLength : (bits.drop (bits.length - 16)).length = 16 := by
    rw [List.length_drop]
    omega
  have run : crcRun bits = (List.replicate 16 false).foldl crcStep
      (crcRun (bits.take (bits.length - 16)) ^^^ fieldReg (bits.drop (bits.length - 16))) := by
    have whole := foldl_crcStep_eq (bits.drop (bits.length - 16)) (Nat.le_of_eq fieldLength)
      (crcRun (bits.take (bits.length - 16)))
    rw [fieldLength] at whole
    rw [← whole, ← crcRun_append, List.take_append_drop]
  have residue : (List.replicate 16 false).foldl crcStep 0xFFFF#16 = 0x1D0F#16 := by
    decide +kernel
  rw [fcs16, crcField_eq_iff _ fieldLength, run, ← residue]
  exact ⟨fun e => by rw [e], foldl_crcStep_injective _⟩

/-- A bit through the register, in numbers (R223). -/
theorem crcStep_toNat (r : BitVec 16) (b : Bool) : (crcStep r b).toNat =
    if b = r.getLsbD 15 then r.toNat * 2 % 65536 else (r.toNat * 2 % 65536) ^^^ 0x1021 := by
  have shifted : (r <<< 1).toNat = r.toNat * 2 % 65536 := by
    rw [BitVec.toNat_shiftLeft, Nat.shiftLeft_eq]
  unfold crcStep
  by_cases h : b = r.getLsbD 15
  · rw [if_pos h, if_neg (by simp [h]), shifted]
  · have differ : (b ^^ r.getLsbD 15) = true := by simpa using h
    rw [if_neg h, if_pos differ, BitVec.toNat_xor, shifted]
    rfl

/-- Settles O47: the register's last step in numbers, the complement bit by bit, and the residue. -/
theorem crcResidueIsExact : Obligations.CrcResidueIsExact := by
  refine ⟨rfl, fun l b => ?_, fun l => ⟨crcField_length _, fun i => crcField_getElem? _⟩, fun bits => fcs16_eq_iff⟩
  rw [← crcStep_toNat, crcRun_append]
  rfl

/-- Settles O48: one bit flipped makes another register, which no later bits bring back to the residue. -/
theorem crcDetectsEverySingleBitError : Obligations.CrcDetectsEverySingleBitError := by
  intro bits i b long at_i passes flipped
  obtain ⟨hi, rfl⟩ := List.getElem?_eq_some_iff.1 at_i
  have sameLength : (bits.set i (!bits[i])).length = bits.length := List.length_set
  rw [← sameLength, fcs16_eq_iff (sameLength ▸ long)] at flipped
  rw [fcs16_eq_iff long] at passes
  have same : crcRun bits = crcRun (bits.set i (!bits[i])) := passes.trans flipped.symm
  rw [List.set_eq_take_append_cons_drop, if_pos hi, crcRun_append, List.foldl_cons] at same
  have whole : crcRun bits =
      (bits.drop (i + 1)).foldl crcStep (crcStep (crcRun (bits.take i)) bits[i]) := by
    rw [← List.foldl_cons, ← List.drop_eq_getElem_cons hi, ← crcRun_append, List.take_append_drop]
  exact crcStep_ne _ _ (foldl_crcStep_injective _ (whole.symm.trans same))

end Sys2Proof.Machine
end

section
/-!
PROOFS. The demodulator bank (41_demodulator.md): what each kernel stores and sends on (R152, R155, R158), and the
table of R154.
-/

namespace Sys2Proof.Machine

open Sys2Proof

/-! ### The element sent on (30_encoding.md R107) -/

/-- The value bit is 1 exactly for a positive soft value. -/
theorem symOf_value (x : Int) : (symOf x).getLsbD 15 = true ↔ 0 < x := by
  unfold symOf
  split
  · next h =>
    rw [BitVec.getLsbD_append]
    simp [h]
  · next h =>
    rw [BitVec.getLsbD_append]
    simp [h]

/-- The element of a soft value reads as that value, and its value bit is the sign. -/
theorem symOf_reads {x : Int} (h : -32767 ≤ x ∧ x ≤ 32767) :
    softOf (symOf x) = x ∧ ((symOf x).getLsbD 15 = true ↔ 0 < softOf (symOf x)) := by
  rw [softOf_symOf h.1 h.2]
  exact ⟨rfl, symOf_value x⟩

/-! ### DEM.NCOH (R152) -/

/-- Settles O35: the discriminator term fits the ring's register, and the soft value its element. -/
theorem ncohDiscriminates : Obligations.NcohDiscriminates := by
  intro c z s
  refine ⟨BitVec.ofInt 32 (discr z (s.kern.get c).ncoh.zp), symOf (kernelNcoh s.cfg z (s.kern.get c).ncoh).2, ?_⟩
  intro k sum
  obtain ⟨reads, value⟩ := symOf_reads (satsoft_bounds (rndShr sum s.cfg.shDem0.toNat))
  exact ⟨discr_exact z k.zp, reads.trans (satsoft_eq_clip _), value, rfl⟩

/-! ### DEM.COH (R154, R155) -/

theorem sgn_eq (x : Int) : sgn x = if 0 < x then 1 else if x < 0 then -1 else 0 := by
  unfold sgn
  split
  · rfl
  · split <;> split <;> omega

/-- The amplitude of a sample: half the sum of the magnitudes, at most 32767. -/
theorem cohAmplitude_eq (z : Sample) : min (shr (absI z.i.toInt + absI z.q.toInt) 1) 32767 =
    ((min ((z.i.toInt.natAbs + z.q.toInt.natAbs) / 2) 32767 : Nat) : Int) := by
  simp only [absI_eq, shr]
  omega

/-- A phase is stored modulo 64, either way round. -/
theorem ofInt6_toNat (x : Int) : ((BitVec.ofInt 6 x).toNat : Int) = x % 64 := by
  rw [BitVec.toNat_ofInt]
  omega

/-- Settles O36: the phase is stored modulo 64, and the signed amplitude fits the ring's register. -/
theorem cohTracksThePhase : Obligations.CohTracksThePhase := by
  intro c z s
  refine ⟨(kernelCoh s.cfg z (s.kern.get c).coh).1.uring.r0, symOf (kernelCoh s.cfg z (s.kern.get c).coh).2,
    (kernelCoh s.cfg z (s.kern.get c).coh).1.theta, ?_⟩
  intro k err es sum
  have sign : sgn err = es := sgn_eq err
  obtain ⟨reads, value⟩ := symOf_reads (satsoft_bounds (rndShr sum s.cfg.shDem1.toNat))
  refine ⟨?_, ?_, reads.trans (satsoft_eq_clip _), value, rfl⟩
  · rw [← sign]
    exact ofInt6_toNat _
  · rw [← sign, ← cohAmplitude_eq]
    have bounds := sgn_mul_bounds err (a := min (shr (absI z.i.toInt + absI z.q.toInt) 1) 32767)
      (by rw [cohAmplitude_eq]; exact Int.natCast_nonneg _) (Int.min_le_right _ _)
    exact toInt_ofInt16 (Int.le_trans (by decide) bounds.1) bounds.2

/-- Settles O37: the table entry by entry, and its symmetries at every index. -/
theorem rotTableIsTheSpecs : Obligations.RotTableIsTheSpecs :=
  ⟨by decide, by decide⟩

/-! ### DEM.CHAL (R158) -/

/-- The choice of the mean nearest zero, ties to the lower number, by magnitudes. -/
theorem chalBest_eq (h0 h1 h2 m0 m1 m2 : Int) :
    (m0.natAbs ≤ m1.natAbs → m0.natAbs ≤ m2.natAbs → chalBest h0 h1 h2 m0 m1 m2 = h0) ∧
    (m1.natAbs < m0.natAbs → m1.natAbs ≤ m2.natAbs → chalBest h0 h1 h2 m0 m1 m2 = h1) ∧
    (m2.natAbs < m0.natAbs → m2.natAbs < m1.natAbs → chalBest h0 h1 h2 m0 m1 m2 = h2) := by
  unfold chalBest
  simp only [absI_eq, Int.ofNat_lt]
  refine ⟨fun a b => ?_, fun a b => ?_, fun a b => ?_⟩
  · rw [if_neg (by omega), if_neg (by omega)]
  · rw [if_pos a, if_neg (by omega)]
  · rw [if_pos b, if_pos a, ite_self]

/-- The output is one of the hypotheses, so it is a soft value. -/
theorem chalBest_bounds {h0 h1 h2 : Int} (b0 : -32767 ≤ h0 ∧ h0 ≤ 32767) (b1 : -32767 ≤ h1 ∧ h1 ≤ 32767)
    (b2 : -32767 ≤ h2 ∧ h2 ≤ 32767) (m0 m1 m2 : Int) :
    -32767 ≤ chalBest h0 h1 h2 m0 m1 m2 ∧ chalBest h0 h1 h2 m0 m1 m2 ≤ 32767 := by
  unfold chalBest
  split <;> split <;> assumption

/-- A tracked mean fits its register. -/
theorem chalMean_stored (cfg : Cfg) {dc : BitVec 16} (h : SoftReg dc) (base k : Int) :
    (BitVec.ofInt 16 (chalMean cfg dc.toInt (chalHyp cfg base k))).toInt =
      chalMean cfg dc.toInt (chalHyp cfg base k) ∧
    (chalMean cfg dc.toInt (chalHyp cfg base k)).natAbs ≤ 32767 := by
  have bounds := chalMean_bounds cfg ⟨h, (toInt16_bounds dc).2⟩ (satsoft_bounds (base - (k - 1) * cfg.chalOffs.toNat))
  exact ⟨toInt_ofInt16 (Int.le_trans (by decide) bounds.1) bounds.2, by unfold chalHyp; omega⟩

/-- The three hypotheses (R158). -/
theorem chalHyp_eq (cfg : Cfg) (base : Int) :
    chalHyp cfg base 0 = clip (-32767) 32767 (base + (cfg.chalOffs.toNat : Int)) ∧
    chalHyp cfg base 1 = clip (-32767) 32767 base ∧
    chalHyp cfg base 2 = clip (-32767) 32767 (base - (cfg.chalOffs.toNat : Int)) := by
  simp only [chalHyp, satsoft_eq_clip]
  refine ⟨congrArg _ (by omega), congrArg _ (by omega), congrArg _ (by omega)⟩

/-- Settles O38: each mean fits its register, and the choice goes by the magnitudes of the new means. -/
theorem chalPicksTheNearestMean : Obligations.ChalPicksTheNearestMean := by
  intro c z s ranges
  refine ⟨BitVec.ofInt 32 (discr z (s.kern.get c).chal.zp),
    (kernelChal s.cfg z (s.kern.get c).chal).1.dc0, (kernelChal s.cfg z (s.kern.get c).chal).1.dc1,
    (kernelChal s.cfg z (s.kern.get c).chal).1.dc2, symOf (kernelChal s.cfg z (s.kern.get c).chal).2, ?_⟩
  intro k sum base offs h0 h1 h2 g
  obtain ⟨e0, e1, e2⟩ := chalHyp_eq s.cfg base
  obtain ⟨stored0, small0⟩ := chalMean_stored s.cfg ranges.dc0 base 0
  obtain ⟨stored1, small1⟩ := chalMean_stored s.cfg ranges.dc1 base 1
  obtain ⟨stored2, small2⟩ := chalMean_stored s.cfg ranges.dc2 base 2
  have soft : -32767 ≤ (kernelChal s.cfg z k).2 ∧ (kernelChal s.cfg z k).2 ≤ 32767 :=
    chalBest_bounds (satsoft_bounds _) (satsoft_bounds _) (satsoft_bounds _) _ _ _
  obtain ⟨reads, value⟩ := symOf_reads soft
  obtain ⟨best0, best1, best2⟩ : (_ → _ → (kernelChal s.cfg z k).2 = _) ∧ _ ∧ _ := chalBest_eq _ _ _ _ _ _
  have m0 : (kernelChal s.cfg z k).1.dc0.toInt = chalMean s.cfg k.dc0.toInt (chalHyp s.cfg base 0) := stored0
  have m1 : (kernelChal s.cfg z k).1.dc1.toInt = chalMean s.cfg k.dc1.toInt (chalHyp s.cfg base 1) := stored1
  have m2 : (kernelChal s.cfg z k).1.dc2.toInt = chalMean s.cfg k.dc2.toInt (chalHyp s.cfg base 2) := stored2
  rw [m0, m1, m2]
  refine ⟨discr_exact z k.zp, ?_, ?_, ?_, small0, small1, small2, fun a b => ?_, fun a b => ?_, fun a b => ?_,
    value, rfl⟩
  · rw [e0]; rfl
  · rw [e1]; rfl
  · rw [e2]; rfl
  · exact (reads.trans (best0 a b)).trans e0
  · exact (reads.trans (best1 a b)).trans e1
  · exact (reads.trans (best2 a b)).trans e2

end Sys2Proof.Machine
end

section
/-!
PROOFS. The Sample Conditioner (40_conditioner.md): COND.SAMPLE between outputs and on an output (R133 to R135),
over any samples (R137), under the reset configuration (R139), and BLOCK in RUNNING (R132, R136).
-/

namespace Sys2Proof.Machine

open Sys2Proof

/-! ### COND.SAMPLE (R133 to R135) -/

theorem exec_condSample (x : Sample) (s : State) : exec (.condSample x) s = .next (condSample x s) := rfl

/-- A sample that completes no output. -/
theorem condSample_between (x : Sample) {s : State} (h : s.cond.dphase.toNat + 1 ≠ s.cfg.decim.toNat) :
    condSample x s = { s with cond := { s.cond with
      dl := shiftDl x s.cond.dl, dphase := BitVec.ofNat 7 (s.cond.dphase.toNat + 1) } } := by
  unfold condSample
  exact if_neg h

/-- The state in which the channels compute an output. -/
def outputState (x : Sample) (s : State) : State :=
  { s with cond := { s.cond with dl := shiftDl x s.cond.dl, dphase := 0#7 } }

/-- The sample that channel `c` appends when `x` completes an output. -/
def outputSample (x : Sample) (s : State) (c : Chan) : Sample :=
  derot (outputState x s) c (fir (outputState x s) c)

/-- A sample that completes an output, channel by channel. -/
theorem condSample_output (x : Sample) {s : State} (h : s.cond.dphase.toNat + 1 = s.cfg.decim.toNat)
    (c : Chan) :
    (condSample x s).cond.out.get c =
      s.cond.out.get c ++ (if chanActive s.cfg c then [outputSample x s c] else []) ∧
    (condSample x s).cond.rotidx.get c =
      (if chanActive s.cfg c then nextRot s c else s.cond.rotidx.get c) := by
  have run : condSample x s = (activeChans s.cfg).foldl condOutput (outputState x s) := by
    unfold condSample
    exact if_pos h
  rw [run, activeChans]
  cases a0 : chanActive s.cfg .ch0 <;> cases a1 : chanActive s.cfg .ch1 <;> cases c <;>
    simp [a0, a1] <;> exact ⟨rfl, rfl⟩

theorem condSample_dl (x : Sample) (s : State) : (condSample x s).cond.dl = shiftDl x s.cond.dl := by
  by_cases h : s.cond.dphase.toNat + 1 = s.cfg.decim.toNat
  · unfold condSample
    simp only [h, if_true, activeChans_eq]
    split <;> split <;> rfl
  · rw [condSample_between x h]

/-- Settles O31: the delay line is the shifted one, place by place. -/
theorem condSampleBetweenOutputs : Obligations.CondSampleBetweenOutputs := by
  intro x s hdl hphase
  have := s.cfg.decim.isLt
  refine ⟨_, exec_condSample x s, ?_⟩
  rw [condSample_between x (by omega)]
  refine ⟨rfl, ?_, ?_, rfl, fun k hk => ?_⟩
  · rw [BitVec.toNat_ofNat]
    omega
  · simp [shiftDl, Config.ntapsMax, hdl]
  · simp only [shiftDl, Config.ntapsMax]
    rw [List.getElem?_take_of_lt (by omega), List.getElem?_cons_succ]

/-- The delay line after a sample, place by place. -/
theorem dlAt_shiftDl (x : Sample) (dl : List Sample) {k : Nat} (hk : k < 64) :
    dlAt (shiftDl x dl) k = if k = 0 then x else (dl[k - 1]?).getD zeroSample := by
  unfold dlAt shiftDl
  rw [List.getElem?_take_of_lt hk]
  cases k <;> simp

theorem nextRot_toNat {s : State} {c : Chan} (h : 1 ≤ rotlen s.cfg c) (h' : rotlen s.cfg c ≤ 64) :
    (nextRot s c).toNat = ((s.cond.rotidx.get c).toNat + 1) % rotlen s.cfg c := by
  have := Nat.mod_lt ((s.cond.rotidx.get c).toNat + 1) h
  rw [nextRot, BitVec.toNat_ofNat, Nat.mod_eq_of_lt (by omega)]

theorem satSample_clip (a b : Int) (n : Nat) :
    (satSample (rndShr a n) (rndShr b n)).i.toInt = clip (-32768) 32767 (roundShift a n) ∧
    (satSample (rndShr a n) (rndShr b n)).q.toInt = clip (-32768) 32767 (roundShift b n) :=
  ⟨(satSample_i _ _).trans (sat16_eq_clip _), (satSample_q _ _).trans (sat16_eq_clip _)⟩

/-- A filter sum over the shifted delay line (R134). -/
theorem sumTo_shiftDl (f : Sample → Nat → Int) (x : Sample) (dl : List Sample) {n : Nat} (hn : n ≤ 64) :
    sumTo (fun k => f (dlAt (shiftDl x dl) k) k) n =
      ((List.range n).map fun k => f (if k = 0 then x else (dl[k - 1]?).getD zeroSample) k).sum := by
  rw [sumTo_eq]
  refine congrArg _ (List.map_congr_left fun k hk => ?_)
  rw [dlAt_shiftDl x dl (Nat.lt_of_lt_of_le (List.mem_range.1 hk) hn)]

/-- Settles O32: the frame of COND.SAMPLE, then each channel's filter sum and derotation. -/
theorem condSampleOutput : Obligations.CondSampleOutput := by
  intro x s hdl hphase htaps dl h w aI aQ yI yQ
  refine ⟨_, exec_condSample x s, ?_, fun c => ?_⟩
  · have frame := condSample_frame x s
    have phase := condSample_dphase x s
    rw [if_pos hphase] at phase
    rw [frame]
    simp only [condSample_dl, phase, shiftDl, Config.ntapsMax]
  · obtain ⟨out, rot⟩ := condSample_output x hphase c
    rw [out, rot]
    refine ⟨fun inactive => ?_, fun active => ?_⟩
    · have idle : chanActive s.cfg c = false := decide_eq_false (Nat.not_lt.2 inactive)
      simp [idle]
    · have busy : chanActive s.cfg c = true := decide_eq_true active
      simp only [busy, if_true]
      refine ⟨fun r1 r2 => nextRot_toNat r1 r2, outputSample x s c, rfl, ?_⟩
      have sumI : sumTo (fun k => mulRe (tapH s c k) (dlAt (shiftDl x s.cond.dl) k)) s.cfg.ntaps.toNat = aI c :=
        sumTo_shiftDl (fun d k => mulRe (tapH s c k) d) x _ htaps
      have sumQ : sumTo (fun k => mulIm (tapH s c k) (dlAt (shiftDl x s.cond.dl) k)) s.cfg.ntaps.toNat = aQ c :=
        sumTo_shiftDl (fun d k => mulIm (tapH s c k) d) x _ htaps
      have firI : (fir (outputState x s) c).i.toInt = yI c :=
        (satSample_clip _ _ _).1.trans (congrArg (fun a => clip _ _ (roundShift a _)) sumI)
      have firQ : (fir (outputState x s) c).q.toInt = yQ c :=
        (satSample_clip _ _ _).2.trans (congrArg (fun a => clip _ _ (roundShift a _)) sumQ)
      rw [← firI, ← firQ]
      exact satSample_clip _ _ _

/-! ### Any samples (R137) -/

/-- `n` samples on: the phases and the number of outputs of every active channel. -/
structure Conditioned (n : Nat) (s t : State) : Prop where
  cfg : t.cfg = s.cfg
  dphase : t.cond.dphase.toNat = (s.cond.dphase.toNat + n) % s.cfg.decim.toNat
  out : ∀ c, chanActive s.cfg c = true → ∃ new, t.cond.out.get c = s.cond.out.get c ++ new ∧
    new.length = (s.cond.dphase.toNat + n) / s.cfg.decim.toNat
  rotidx : ∀ c, chanActive s.cfg c = true → 1 ≤ rotlen s.cfg c → rotlen s.cfg c ≤ 64 →
    (s.cond.rotidx.get c).toNat < rotlen s.cfg c → (t.cond.rotidx.get c).toNat =
      ((s.cond.rotidx.get c).toNat + (s.cond.dphase.toNat + n) / s.cfg.decim.toNat) % rotlen s.cfg c

theorem Conditioned.refl {s : State} (h : s.cond.dphase.toNat < s.cfg.decim.toNat) : Conditioned 0 s s where
  cfg := rfl
  dphase := (Nat.mod_eq_of_lt h).symm
  out _ _ := ⟨[], (List.append_nil _).symm, (Nat.div_eq_of_lt h).symm⟩
  rotidx _ _ _ _ hr := by rw [Nat.add_zero, Nat.div_eq_of_lt h, Nat.add_zero, Nat.mod_eq_of_lt hr]

/-- How the quotients of a cut add up. -/
theorem div_add_mod_add_div (a m : Nat) {d : Nat} (hd : 0 < d) : a / d + (a % d + m) / d = (a + m) / d := by
  have parts := Nat.div_add_mod a d
  rw [Nat.add_comm, ← Nat.add_mul_div_left _ _ hd]
  exact congrArg (· / d) (by omega)

theorem Conditioned.trans {n m : Nat} {s t u : State} (hd : 0 < s.cfg.decim.toNat) (h : Conditioned n s t)
    (h' : Conditioned m t u) : Conditioned (n + m) s u where
  cfg := h'.cfg.trans h.cfg
  dphase := by rw [h'.dphase, h.dphase, h.cfg, Nat.mod_add_mod, Nat.add_assoc]
  out c active := by
    obtain ⟨new, e, len⟩ := h.out c active
    obtain ⟨new', e', len'⟩ := h'.out c (h.cfg ▸ active)
    refine ⟨new ++ new', by rw [e', e, List.append_assoc], ?_⟩
    rw [List.length_append, len, len', h.dphase, h.cfg, div_add_mod_add_div _ m hd, Nat.add_assoc]
  rotidx c active r1 r2 hr := by
    have first := h.rotidx c active r1 r2 hr
    have second := h'.rotidx c (h.cfg ▸ active) (h.cfg ▸ r1) (h.cfg ▸ r2)
      (by rw [h.cfg, first]; exact Nat.mod_lt _ r1)
    rw [second, first, h.dphase, h.cfg, Nat.mod_add_mod, Nat.add_assoc (s.cond.rotidx.get c).toNat,
      div_add_mod_add_div _ m hd, Nat.add_assoc]

/-- One sample completes an output, or counts towards one. -/
theorem Conditioned.sample (x : Sample) {s : State} (h : s.cond.dphase.toNat < s.cfg.decim.toNat) :
    Conditioned 1 s (condSample x s) := by
  have := s.cfg.decim.isLt
  have phase := condSample_dphase x s
  by_cases full : s.cond.dphase.toNat + 1 = s.cfg.decim.toNat
  · have hd : 0 < s.cfg.decim.toNat := by omega
    rw [if_pos full] at phase
    refine ⟨condSample_cfg x s, ?_, fun c active => ⟨[outputSample x s c], ?_, ?_⟩, fun c active r1 r2 hr => ?_⟩
    · rw [phase, full, Nat.mod_self]
      rfl
    · rw [(condSample_output x full c).1, if_pos active]
    · rw [full, Nat.div_self hd]
      rfl
    · rw [(condSample_output x full c).2, if_pos active, nextRot_toNat r1 r2, full, Nat.div_self hd]
  · have few : s.cond.dphase.toNat + 1 < s.cfg.decim.toNat := by omega
    rw [if_neg full] at phase
    refine ⟨condSample_cfg x s, ?_, fun c _ => ⟨[], ?_, ?_⟩, fun c _ _ _ hr => ?_⟩
    · rw [phase, Nat.mod_eq_of_lt few, BitVec.toNat_ofNat]
      omega
    · rw [condSample_between x full, List.append_nil]
    · rw [Nat.div_eq_of_lt few]
      rfl
    · rw [condSample_between x full, Nat.div_eq_of_lt few]
      exact (Nat.mod_eq_of_lt hr).symm

/-- Any samples, one after another. -/
theorem Conditioned.samples (xs : List Sample) {s : State} (h : s.cond.dphase.toNat < s.cfg.decim.toNat) :
    Conditioned xs.length s (xs.foldl (fun t x => condSample x t) s) := by
  induction xs generalizing s with
  | nil => exact .refl h
  | cons x xs ih =>
    have one := Conditioned.sample x h
    have inRange : (condSample x s).cond.dphase.toNat < (condSample x s).cfg.decim.toNat := by
      rw [one.dphase, one.cfg]
      exact Nat.mod_lt _ (by omega)
    rw [List.length_cons, Nat.add_comm]
    exact one.trans (by omega) (ih inRange)

/-- The delay line holds the last samples. -/
theorem condSamples_dl (xs : List Sample) {s : State} (h : s.cond.dl.length = 64) :
    (xs.foldl (fun t x => condSample x t) s).cond.dl = (xs.reverse ++ s.cond.dl).take 64 := by
  induction xs generalizing s with
  | nil => exact (List.take_of_length_le (Nat.le_of_eq h)).symm
  | cons x xs ih =>
    rw [List.foldl_cons, ih (condSample_dl_length x s h), condSample_dl, List.reverse_cons, List.append_assoc,
      List.take_append, List.take_append, shiftDl, List.take_take]
    congr 2
    exact Nat.min_eq_left (Nat.sub_le _ _)

/-- Settles O33: one sample after another, the counts of a cut adding up. -/
theorem conditionerLosesAndRepeatsNothing : Obligations.ConditionerLosesAndRepeatsNothing := by
  intro xs s hphase _ hdl
  have counts := Conditioned.samples xs hphase
  refine ⟨_, execAll_map exec_condSample xs s, condSamples_frame xs s, counts.dphase, condSamples_dl xs hdl,
    fun c active => ?_⟩
  have busy : chanActive s.cfg c = true := decide_eq_true active
  obtain ⟨new, e, len⟩ := counts.out c busy
  exact ⟨by rw [e, List.length_append, len], ⟨new, e⟩, counts.rotidx c busy⟩

/-! ### The reset configuration (R139) -/

/-- The conditioner is configured to pass samples on: no decimation, one tap and one factor, each of value 1. -/
structure PassThrough (s : State) : Prop where
  decim : s.cfg.decim = 1#7
  ntaps : s.cfg.ntaps = 1#7
  shift : s.cfg.shCond = 14#5
  rotlen : ∀ c, rotlen s.cfg c = 1
  dphase : s.cond.dphase = 0#7
  rotidx : ∀ c, s.cond.rotidx.get c = 0#6
  unitH : ∀ c, Memory.read s.coef (hIndex c 0) = 0x00004000#32
  unitW : ∀ c, Memory.read s.coef (wIndex c 0) = 0x00004000#32

/-- A sample times 16384, rounded by 14 bits, is the sample. -/
theorem satSample_unit (x : Sample) :
    satSample (rndShr (x.i.toInt * 16384) 14) (rndShr (x.q.toInt * 16384) 14) = x := by
  have unit : ∀ b : BitVec 16, sat16 (rndShr (b.toInt * 16384) 14) = b.toInt := by
    intro b
    have round : rndShr (b.toInt * 16384) 14 = b.toInt := by
      simp only [rndShr, shr]
      omega
    rw [round, sat16_of_range (toInt16_bounds b).1 (toInt16_bounds b).2]
  simp only [satSample, unit, BitVec.ofInt_toInt]

/-- The product with (16384, 0), either way round. -/
theorem mul_unit (x : Sample) : mulRe (unpackSample 0x00004000#32) x = x.i.toInt * 16384 ∧
    mulIm (unpackSample 0x00004000#32) x = x.q.toInt * 16384 ∧
    mulRe x (unpackSample 0x00004000#32) = x.i.toInt * 16384 ∧
    mulIm x (unpackSample 0x00004000#32) = x.q.toInt * 16384 := by
  have re : (unpackSample 0x00004000#32).i.toInt = 16384 := by decide
  have im : (unpackSample 0x00004000#32).q.toInt = 0 := by decide
  simp only [mulRe, mulIm, re, im]
  omega

theorem PassThrough.outputSample {s : State} (h : PassThrough s) (x : Sample) (c : Chan) :
    outputSample x s c = x := by
  obtain ⟨tapRe, tapIm, factorRe, factorIm⟩ := mul_unit x
  have first : dlAt (shiftDl x s.cond.dl) 0 = x := dlAt_shiftDl x _ (by decide)
  have filtered : fir (outputState x s) c = x := by
    simp only [fir, outputState, h.ntaps, h.shift, sumTo, tapH, h.unitH, first, tapRe, tapIm,
      BitVec.toNat_ofNat, Int.zero_add]
    exact satSample_unit x
  rw [Machine.outputSample, filtered]
  simp only [derot, factorW, outputState, h.rotidx, BitVec.toNat_ofNat, h.unitW, factorRe, factorIm]
  exact satSample_unit x

/-- A sample passes to every active channel, and the configuration stays. -/
theorem PassThrough.sample {s : State} (h : PassThrough s) (x : Sample) : PassThrough (condSample x s) ∧
    ∀ c, chanActive s.cfg c = true → (condSample x s).cond.out.get c = s.cond.out.get c ++ [x] := by
  have full : s.cond.dphase.toNat + 1 = s.cfg.decim.toNat := by rw [h.dphase, h.decim]; rfl
  have cfg := condSample_cfg x s
  have coef : (condSample x s).coef = s.coef := by rw [condSample_frame]
  have phase : (condSample x s).cond.dphase = 0#7 := by rw [condSample_dphase, if_pos full]
  have rot : ∀ c, (condSample x s).cond.rotidx.get c = 0#6 := by
    intro c
    rcases condSample_rotidx x s c with e | e <;> rw [e]
    · exact h.rotidx c
    · rw [nextRot, h.rotlen c, Nat.mod_one]
  refine ⟨⟨cfg ▸ h.decim, cfg ▸ h.ntaps, cfg ▸ h.shift, cfg ▸ h.rotlen, phase, rot, coef ▸ h.unitH,
    coef ▸ h.unitW⟩, fun c active => ?_⟩
  rw [(condSample_output x full c).1, if_pos active, h.outputSample]

theorem PassThrough.samples (xs : List Sample) {s : State} (h : PassThrough s) {c : Chan}
    (active : chanActive s.cfg c = true) :
    (xs.foldl (fun t x => condSample x t) s).cond.out.get c = s.cond.out.get c ++ xs := by
  induction xs generalizing s with
  | nil => exact (List.append_nil _).symm
  | cons x xs ih =>
    obtain ⟨kept, out⟩ := h.sample x
    rw [List.foldl_cons, ih kept (condSample_cfg x s ▸ active), out c active, List.append_assoc]
    rfl

/-- Settles O34: each sample passes the filter and the derotator unchanged. -/
theorem resetConditionerIsTheIdentity : Obligations.ResetConditionerIsTheIdentity := by
  intro xs s hdecim htaps hshift hrot0 hrot1 hphase hrot hcoef
  have pass : PassThrough s := {
    decim := hdecim
    ntaps := htaps
    shift := hshift
    rotlen := fun c => by cases c <;> simp [rotlen, hrot0, hrot1]
    dphase := hphase
    rotidx := hrot
    unitH := fun c => (hcoef c).1
    unitW := fun c => (hcoef c).2 }
  exact ⟨_, execAll_map exec_condSample xs s, fun c active => pass.samples xs (decide_eq_true active)⟩

/-! ### BLOCK in RUNNING: the five tests (R132) -/

theorem exec_block_running {s : State} (chid : BitVec 8) (len : BitVec 16) (body : List Word)
    (h : s.life = .running) : exec (.block chid len body) s = .next (condBlock chid len body s) := by
  show execBlock chid len body s = _
  rw [execBlock, h]

theorem condBlock_malformed {chid : BitVec 8} {len : BitVec 16} {body : List Word} {s : State} {code : BitVec 8}
    (h : blockCheck chid len body s = some code) :
    condBlock chid len body s = raise (.blkMalformed code) s := by
  rw [condBlock, h]

theorem condBlock_accepted {chid : BitVec 8} {len : BitVec 16} {body : List Word} {s : State}
    (h : blockCheck chid len body s = none) : condBlock chid len body s = condAccepted body s := by
  rw [condBlock, h]

/-- Settles O28: the first test that fails decides. -/
theorem malformedBlockIsSkippedWhole : Obligations.MalformedBlockIsSkippedWhole := by
  intro chid len body s code a b c d e running cases
  suffices check : blockCheck chid len body s = some code by
    rw [exec_block_running chid len body running, condBlock_malformed check, raise_blkMalformed]
  have lenFails : ¬a → len.toNat = 0 ∨ Config.maxBlk < len.toNat := by
    simp only [a, Config.maxBlk]
    omega
  have lenPasses : a → ¬(len.toNat = 0 ∨ Config.maxBlk < len.toNat) := by
    simp only [a, Config.maxBlk]
    omega
  have countPasses : b → ¬(blockNsamp body ≠ len.toNat) := not_not_intro
  have chanPasses : c → ¬(chid ≠ s.cfg.srcId) := not_not_intro
  have ratePasses : d → ¬(blockRate body ≠ s.cfg.fsAcq) := not_not_intro
  unfold blockCheck
  rcases cases with ⟨ha, rfl⟩ | ⟨ha, hb, rfl⟩ | ⟨ha, hb, hc, rfl⟩ | ⟨ha, hb, hc, hd, rfl⟩ |
    ⟨ha, hb, hc, hd, he, rfl⟩
  · exact if_pos (lenFails ha)
  · rw [if_neg (lenPasses ha)]
    exact if_pos hb
  · rw [if_neg (lenPasses ha), if_neg (countPasses hb)]
    exact if_pos hc
  · rw [if_neg (lenPasses ha), if_neg (countPasses hb), if_neg (chanPasses hc)]
    exact if_pos hd
  · rw [if_neg (lenPasses ha), if_neg (countPasses hb), if_neg (chanPasses hc), if_neg (ratePasses hd)]
    exact if_pos he

/-! ### BLOCK in RUNNING: an accepted block (R136) -/

/-- The samples of a block do to the conditioner what they do without the block's own bookkeeping. -/
theorem condSamples_congr (xs : List Sample) {s t : State} (hc : t.cfg = s.cfg) (hm : t.coef = s.coef)
    (hd : t.cond = { s.cond with haveSeq := t.cond.haveSeq, lastSeq := t.cond.lastSeq }) :
    (xs.foldl (fun t x => condSample x t) t).cond =
      { (xs.foldl (fun t x => condSample x t) s).cond with
        haveSeq := t.cond.haveSeq, lastSeq := t.cond.lastSeq } := by
  induction xs generalizing s t with
  | nil => exact hd
  | cons x xs ih =>
    have one := condSample_congr x s t hc hm hd
    have kept : (condSample x t).cond.haveSeq = t.cond.haveSeq ∧ (condSample x t).cond.lastSeq = t.cond.lastSeq := by
      rw [one]
      exact ⟨rfl, rfl⟩
    have coef : ∀ u, (condSample x u).coef = u.coef := fun u => by rw [condSample_frame]
    have rest := ih (s := condSample x s) (t := condSample x t) (by rw [condSample_cfg, condSample_cfg, hc])
      (by rw [coef, coef, hm]) (by rw [kept.1, kept.2]; exact one)
    rwa [kept.1, kept.2] at rest

theorem pairActive_iff (cfg : Cfg) (c : Chan) (v : Variant) : pairActive cfg c v = true ↔
    chanNum c < cfg.nch.toNat ∧ cfg.varmask.getLsbD (varNum v) = true := by
  simp [pairActive, chanActive, varActive]

/-- The pairs that get an output block. -/
def activePairs (cfg : Cfg) : List (Chan × Variant) := allPairs.filter fun cv => pairActive cfg cv.1 cv.2

theorem activePairs_nodup (cfg : Cfg) : (activePairs cfg).Nodup :=
  (by decide : allPairs.Nodup).filter _

theorem mem_activePairs (cfg : Cfg) (c : Chan) (v : Variant) :
    (c, v) ∈ activePairs cfg ↔ pairActive cfg c v = true := by
  have all : (c, v) ∈ allPairs := by cases c <;> cases v <;> decide
  simp [activePairs, List.mem_filter, all]

/-- The state in which the samples of a block are conditioned: the lists `out[c]` empty (R133). -/
def outCleared (s : State) : State := { s with cond := { s.cond with out := ⟨[], []⟩ } }

/-- The state of an accepted block after its samples, `u` being where the samples alone lead. -/
def accepted (seq : Word) (s u : State) : State :=
  { s with
    cond := { u.cond with haveSeq := true, lastSeq := seq }
    glob := { s.glob with blkAccepted := oneMore s.glob.blkAccepted } }

/-- An accepted block: its samples, the fan-out, and the lists emptied. -/
theorem condAccepted_eq (body : List Word) (s : State) : condAccepted body s =
    clearOut (pushBlocks (blockSeq body) (accepted (blockSeq body) s
      ((blockSamples body).foldl (fun t x => condSample x t) (outCleared s)))) := by
  have frame := condSamples_frame (blockSamples body) (acceptBlock (blockSeq body) s)
  have congr := condSamples_congr (blockSamples body) (s := outCleared s) (t := acceptBlock (blockSeq body) s)
    rfl rfl rfl
  rw [congr] at frame
  rw [condAccepted, frame]
  rfl

/-- A block that passes the five tests. -/
theorem blockCheck_none {chid : BitVec 8} {len : BitVec 16} {body : List Word} {s : State}
    (low : 1 ≤ len.toNat) (high : len.toNat ≤ 16384) (count : blockNsamp body = len.toNat)
    (chan : chid = s.cfg.srcId) (rate : blockRate body = s.cfg.fsAcq)
    (seq : s.cond.haveSeq = true → s.cond.lastSeq.toNat ≤ (blockSeq body).toNat) :
    blockCheck chid len body s = none := by
  have lenPasses : ¬(len.toNat = 0 ∨ Config.maxBlk < len.toNat) := by
    simp only [Config.maxBlk]
    omega
  have seqPasses : ¬(s.cond.haveSeq = true ∧ (blockSeq body).toNat < s.cond.lastSeq.toNat) :=
    fun ⟨have_, less⟩ => Nat.not_le_of_lt less (seq have_)
  rw [blockCheck, if_neg lenPasses, if_neg (not_not_intro count), if_neg (not_not_intro chan),
    if_neg (not_not_intro rate), if_neg seqPasses]

/-- The fan-out, queue by queue: the frame, the queues with room, the others, and the overruns. -/
theorem pushBlocks_spec (seq : Word) (s : State) :
    pushBlocks seq s = { s with
      pipe := (pushBlocks seq s).pipe, overrun := (pushBlocks seq s).overrun
      glob := { s.glob with overrunDrops := (pushBlocks seq s).glob.overrunDrops } } ∧
    (∀ c v, pairActive s.cfg c v = true → fullAt s.depths.qDepth (s.pipe.get c v).q.length = false →
      (pushBlocks seq s).pipe.get c v =
        { s.pipe.get c v with q := (s.pipe.get c v).q ++ [outBlock seq s c] }) ∧
    (∀ c v, ¬(pairActive s.cfg c v = true ∧ fullAt s.depths.qDepth (s.pipe.get c v).q.length = false) →
      (pushBlocks seq s).pipe.get c v = s.pipe.get c v) ∧
    (pushBlocks seq s).glob.overrunDrops = moreBy ((activePairs s.cfg).filter fun cv =>
      fullAt s.depths.qDepth (s.pipe.get cv.1 cv.2).q.length).length s.glob.overrunDrops ∧
    (pushBlocks seq s).overrun = (s.overrun || (activePairs s.cfg).any fun cv =>
      fullAt s.depths.qDepth (s.pipe.get cv.1 cv.2).q.length) := by
  obtain ⟨pushed, others, drops, overrun⟩ := pushes_spec (outBlock seq s) _ (activePairs_nodup s.cfg) s
  simp only [mem_activePairs] at pushed others
  obtain ⟨_, _, _, frame⟩ := pushBlocks_frame seq s
  exact ⟨by rw [frame], pushed, others, drops, overrun⟩

/-- Settles O29: the block passes the tests, its samples run as without the bookkeeping, and the fan-out is queue by
queue. -/
theorem acceptedBlockFansOut : Obligations.AcceptedBlockFansOut := by
  intro chid len sq rt ws s running low high count chan rate seq
  have check : blockCheck chid len (sq :: rt :: ws) s = none :=
    blockCheck_none low high count chan rate seq
  have run : exec (.block chid len (sq :: rt :: ws)) s = .next (condAccepted (sq :: rt :: ws) s) := by
    rw [exec_block_running chid len _ running, condBlock_accepted check]
  have samples := execAll_map (fun w => exec_condSample (unpackSample w)) ws (outCleared s)
  rw [← List.foldl_map (f := unpackSample) (g := fun t x => condSample x t)] at samples
  refine ⟨_, _, run, samples, ?_⟩
  have bodySeq : blockSeq (sq :: rt :: ws) = sq := rfl
  have bodySamples : blockSamples (sq :: rt :: ws) = ws.map unpackSample := rfl
  rw [condAccepted_eq, bodySeq, bodySamples]
  generalize (ws.map unpackSample).foldl (fun t x => condSample x t) (outCleared s) = u
  obtain ⟨frame, pushed, others, drops, overrun⟩ := pushBlocks_spec sq (accepted sq s u)
  intro active full
  have isActive : ∀ c v, pairActive s.cfg c v = true ↔ active c v := fun c v => pairActive_iff s.cfg c v
  have isFull : ∀ c v, fullAt s.depths.qDepth (s.pipe.get c v).q.length = true ↔ full c v :=
    fun c v => fullAt_iff _ _
  have hasRoom : ∀ c v, fullAt s.depths.qDepth (s.pipe.get c v).q.length = false ↔ ¬full c v := by
    intro c v
    rw [← isFull, Bool.not_eq_true]
  refine ⟨?_, fun c v ha hf => ?_, fun c v h => ?_, ?_, ?_⟩
  · rw [frame]
    rfl
  · exact pushed c v ((isActive c v).2 ha) ((hasRoom c v).2 hf)
  · exact others c v fun ⟨ha, hf⟩ => h ⟨(isActive c v).1 ha, (hasRoom c v).1 hf⟩
  · show (pushBlocks sq (accepted sq s u)).overrun = true ↔ _
    rw [overrun, Bool.or_eq_true, List.any_eq_true]
    refine or_congr Iff.rfl ⟨fun ⟨(c, v), mem, hf⟩ => ?_, fun ⟨c, v, ha, hf⟩ => ?_⟩
    · exact ⟨c, v, (isActive c v).1 ((mem_activePairs _ c v).1 mem), (isFull c v).1 hf⟩
    · exact ⟨(c, v), (mem_activePairs _ c v).2 ((isActive c v).2 ha), (isFull c v).2 hf⟩
  · refine ⟨(activePairs s.cfg).filter fun cv => fullAt s.depths.qDepth (s.pipe.get cv.1 cv.2).q.length,
      (activePairs_nodup s.cfg).filter _, fun c v => ?_, ?_⟩
    · rw [List.mem_filter, mem_activePairs, isActive]
      exact and_congr Iff.rfl (isFull c v)
    · exact (congrArg BitVec.toNat drops).trans (moreBy_toNat _ _)

end Sys2Proof.Machine
end

section
/-!
PROOFS. The step of a pipeline (41_demodulator.md R151): what it does on a block of one sample, on an empty block
and without work, where a block may be cut, and what it leaves alone.
-/

namespace Sys2Proof.Machine

open Sys2Proof

variable {c : Chan} {v : Variant}

/-! ### Streams of no element or of one -/

theorem withCand_nil {p : Pipe} (h : p.cand = []) : { p with cand := [] } = p := by rw [← h]

theorem withRaw_nil {p : Pipe} (h : p.raw = []) : { p with raw := [] } = p := by rw [← h]

theorem drainCand_nil {s : State} (h : (s.pipe.get c v).cand = []) : drainCand c v s = s := by
  simp only [drainCand, h, List.foldl_nil, withCand_nil h, setPipe_self]

theorem drainRaw_nil {s : State} (h : (s.pipe.get c v).raw = []) : drainRaw c v s = s := by
  simp only [drainRaw, h, List.foldl_nil, withRaw_nil h, setPipe_self]

theorem drainCand_one {s : State} {f : CandFrame} (h : (s.pipe.get c v).cand = [f]) :
    drainCand c v s = valFrame f (s.setPipe c v { s.pipe.get c v with cand := [] }) := by
  simp only [drainCand, h, List.foldl_cons, List.foldl_nil]

theorem drainDec_one {s : State} {d : Bool} (h : (s.pipe.get c v).dec = [d]) :
    drainDec c v s = drainCand c v (hdlcBit c v d (s.setPipe c v { s.pipe.get c v with dec := [] })) := by
  simp only [drainDec, h, List.foldl_cons, List.foldl_nil]

theorem drainRaw_one {s : State} {r : Bool} (h : (s.pipe.get c v).raw = [r]) :
    drainRaw c v s = drainDec c v (nrziBit c v r (s.setPipe c v { s.pipe.get c v with raw := [] })) := by
  simp only [drainRaw, h, List.foldl_cons, List.foldl_nil]

theorem drainSym_one {s : State} {e : BitVec 16} (h : (s.pipe.get c v).sym = [e]) :
    drainSym c v s = drainRaw c v (synStep c v e (s.setPipe c v { s.pipe.get c v with sym := [] })) := by
  simp only [drainSym, h, List.foldl_cons, List.foldl_nil]

theorem exec_demInstr (c : Chan) (v : Variant) (z : Sample) (s : State) :
    exec (demInstr c v z) s = .next (demStep c v z s) := by
  cases v <;> rfl

/-! ### The stages one after another -/

/-- The CandidateFrame that HDLC.BIT sends: one of this pipeline, or none. -/
theorem hdlcBit_cand {s : State} (hc : (s.pipe.get c v).cand = []) (d : Bool) :
    ((hdlcBit c v d s).pipe.get c v).cand = [] ∨
      ∃ f, ((hdlcBit c v d s).pipe.get c v).cand = [f] ∧ f.chan = c ∧ f.var = v := by
  rw [hdlcBit_pipe, hc, List.nil_append]
  cases (hdlcTrans s.cfg d (s.pipe.get c v).dfr).2 with
  | emit bits => exact .inr ⟨_, rfl, rfl, rfl⟩
  | quiet => exact .inl rfl
  | aborted => exact .inl rfl
  | malformed => exact .inl rfl

/-- HDLC.BIT on the bit that stands in `dec`, and VAL.FRAME on the frame it may send. -/
theorem drainDec_stages {s : State} {d : Bool} (hd : (s.pipe.get c v).dec = [d])
    (hc : (s.pipe.get c v).cand = []) :
    ∃ h, exec (.hdlcBit c v d) (s.setPipe c v { s.pipe.get c v with dec := [] }) = .next h ∧
      ((h.pipe.get c v).cand = [] ∧ drainDec c v s = h ∨
        ∃ f : CandFrame, (h.pipe.get c v).cand = [f] ∧ f.chan = c ∧ f.var = v ∧
          .next (drainDec c v s) = exec (.valFrame f) (h.setPipe c v { h.pipe.get c v with cand := [] })) := by
  refine ⟨_, exec_hdlcBit c v d _, ?_⟩
  rw [drainDec_one hd]
  have sent := hdlcBit_cand (c := c) (v := v) (s := s.setPipe c v { s.pipe.get c v with dec := [] })
    (by simpa using hc) d
  rcases sent with none | ⟨f, one, hchan, hvar⟩
  · exact .inl ⟨none, drainCand_nil none⟩
  · exact .inr ⟨f, one, hchan, hvar, by rw [exec_valFrame, drainCand_one one]⟩

/-- What follows the raw bit that SYN.STEP may have left in `u`: NRZI.BIT, HDLC.BIT and VAL.FRAME. -/
theorem drainRaw_stages {u : State} (hr : (u.pipe.get c v).raw = [] ∨ ∃ r, (u.pipe.get c v).raw = [r])
    (hd : (u.pipe.get c v).dec = []) (hc : (u.pipe.get c v).cand = []) :
    (u.pipe.get c v).raw = [] ∧ drainRaw c v u = u ∨
      ∃ (r d : Bool) (n h : State), (u.pipe.get c v).raw = [r] ∧
        exec (.nrziBit c v r) (u.setPipe c v { u.pipe.get c v with raw := [] }) = .next n ∧
        (n.pipe.get c v).dec = [d] ∧
        exec (.hdlcBit c v d) (n.setPipe c v { n.pipe.get c v with dec := [] }) = .next h ∧
        ((h.pipe.get c v).cand = [] ∧ drainRaw c v u = h ∨
          ∃ f : CandFrame, (h.pipe.get c v).cand = [f] ∧ f.chan = c ∧ f.var = v ∧
            .next (drainRaw c v u) = exec (.valFrame f) (h.setPipe c v { h.pipe.get c v with cand := [] })) := by
  rcases hr with none | ⟨r, one⟩
  · exact .inl ⟨none, drainRaw_nil none⟩
  · rw [drainRaw_one one]
    have dec : ∃ d, ((nrziBit c v r (u.setPipe c v { u.pipe.get c v with raw := [] })).pipe.get c v).dec = [d] := by
      simp [nrziBit, hd]
    have cand : ((nrziBit c v r (u.setPipe c v { u.pipe.get c v with raw := [] })).pipe.get c v).cand = [] := by
      simp [nrziBit, hc]
    obtain ⟨d, dec⟩ := dec
    obtain ⟨h, hdlc, val⟩ := drainDec_stages dec cand
    exact .inr ⟨r, d, _, h, one, exec_nrziBit c v r _, dec, hdlc, val⟩

/-- The raw bit that SYN.STEP sends: one at a decision, and none otherwise. -/
theorem synStep_raw {s : State} (hr : (s.pipe.get c v).raw = []) (e : BitVec 16) :
    ((synStep c v e s).pipe.get c v).raw = [] ∨ ∃ r, ((synStep c v e s).pipe.get c v).raw = [r] := by
  simp only [synStep, setPipe_pipe, PerPipe.get_set_same, hr, List.nil_append]
  generalize SynResult.bit _ = bit
  cases bit with
  | none => exact .inl rfl
  | some r => exact .inr ⟨r, rfl⟩

/-- The element that the demodulator sends. -/
theorem demStep_one (z : Sample) {s : State} (hs : (s.pipe.get c v).sym = []) :
    ∃ e, ((demStep c v z s).pipe.get c v).sym = [e] := by
  obtain ⟨e, he⟩ := demStep_sym (c := c) (v := v) z s
  exact ⟨e, by rw [he.1, hs, List.nil_append]⟩

/-! ### The turn of a pipeline -/

theorem step_of_pipe_turn {s : State} {ms : List Move} (h : s.script = .agent (.pipe c v) :: ms) :
    step s = .next (pipeStep c v { s with script := ms }) := by
  rw [step, h]
  rfl

theorem StreamsEmpty.drained {s : State} (h : StreamsEmpty s) (c : Chan) (v : Variant) : Drained c v s :=
  ((streamsEmpty_iff s).1 h).1 c v

theorem pipeMayStep_iff (c : Chan) (v : Variant) (s : State) :
    pipeMayStep c v s = true ↔ (s.life = .running ∨ s.life = .fatal) ∧ pairActive s.cfg c v = true := by
  simp [pipeMayStep]

/-- A pipeline that may step, with a block waiting and nothing in its streams, runs the block's samples. -/
theorem pipeStep_block {s : State} {b : Block} {bs : List Block}
    (may : pipeMayStep c v s = true) (drained : Drained c v s) (hq : (s.pipe.get c v).q = b :: bs) :
    pipeStep c v s = pipeSamples c v b.samples (s.setPipe c v { s.pipe.get c v with q := bs }) := by
  simp only [pipeStep, pipeBegin, may, if_true, (streamsPending_eq_false c v s).2 drained, hq,
    Bool.false_eq_true, if_false]

/-- The turn of a pipeline that may step, with a block waiting and nothing in its streams. -/
theorem step_of_block {s : State} {ms : List Move} {b : Block} {bs : List Block}
    (script : s.script = .agent (.pipe c v) :: ms) (may : pipeMayStep c v s = true) (drained : Drained c v s)
    (hq : (s.pipe.get c v).q = b :: bs) :
    step s = .next (pipeSamples c v b.samples
      (({ s with script := ms } : State).setPipe c v { s.pipe.get c v with q := bs })) := by
  rw [step_of_pipe_turn script]
  exact congrArg _ (pipeStep_block (s := { s with script := ms }) may drained hq)

theorem pipeSample_eq (z : Sample) (s : State) :
    pipeSample c v z s = drainSym c v (demStep c v z (s.setPipe c v { s.pipe.get c v with
      sampCnt := (s.pipe.get c v).sampCnt + 1#64 })) := rfl

/-- What follows a sample in `x`, the count raised: DEM, SYN.STEP, and the stages behind. -/
theorem drainSym_stages (z : Sample) {x : State} (drained : Drained c v x) :
    ∃ (t u : State) (e : BitVec 16),
      exec (demInstr c v z) x = .next t ∧ (t.pipe.get c v).sym = [e] ∧
      exec (.synStep c v e) (t.setPipe c v { t.pipe.get c v with sym := [] }) = .next u ∧
      ((u.pipe.get c v).raw = [] ∨ ∃ r, (u.pipe.get c v).raw = [r]) ∧
      (u.pipe.get c v).dec = [] ∧ (u.pipe.get c v).cand = [] ∧
      drainSym c v (demStep c v z x) = drainRaw c v u := by
  obtain ⟨cand, dec, raw, sym⟩ := drained
  obtain ⟨hc, hd, hr⟩ := demStep_streams (c := c) (v := v) z x
  obtain ⟨e, he⟩ := demStep_one (c := c) (v := v) z sym
  refine ⟨_, _, e, exec_demInstr c v z x, he, exec_synStep c v e _, synStep_raw ?_ e, ?_, ?_, drainSym_one he⟩
  · simpa using hr.trans raw
  · simpa [synStep] using hd.trans dec
  · simpa [synStep] using hc.trans cand

/-- Settles O10: the streams hold one element at most, so that draining them is the stages one after another. -/
theorem pipelineStepRunsTheStages : Obligations.PipelineStepRunsTheStages := by
  intro s c v b bs z ms hscript hlife hactive hstreams hq hb
  have drained := hstreams.drained c v
  rw [step_of_block hscript ((pipeMayStep_iff c v s).2 ⟨hlife, hactive⟩) drained hq, hb]
  simp only [pipeSamples, List.foldl_cons, List.foldl_nil, pipeSample_eq, setPipe_pipe, PerPipe.get_set_same,
    setPipe_setPipe]
  obtain ⟨t, u, e, dem, sym, syn, raw, dec, cand, run⟩ := drainSym_stages (c := c) (v := v) z
    (x := ({ s with script := ms } : State).setPipe c v { s.pipe.get c v with
      q := bs, sampCnt := (s.pipe.get c v).sampCnt + 1#64 }) (by simpa [Drained] using drained)
  refine ⟨t, u, e, dem, sym, syn, ?_⟩
  simp only [run, Host.Outcome.next.injEq]
  exact drainRaw_stages raw dec cand

/-! ### Without work -/

theorem pipeBegin_stays {s : State} (h : pipeMayStep c v s = false) : pipeBegin c v s = ([], s) := by
  simp only [pipeBegin, h, Bool.false_eq_true, if_false]

theorem pipeBegin_empty {s : State} (drained : Drained c v s) (hq : (s.pipe.get c v).q = []) :
    pipeBegin c v s = ([], s) := by
  simp only [pipeBegin, (streamsPending_eq_false c v s).2 drained, hq, Bool.false_eq_true, if_false, ite_self]

/-- Settles O12: the step takes no block where it is not enabled or none waits; an empty block has no sample. -/
theorem pipelineWithoutWorkChangesNothing : Obligations.PipelineWithoutWorkChangesNothing := by
  intro s c v ms script streams
  have drained := streams.drained c v
  refine ⟨fun idle => ?_, fun b bs life active hq empty => ?_⟩
  · have begin : pipeBegin c v { s with script := ms } = ([], { s with script := ms }) := by
      rcases idle with h | h | h | h
      · exact pipeBegin_stays (by simp [pipeMayStep, h])
      · exact pipeBegin_stays (by simp [pipeMayStep, h])
      · exact pipeBegin_stays (by simp [pipeMayStep, h])
      · exact pipeBegin_empty drained h
    rw [step_of_pipe_turn script, pipeStep, begin]
    rfl
  · rw [step_of_block script ((pipeMayStep_iff c v s).2 ⟨life, active⟩) drained hq, empty]
    rfl

/-! ### Where blocks are cut (R151) -/

/-- The state `s` with the blocks `qs` in `Q[c][v]` and the script `ms`. -/
def requeue (c : Chan) (v : Variant) (qs : List Block) (ms : List Move) (s : State) : State :=
  ({ s with script := ms } : State).setPipe c v { s.pipe.get c v with q := qs }

theorem requeue_pipe (c : Chan) (v : Variant) (qs : List Block) (ms : List Move) (s : State) :
    (requeue c v qs ms s).pipe.get c v = { s.pipe.get c v with q := qs } := PerPipe.get_set_same _ _ _ _

section

variable (qs : List Block) (ms : List Move)

/-- A record in OF, or its loss, does not depend on the queue. -/
theorem pushFrame_requeue (rec : List Word) (s : State) :
    pushFrame rec (requeue c v qs ms s) = requeue c v qs ms (pushFrame rec s) := by
  rw [pushFrame, pushFrame, apply_ite (requeue c v qs ms)]
  rfl

/-- A pipeline's counters are none of the queues. -/
theorem setCnt_requeue (d : Chan) (w : Variant) (k : PipeCounters) (s : State) :
    setCnt d w k (requeue c v qs ms s) = requeue c v qs ms (setCnt d w k s) := by
  cases c <;> cases v <;> cases d <;> cases w <;> rfl

theorem requeue_cnt (d : Chan) (w : Variant) (s : State) :
    ((requeue c v qs ms s).pipe.get d w).cnt = (s.pipe.get d w).cnt := by
  cases c <;> cases v <;> cases d <;> cases w <;> rfl

theorem valFrame_requeue (f : CandFrame) (s : State) :
    valFrame f (requeue c v qs ms s) = requeue c v qs ms (valFrame f s) := by
  unfold valFrame
  simp only [requeue_cnt, setCnt_requeue, pushFrame_requeue]
  split
  · rfl
  · split <;> rfl

/-- A write to the pipeline that keeps the queue. -/
theorem setPipe_requeue (p : Pipe) (s : State) :
    (requeue c v qs ms s).setPipe c v { p with q := qs } = requeue c v qs ms (s.setPipe c v p) := by
  simp only [requeue, setPipe_setPipe, setPipe_pipe, PerPipe.get_set_same]
  exact setPipe_setPipe { s with script := ms } c v p { p with q := qs } |>.symm

theorem synStep_requeue (e : BitVec 16) (s : State) :
    synStep c v e (requeue c v qs ms s) = requeue c v qs ms (synStep c v e s) := by
  cases c <;> cases v <;> rfl

theorem nrziBit_requeue (r : Bool) (s : State) :
    nrziBit c v r (requeue c v qs ms s) = requeue c v qs ms (nrziBit c v r s) := by
  cases c <;> cases v <;> rfl

theorem hdlcBit_requeue (d : Bool) (s : State) :
    hdlcBit c v d (requeue c v qs ms s) = requeue c v qs ms (hdlcBit c v d s) := by
  cases c <;> cases v <;> rfl

theorem countSample_requeue (s : State) :
    countSample c v (requeue c v qs ms s) = requeue c v qs ms (countSample c v s) := by
  cases c <;> cases v <;> rfl

theorem demStep_requeue (z : Sample) (s : State) :
    demStep c v z (requeue c v qs ms s) = requeue c v qs ms (demStep c v z s) := by
  cases c <;> cases v <;> rfl

theorem drainCand_requeue (s : State) :
    drainCand c v (requeue c v qs ms s) = requeue c v qs ms (drainCand c v s) := by
  simp only [drainCand, requeue_pipe]
  rw [setPipe_requeue qs ms { s.pipe.get c v with cand := [] },
    List.foldl_hom (requeue c v qs ms) fun t f => valFrame_requeue qs ms f t]

theorem drainDec_requeue (s : State) :
    drainDec c v (requeue c v qs ms s) = requeue c v qs ms (drainDec c v s) := by
  simp only [drainDec, requeue_pipe]
  rw [setPipe_requeue qs ms { s.pipe.get c v with dec := [] },
    List.foldl_hom (requeue c v qs ms) fun t d => by rw [hdlcBit_requeue, drainCand_requeue]]

theorem drainRaw_requeue (s : State) :
    drainRaw c v (requeue c v qs ms s) = requeue c v qs ms (drainRaw c v s) := by
  simp only [drainRaw, requeue_pipe]
  rw [setPipe_requeue qs ms { s.pipe.get c v with raw := [] },
    List.foldl_hom (requeue c v qs ms) fun t r => by rw [nrziBit_requeue, drainDec_requeue]]

theorem drainSym_requeue (s : State) :
    drainSym c v (requeue c v qs ms s) = requeue c v qs ms (drainSym c v s) := by
  simp only [drainSym, requeue_pipe]
  rw [setPipe_requeue qs ms { s.pipe.get c v with sym := [] },
    List.foldl_hom (requeue c v qs ms) fun t e => by rw [synStep_requeue, drainRaw_requeue]]

/-- Samples neither read nor write the queue and the script. -/
theorem pipeSamples_requeue (zs : List Sample) (s : State) :
    pipeSamples c v zs (requeue c v qs ms s) = requeue c v qs ms (pipeSamples c v zs s) :=
  List.foldl_hom (requeue c v qs ms) fun t z => by
    rw [pipeSample, countSample_requeue, demStep_requeue, drainSym_requeue, pipeSample]

end

theorem requeue_requeue (qs qs' : List Block) (ms ms' : List Move) (s : State) :
    requeue c v qs ms (requeue c v qs' ms' s) = requeue c v qs ms s := by
  simp only [requeue, setPipe_pipe, PerPipe.get_set_same]
  exact setPipe_setPipe { s with script := ms } c v _ _

theorem requeue_drained {s : State} (h : Drained c v s) (qs : List Block) (ms : List Move) :
    Drained c v (requeue c v qs ms s) :=
  Drained.of_queue (requeue_pipe c v qs ms s) h

/-- The turn of a pipeline that may step, on the queue that `requeue` gave it. -/
theorem step_requeue {s : State} (may : pipeMayStep c v s = true) (drained : Drained c v s) (b : Block)
    (bs : List Block) (ms : List Move) :
    step (requeue c v (b :: bs) (.agent (.pipe c v) :: ms) s) =
      .next (requeue c v bs ms (pipeSamples c v b.samples s)) := by
  rw [step_of_block (s := requeue c v (b :: bs) (.agent (.pipe c v) :: ms) s) rfl may
    (requeue_drained drained _ _) (congrArg Pipe.q (requeue_pipe c v _ _ s)), ← pipeSamples_requeue]
  exact congrArg (fun t => Host.Outcome.next (pipeSamples c v b.samples t)) (requeue_requeue bs (b :: bs) ms _ s)

/-- Samples leave what decides whether the pipeline steps. -/
theorem pipeSamples_may (zs : List Sample) (s : State) :
    pipeMayStep c v (pipeSamples c v zs s) = pipeMayStep c v s := by
  obtain ⟨_, _, _, _, _, e⟩ := pipeSamples_keeps (PipelinesWrote.kept s c v) zs s (.refl s)
  rw [e]
  rfl

/-- Settles O11: samples commute with `requeue`, so that the second block begins where the first one ends. -/
theorem pipelineBlocksConcatenate : Obligations.PipelineBlocksConcatenate := by
  intro s c v a b bs ms life active streams
  have may : pipeMayStep c v s = true := (pipeMayStep_iff c v s).2 ⟨life, active⟩
  have drained := streams.drained c v
  refine ⟨requeue c v bs ms (pipeSamples c v b.samples (pipeSamples c v a.samples s)), ?_, ?_⟩
  · refine (step_requeue may drained { a with samples := a.samples ++ b.samples } bs ms).trans ?_
    simp only [pipeSamples, List.foldl_append]
  · have first := step_requeue may drained a (b :: bs) (.agent (.pipe c v) :: ms)
    have second := step_requeue ((pipeSamples_may a.samples s).trans may)
      (pipeSamples_drained a.samples s drained) b bs ms
    show stepAll 2 (requeue c v (a :: b :: bs) _ s) = _
    simp only [stepAll, first, second]

/-! ### Isolation (60_exceptions.md R277) -/

/-- Settles O59: the frame of a pipeline's step, whose waiting CandidateFrames are none. -/
theorem pipelineStepIsIsolated : Obligations.PipelineStepIsIsolated := by
  intro s t c v ms streams script run
  rw [step_of_pipe_turn script] at run
  cases run
  obtain ⟨rest, ncoh, coh, chal, ofifo⟩ := PipeFrame.pipeStep (c := c) (v := v) { s with script := ms }
    (by simp [streams.cand c v])
  exact ⟨rest, ncoh, coh, chal, ofifo⟩

end Sys2Proof.Machine
end

section
/-!
PROOFS. The lifecycle transitions (60_exceptions.md R290): which outcome of a step makes which.
-/

namespace Sys2Proof.Machine

open Sys2Proof

theorem LifeStep.of_same {s t : State} (h : t.life = s.life) : LifeStep s.life t.life := by
  rw [h]
  exact .stay _

theorem Bookkept.sameLife {s t : State} (h : Bookkept s t) : t.life = s.life := by
  obtain ⟨_, _, _, _, _, _, _, _, _, _, _, rfl⟩ := h
  rfl

theorem PipelinesWrote.sameLife {s t : State} (h : PipelinesWrote s t) : t.life = s.life := by
  obtain ⟨_, _, _, _, _, rfl⟩ := h
  rfl

theorem writeReg_sameLife (r : Reg) (val : Word) (s : State) : (writeReg r val s).life = s.life := by
  cases r <;> rfl

theorem condAccepted_sameLife (body : List Word) (s : State) : (condAccepted body s).life = s.life := by
  obtain ⟨_, _, _, _, frame⟩ := condAccepted_frame body s
  rw [frame]

theorem shutdown_stopped (s : State) : (shutdown s).life = .stopped := by rw [shutdown_eq]

/-- A shutdown step, or STOP's, is made in IDLE or in RUNNING (45_host_commands.md R246, R248). -/
theorem LifeStep.stop {l : Life} (h : l = .idle ∨ l = .running) : LifeStep l .stopped := by
  rcases h with rfl | rfl
  · exact .stopIdle
  · exact .stopRunning

/-- A command makes a lifecycle transition, or is SRESET. -/
theorem exec_lifeStep {i : Instr} {s t : State} (hi : IsCommand i) (hx : exec i s = .next t) :
    LifeStep s.life t.life ∨ ResetOf s t := by
  rcases exec_command_cases hi hx with rfl | rfl | ⟨code, rfl⟩ | ⟨r, val, -, -, rfl⟩ |
    ⟨w, rfl | ⟨code, rfl⟩⟩ | ⟨idle, -, rfl⟩ | ⟨idle, -, rfl⟩ | ⟨opened, rfl⟩ | ⟨-, rfl⟩ | ⟨-, code, rfl⟩ |
    ⟨-, body, rfl⟩ | ⟨running, rfl⟩ | ⟨f, rest, -, rfl⟩
  · exact .inl (.stay _)
  · exact .inr (softReset_resetOf s)
  · exact .inl (.of_same (raiseCmdErr_bookkept code s).sameLife)
  · exact .inl (.of_same (writeReg_sameLife r val s))
  · exact .inl (.of_same (pushRsp_bookkept _ s).sameLife)
  · exact .inl (.of_same ((pushRsp_bookkept _ _).sameLife.trans (raiseCmdErr_bookkept code s).sameLife))
  · exact .inl (idle ▸ .start)
  · exact .inl (idle ▸ .invalid)
  · exact .inl (shutdown_stopped s ▸ .stop opened)
  · exact .inl (.of_same (raise_bookkept _ s).sameLife)
  · exact .inl (.of_same (raise_bookkept _ s).sameLife)
  · exact .inl (.of_same (condAccepted_sameLife body s))
  · exact .inl (running ▸ .closed)
  · exact .inl (.of_same (popFrame_bookkept f rest s).sameLife)

/-- No action of the HOST moves LIFE but the pin `rst`. -/
theorem hostAct_lifeStep (a : HostAct) (s : State) :
    LifeStep s.life (hostAct a s).life ∨ ResetOf s (hostAct a s) := by
  cases a with
  | sendWord w last => exact .inl (.of_same (receiveWord_bookkept w last s).sameLife)
  | takeWord => exact .inl (.of_same (takeWord_bookkept s).sameLife)
  | setShutdown level => exact .inl (.stay _)
  | rstPulse => exact .inr (pinReset_resetOf s)

/-- Settles O56: by the inversion of `step`, each of its outcomes makes a transition of the table or is a
reset. -/
theorem lifecycleTransitionsComplete : Obligations.LifecycleTransitionsComplete := by
  intro s t h
  obtain ⟨u, moved, outcome⟩ := step_cases h
  suffices LifeStep u.life t.life ∨ ResetOf u t from
    this.imp (fun made => moved.life ▸ made) moved.resetOf
  rcases outcome with ⟨enabled, rfl⟩ | rfl | ⟨code, rfl⟩ | ⟨i, hi, hx⟩ | ⟨c, v, rfl⟩ | ⟨order, rfl⟩ | ⟨a, rfl⟩
  · exact .inl (shutdown_stopped u ▸ .stop ((shutdownEnabled_iff u).1 enabled).2)
  · exact .inl (.stay _)
  · exact .inl (.of_same (raiseCmdErr_bookkept code u).sameLife)
  · exact exec_lifeStep hi hx
  · exact .inl (.of_same (pipeStep_wrote c v u).sameLife)
  · exact .inl (.of_same (overlapSteps_wrote order u).sameLife)
  · exact hostAct_lifeStep a u

/-! ### The ports (30_encoding.md R100, R113) -/

theorem packetOf_words {p : Packet} {ws : List Word} {w : Word} (h : p.hdr :: p.body = ws ++ [w]) :
    packetOf ws w = p := by
  cases ws <;> injection h with hdr body <;> cases p <;> exact congr (congrArg Packet.mk hdr.symm) body.symm

/-- Words not marked `last` gather. -/
theorem stepAll_gather (ws : List Word) (n : Nat) (ms : List Move) {s : State}
    (script : s.script = ws.map (fun x => .host (.sendWord x false)) ++ ms) :
    stepAll (ws.length + n) s = stepAll n { s with script := ms, cmdPart := s.cmdPart ++ ws } := by
  induction ws generalizing s with
  | nil => simp only [List.map_nil, List.nil_append] at script; simp [← script]
  | cons x ws ih =>
    have first : step s = .next { s with
        script := ws.map (fun x => .host (.sendWord x false)) ++ ms, cmdPart := s.cmdPart ++ [x] } :=
      step_of_host_move script
    have split : (x :: ws).length + n = (ws.length + n) + 1 := by simp only [List.length_cons]; omega
    rw [split, stepAll, first]
    simp only []
    rw [ih rfl]
    simp only [List.append_assoc, List.singleton_append]

/-- The words of a response packet taken one by one. -/
theorem stepAll_take (r : List Word) (rs : List (List Word)) (ms : List Move) {s : State} (nonempty : r ≠ [])
    (rsp : s.rsp = r :: rs) (script : s.script = List.replicate r.length (.host .takeWord) ++ ms) :
    stepAll r.length s = .next { s with script := ms, rsp := rs } := by
  induction r generalizing s with
  | nil => exact absurd rfl nonempty
  | cons x r ih =>
    have first := step_of_host_move script
    rw [List.length_cons, stepAll, first]
    cases r with
    | nil => simp [hostAct, takeWord, rsp, stepAll]
    | cons y r =>
      have taken : hostAct .takeWord { s with script := List.replicate (y :: r).length (.host .takeWord) ++ ms } =
          { s with script := List.replicate (y :: r).length (.host .takeWord) ++ ms, rsp := (y :: r) :: rs } := by
        simp [hostAct, takeWord, rsp]
      exact (congrArg (stepAll (y :: r).length) taken).trans (ih nofun rfl rfl)

/-- Settles O13: the words before the last gather and the last ends the packet; a response packet goes word by
word. -/
theorem portsCarryPackets : Obligations.PortsCarryPackets := by
  refine ⟨fun s p ws w ms part words script => ?_, fun s r rs ms rsp nonempty script => ?_⟩
  · rw [stepAll_gather ws 1 _ script, stepAll, step_of_host_move rfl]
    simp [stepAll, hostAct, receiveWord, part, packetOf_words words]
  · exact stepAll_take r rs ms nonempty rsp script

end Sys2Proof.Machine
end

section
/-!
PROOFS. Every step has a successor, and runs make progress (60_exceptions.md R270, 70_reset_and_hazards.md R327):
every agent's turn comes, queues are worked off while CP waits, and a FENCE completes behind them.
-/

namespace Sys2Proof.Machine

open Sys2Proof

/-! ### Every step answers a next state -/

theorem exec_answers (i : Instr) (s : State) : ∃ t, exec i s = .next t := by
  cases i with
  | cfgwr a idx val => cases h : regOfIndex idx <;> simp [exec, execCfgwr, h]
  | regrd a idx => cases h : regOfIndex idx <;> simp [exec, execRegrd, h]
  | start a => cases h : s.life <;> cases hc : cfgLegal s.cfg <;> simp [exec, execStart, h, hc]
  | stop a => cases h : s.life <;> simp [exec, execStop, h]
  | block chid len body => cases h : s.life <;> simp [exec, execBlock, h]
  | eos a => cases h : s.life <;> simp [exec, execEos, h]
  | frpop a => cases h : s.ofifo <;> simp [exec, execFrpop, h]
  | _ => exact ⟨_, rfl⟩

theorem execPacket_answers (p : Packet) (s : State) : ∃ t, execPacket p s = .next t := by
  unfold execPacket
  split
  · exact ⟨_, rfl⟩
  · exact ⟨_, rfl⟩
  · exact exec_answers _ s

theorem cpStep_answers (s : State) : ∃ t, cpStep s = .next t := by
  unfold cpStep
  split
  · exact ⟨_, rfl⟩
  · split
    · exact ⟨_, rfl⟩
    · split
      · exact execPacket_answers _ _
      · exact ⟨_, rfl⟩

theorem turnStep_answers (a : Turn) (s : State) : ∃ t, turnStep a s = .next t := by
  rcases a with (_ | ⟨c, v⟩) | order
  · exact cpStep_answers s
  · exact ⟨_, rfl⟩
  · exact ⟨_, rfl⟩

theorem step_answers (s : State) : ∃ t, step s = .next t := by
  cases script : s.script with
  | nil => exact step_of_script_nil script ▸ turnStep_answers _ _
  | cons m ms =>
    simp only [step, script]
    cases m with
    | agent a => exact turnStep_answers (.agent a) _
    | overlap order => exact turnStep_answers (.overlap order) _
    | host a => exact ⟨_, rfl⟩

/-! ### Runs -/

/-- Steps lead from `s` to `t`. -/
def Reaches (s t : State) : Prop := ∃ n, stepAll n s = .next t

theorem Reaches.refl (s : State) : Reaches s s := ⟨0, rfl⟩

theorem Reaches.head {s t u : State} (first : step s = .next t) (rest : Reaches t u) : Reaches s u := by
  obtain ⟨n, h⟩ := rest
  exact ⟨n + 1, by simp only [stepAll, first, h]⟩

theorem Reaches.single {s t : State} (h : step s = .next t) : Reaches s t := .head h (.refl t)

theorem stepAll_add {n : Nat} {s t : State} (h : stepAll n s = .next t) (k : Nat) :
    stepAll (n + k) s = stepAll k t := by
  induction n generalizing s with
  | zero => cases h; rw [Nat.zero_add]
  | succ n ih =>
    obtain ⟨u, first⟩ := step_answers s
    rw [Nat.succ_add, stepAll, first]
    rw [stepAll, first] at h
    exact ih h

theorem Reaches.trans {s t u : State} (h : Reaches s t) (h' : Reaches t u) : Reaches s u := by
  obtain ⟨n, h⟩ := h
  obtain ⟨k, h'⟩ := h'
  exact ⟨n + k, (stepAll_add h k).trans h'⟩

/-! ### The script is used up and the turns go on (weak fairness) -/

theorem hostAct_script (a : HostAct) (s : State) : (hostAct a s).script = s.script := by
  cases a with
  | sendWord w last => cases last <;> rfl
  | takeWord =>
    simp only [hostAct, takeWord]
    split <;> rfl
  | setShutdown level => rfl
  | rstPulse => rfl

/-- A move of the script is taken off it. -/
theorem step_of_script_cons {s : State} {m : Move} {ms : List Move} (script : s.script = m :: ms) :
    ∃ t, step s = .next t ∧ t.script = ms := by
  obtain ⟨t, run⟩ := step_answers s
  refine ⟨t, run, ?_⟩
  simp only [step, script] at run
  cases m with
  | agent a => exact (turnStep_sameRun (a := .agent a) run).1
  | overlap order => exact (turnStep_sameRun (a := .overlap order) run).1
  | host a =>
    cases run
    exact hostAct_script a _

theorem script_used_up (s : State) : ∃ t, Reaches s t ∧ t.script = [] := by
  generalize script : s.script = ms
  induction ms generalizing s with
  | nil => exact ⟨s, .refl s, script⟩
  | cons m ms ih =>
    obtain ⟨t, first, rest⟩ := step_of_script_cons script
    obtain ⟨u, reached, done⟩ := ih t rest
    exact ⟨u, .head first reached, done⟩

/-- With the script used up, a step counts one turn. -/
theorem step_free_run {s t : State} (script : s.script = []) (run : step s = .next t) :
    t.script = [] ∧ t.tick = s.tick + 1 := by
  rw [step_of_script_nil script] at run
  obtain ⟨same, tick⟩ := turnStep_sameRun run
  exact ⟨same.trans script, tick⟩

theorem free_run_ticks (k : Nat) {s : State} (script : s.script = []) :
    ∃ t, Reaches s t ∧ t.script = [] ∧ t.tick = s.tick + k := by
  induction k generalizing s with
  | zero => exact ⟨s, .refl s, script, rfl⟩
  | succ k ih =>
    obtain ⟨t, first⟩ := step_answers s
    obtain ⟨free, tick⟩ := step_free_run script first
    obtain ⟨u, reached, done, ticks⟩ := ih free
    exact ⟨u, .head first reached, done, by omega⟩

/-- How many turns of a free run come before one of the agent's. -/
theorem turn_comes (a : Agent) (s : State) : ∃ k, turnAt (s.tick + k) = .agent a := by
  obtain ⟨m, le, turn⟩ := turnAt_fair a s.tick
  exact ⟨m - s.tick, by rw [Nat.add_sub_cancel' le]; exact turn⟩

/-- Weak fairness: each agent's turn comes once the script is used up, and its step is the machine's. -/
theorem agent_takes_turn (s : State) (a : Agent) : ∃ u, Reaches s u ∧ u.script = [] ∧
    step u = step { u with script := [.agent a], tick := u.tick + 1 } := by
  obtain ⟨t, reached, script⟩ := script_used_up s
  obtain ⟨k, turn⟩ := turn_comes a t
  obtain ⟨u, reached', script', tick⟩ := free_run_ticks k script
  refine ⟨u, reached.trans reached', script', ?_⟩
  rw [step_of_script_nil script', tick, turn, ← script']
  rfl

/-! ### What a free run does while CP waits -/

/-- A state in which CP has nothing to execute but FENCE: the premises of the two statements on progress. -/
structure Poised (s : State) : Prop where
  script : s.script = []
  lifecycle : LifecycleOk s
  streams : StreamsEmpty s
  head : s.cmd = [] ∨ ∃ p ps arg, s.cmd = p :: ps ∧ decodePacket p = .instr (.fence arg)

/-- What is so of every step between two states while CP waits: nothing joins a queue, CMD stays, and no shutdown
step is made where none is enabled. -/
structure Waited (s t : State) : Prop where
  cmd : t.cmd = s.cmd
  queues : QueuesLeft s t
  still : shutdownEnabled s = false →
    shutdownEnabled t = false ∧ t.life = s.life ∧ t.glob.shutdownDrops = s.glob.shutdownDrops

theorem QueuesLeft.refl (s : State) : QueuesLeft s s := fun _ _ => List.suffix_refl _

theorem QueuesLeft.trans {s t u : State} (h : QueuesLeft s t) (h' : QueuesLeft t u) : QueuesLeft s u :=
  fun c v => (h' c v).trans (h c v)

theorem Waited.refl (s : State) : Waited s s := ⟨rfl, .refl s, fun h => ⟨h, rfl, rfl⟩⟩

theorem Waited.trans {s t u : State} (h : Waited s t) (h' : Waited t u) : Waited s u where
  cmd := h'.cmd.trans h.cmd
  queues := h.queues.trans h'.queues
  still off := by
    obtain ⟨off', life, drops⟩ := h.still off
    obtain ⟨off'', life', drops'⟩ := h'.still off'
    exact ⟨off'', life'.trans life, drops'.trans drops⟩

/-- All queues are empty. -/
def NoBlocks (s : State) : Prop := ∀ c v, (s.pipe.get c v).q = []

theorem QueuesLeft.noBlocks {s t : State} (h : QueuesLeft s t) (empty : NoBlocks s) : NoBlocks t :=
  fun c v => List.suffix_nil.1 (empty c v ▸ h c v)

/-- Pipelines' steps are such steps. -/
theorem Waited.of_pipelines {s t : State} (wrote : PipelinesWrote s t) (queues : QueuesLeft s t) :
    Waited s t := by
  obtain ⟨_, _, _, _, _, rfl⟩ := wrote
  exact ⟨rfl, queues, fun off => ⟨off, rfl, rfl⟩⟩

theorem shutdown_noBlocks (s : State) : NoBlocks (shutdown s) := fun c v => by rw [shutdown_pipe]

/-- A shutdown step is such a step. -/
theorem Waited.shutdown {s : State} (enabled : shutdownEnabled s = true) : Waited s (shutdown s) where
  cmd := by rw [shutdown_eq]
  queues c v := by rw [shutdown_noBlocks s c v]; exact List.nil_suffix
  still off := by rw [enabled] at off; cases off

/-- CP executes the FENCE at the head: `s` before the turn, `t` after it. -/
def FenceDone (s t : State) : Prop :=
  shutdownEnabled s = false ∧ NoBlocks s ∧ ∃ p ps, s.cmd = p :: ps ∧ t.cmd = ps

/-- CP's step in a poised state: it waits, or executes the FENCE. -/
theorem cpStep_poised {s t : State}
    (head : s.cmd = [] ∨ ∃ p ps arg, s.cmd = p :: ps ∧ decodePacket p = .instr (.fence arg))
    (run : cpStep s = .next t) : Waited s t ∨ FenceDone s t := by
  by_cases enabled : shutdownEnabled s = true
  · rw [cpStep_shutdown enabled] at run
    cases run
    exact .inl (.shutdown enabled)
  · have off : shutdownEnabled s = false := by simpa using enabled
    rcases head with empty | ⟨p, ps, arg, cmd, fence⟩
    · simp only [cpStep, off, empty, Bool.false_eq_true, if_false] at run
      cases run
      exact .inl (.refl s)
    · rw [cpStep_instr off cmd fence] at run
      by_cases empty : queuesEmpty s = true
      · rw [if_pos (show ready (.fence arg) s = true from empty)] at run
        cases run
        exact .inr ⟨off, (queuesEmpty_iff s).1 empty, p, ps, cmd, rfl⟩
      · rw [if_neg (show ¬ready (.fence arg) s = true from empty)] at run
        cases run
        exact .inl (.refl s)

/-- A step of a poised state. -/
theorem step_poised {s t : State} (h : Poised s) (run : step s = .next t) : Waited s t ∨ FenceDone s t := by
  rw [step_of_script_nil h.script] at run
  have counted : ∀ {u}, Waited { s with tick := s.tick + 1 } u → Waited s u :=
    fun w => ⟨w.cmd, w.queues, w.still⟩
  generalize turnAt s.tick = turn at run
  rcases turn with (_ | ⟨c, v⟩) | order
  · exact (cpStep_poised (s := { s with tick := s.tick + 1 }) h.head run).imp counted id
  · cases run
    exact .inl (counted (.of_pipelines (pipeStep_wrote c v _) (pipeStep_queues c v _)))
  · cases run
    exact .inl (counted (.of_pipelines (overlapSteps_wrote order _) (overlapSteps_queues order _)))

/-- A step that waits leaves a poised state. -/
theorem Poised.next {s t : State} (h : Poised s) (run : step s = .next t) (waited : Waited s t) : Poised t where
  script := (step_free_run h.script run).1
  lifecycle := stepKeepsLifecycle s t h.lifecycle run
  streams := stepLeavesStreamsEmpty s t h.streams run
  head := waited.cmd ▸ h.head

/-! ### Queued blocks are worked off -/

/-- A function of the pipelines, summed over all of them as `waiting` does. -/
def pipeSum (f : Chan → Variant → Nat) : Nat :=
  f .ch0 .ncoh + f .ch0 .coh + f .ch0 .chal + f .ch1 .ncoh + f .ch1 .coh + f .ch1 .chal

theorem waiting_eq_pipeSum (s : State) : waiting s = pipeSum fun c v => (s.pipe.get c v).q.length := rfl

theorem pipeSum_le {f g : Chan → Variant → Nat} (le : ∀ c v, f c v ≤ g c v) : pipeSum f ≤ pipeSum g :=
  Nat.add_le_add (Nat.add_le_add (Nat.add_le_add (Nat.add_le_add (Nat.add_le_add (le _ _) (le _ _))
    (le _ _)) (le _ _)) (le _ _)) (le _ _)

/-- A sum of which one term is less, and none is more, is less. -/
theorem pipeSum_lt {f g : Chan → Variant → Nat} (le : ∀ c v, f c v ≤ g c v) {c : Chan} {v : Variant}
    (lt : f c v < g c v) : pipeSum f < pipeSum g := by
  have raised : ∀ d w, f d w + (if (d, w) = (c, v) then 1 else 0) ≤ g d w := by
    intro d w
    split
    · next same =>
      obtain ⟨rfl, rfl⟩ := Prod.mk.inj same
      exact lt
    · exact le d w
  have one : pipeSum (fun d w => f d w + (if (d, w) = (c, v) then 1 else 0)) = pipeSum f + 1 := by
    cases c <;> cases v <;> simp only [pipeSum, Prod.mk.injEq, reduceCtorEq, and_self, and_false, false_and,
      if_true, if_false] <;> omega
  exact Nat.lt_of_succ_le (Nat.le_trans (Nat.le_of_eq one.symm) (pipeSum_le raised))

theorem waiting_le {s t : State} (h : QueuesLeft s t) : waiting t ≤ waiting s := by
  rw [waiting_eq_pipeSum, waiting_eq_pipeSum]
  exact pipeSum_le fun c v => (h c v).length_le

theorem waiting_lt {s t : State} (h : QueuesLeft s t) {c : Chan} {v : Variant}
    (less : (t.pipe.get c v).q.length < (s.pipe.get c v).q.length) : waiting t < waiting s := by
  rw [waiting_eq_pipeSum, waiting_eq_pipeSum]
  exact pipeSum_lt (fun c v => (h c v).length_le) less

/-- Where blocks wait, their pipeline may step (10_state.md R20, R21). -/
theorem LifecycleOk.mayStep {s : State} (h : LifecycleOk s) {c : Chan} {v : Variant}
    (queued : (s.pipe.get c v).q ≠ []) : pipeMayStep c v s = true := by
  refine (pipeMayStep_iff c v s).2 ⟨?_, ?_⟩
  · cases life : s.life with
    | idle => exact absurd (h.idle_queues life c v) queued
    | running => exact .inl rfl
    | stopped => exact absurd (h.stopped_queues life c v) queued
    | fatal => exact .inr rfl
  · cases active : pairActive s.cfg c v with
    | false => exact absurd (h.inactive_queues c v active) queued
    | true => rfl

/-- In its turn a pipeline with a block waiting takes it. -/
theorem turn_pops {s : State} (h : Poised s) {c : Chan} {v : Variant} (queued : (s.pipe.get c v).q ≠ [])
    (turn : turnAt s.tick = .agent (.pipe c v)) {t : State} (run : step s = .next t) :
    (t.pipe.get c v).q.length < (s.pipe.get c v).q.length := by
  obtain ⟨b, rest, queue⟩ := List.exists_cons_of_ne_nil queued
  rw [step_of_script_nil h.script, turn] at run
  cases run
  have pops := pipeStep_pops (s := { s with tick := s.tick + 1 }) (h.lifecycle.mayStep queued)
    ((streamsPending_eq_false c v s).2 (h.streams.drained c v)) queue
  rw [queue]
  exact Nat.lt_succ_of_le pops.length_le

/-- While a block waits, no FENCE is executed (45_host_commands.md R240). -/
theorem Poised.waits {s t : State} (h : Poised s) {c : Chan} {v : Variant} (queued : (s.pipe.get c v).q ≠ [])
    (run : step s = .next t) : Waited s t :=
  (step_poised h run).resolve_right fun ⟨_, empty, _⟩ => queued (empty c v)

/-- A block that waits is taken when its pipeline's turn, `k` turns ahead, comes, if none was taken before. -/
theorem block_taken (k : Nat) {s : State} (h : Poised s) {c : Chan} {v : Variant}
    (queued : (s.pipe.get c v).q ≠ []) (turn : turnAt (s.tick + k) = .agent (.pipe c v)) :
    ∃ t, Reaches s t ∧ Poised t ∧ Waited s t ∧ waiting t < waiting s := by
  induction k generalizing s with
  | zero =>
    obtain ⟨t, run⟩ := step_answers s
    have waited := h.waits queued run
    exact ⟨t, .single run, h.next run waited, waited, waiting_lt waited.queues (turn_pops h queued turn run)⟩
  | succ k ih =>
    obtain ⟨u, run⟩ := step_answers s
    have waited := h.waits queued run
    have poised := h.next run waited
    by_cases taken : (u.pipe.get c v).q = []
    · refine ⟨u, .single run, poised, waited, waiting_lt (c := c) (v := v) waited.queues ?_⟩
      rw [taken]
      exact List.length_pos_iff.2 queued
    · have tick : u.tick + k = s.tick + (k + 1) := by
        have := (step_free_run h.script run).2
        omega
      obtain ⟨t, reached, poised', waited', less⟩ := ih poised taken (tick ▸ turn)
      exact ⟨t, .head run reached, poised', waited.trans waited',
        Nat.lt_of_lt_of_le less (waiting_le waited.queues)⟩

/-- Every queued block is worked off while CP waits. -/
theorem blocks_worked_off {s : State} (h : Poised s) : ∃ t, Reaches s t ∧ Poised t ∧ Waited s t ∧ NoBlocks t := by
  induction n : waiting s using Nat.strongRecOn generalizing s with
  | ind n ih =>
    by_cases empty : NoBlocks s
    · exact ⟨s, .refl s, h, .refl s, empty⟩
    · obtain ⟨c, v, queued⟩ : ∃ c v, (s.pipe.get c v).q ≠ [] := by simpa [NoBlocks] using empty
      obtain ⟨k, turn⟩ := turn_comes (.pipe c v) s
      obtain ⟨u, reached, poised, waited, less⟩ := block_taken k h queued turn
      obtain ⟨t, reached', poised', waited', done⟩ := ih (waiting u) (n ▸ less) poised rfl
      exact ⟨t, reached.trans reached', poised', waited.trans waited', done⟩

/-! ### A FENCE completes -/

theorem shutdown_disables (s : State) : shutdownEnabled (shutdown s) = false := by
  simp [shutdownEnabled, shutdown_stopped]

/-- Before a shutdown step that is enabled, no FENCE is executed (45_host_commands.md R240). -/
theorem Poised.waits_for_shutdown {s t : State} (h : Poised s) (enabled : shutdownEnabled s = true)
    (run : step s = .next t) : Waited s t :=
  (step_poised h run).resolve_right fun ⟨off, _⟩ => Bool.noConfusion (enabled.symm.trans off)

/-- A shutdown step that is enabled is made when CP's turn comes. -/
theorem shutdown_made (k : Nat) {s : State} (h : Poised s) (enabled : shutdownEnabled s = true)
    (turn : turnAt (s.tick + k) = .agent .cp) :
    ∃ t, Reaches s t ∧ Poised t ∧ Waited s t ∧ shutdownEnabled t = false := by
  induction k generalizing s with
  | zero =>
    have run : step s = .next (shutdown { s with tick := s.tick + 1 }) := by
      rw [step_of_script_nil h.script, show turnAt s.tick = .agent .cp from turn]
      exact cpStep_shutdown (s := { s with tick := s.tick + 1 }) enabled
    have waited := h.waits_for_shutdown enabled run
    exact ⟨_, .single run, h.next run waited, waited, shutdown_disables _⟩
  | succ k ih =>
    obtain ⟨u, run⟩ := step_answers s
    have waited := h.waits_for_shutdown enabled run
    have poised := h.next run waited
    cases enabled' : shutdownEnabled u with
    | false => exact ⟨u, .single run, poised, waited, enabled'⟩
    | true =>
      have tick : u.tick + k = s.tick + (k + 1) := by
        have := (step_free_run h.script run).2
        omega
      obtain ⟨t, reached, poised', waited', off⟩ := ih poised enabled' (tick ▸ turn)
      exact ⟨t, .head run reached, poised', waited.trans waited', off⟩

/-- With empty queues and no shutdown step in its way, a FENCE is executed by CP's turn, `k` turns ahead. -/
theorem fence_executed (k : Nat) {s : State} (h : Poised s) (empty : NoBlocks s)
    (off : shutdownEnabled s = false) {p : Packet} {ps : List Packet} {arg : BitVec 24} (cmd : s.cmd = p :: ps)
    (fence : decodePacket p = .instr (.fence arg)) (turn : turnAt (s.tick + k) = .agent .cp) :
    ∃ t, Reaches s t ∧ t.cmd = ps := by
  induction k generalizing s with
  | zero =>
    refine ⟨{ s with tick := s.tick + 1, cmd := ps }, .single ?_, rfl⟩
    rw [step_of_script_nil h.script, show turnAt s.tick = .agent .cp from turn]
    refine (cpStep_instr (s := { s with tick := s.tick + 1 }) off cmd fence).trans (if_pos ?_)
    exact (queuesEmpty_iff s).2 empty
  | succ k ih =>
    obtain ⟨u, run⟩ := step_answers s
    rcases step_poised h run with waited | ⟨_, _, p', ps', cmd', done⟩
    · have tick : u.tick + k = s.tick + (k + 1) := by
        have := (step_free_run h.script run).2
        omega
      obtain ⟨t, reached, done⟩ := ih (h.next run waited) (waited.queues.noBlocks empty) (waited.still off).1
        (waited.cmd.trans cmd) (tick ▸ turn)
      exact ⟨t, .head run reached, done⟩
    · obtain ⟨-, rfl⟩ := List.cons.inj (cmd'.symm.trans cmd)
      exact ⟨u, .single run, done⟩

/-- A FENCE at the head of CMD completes: the queues are worked off, a shutdown step that is enabled is made,
and CP's turn comes. -/
theorem fence_completes {s : State} (h : Poised s) {p : Packet} {ps : List Packet} {arg : BitVec 24}
    (cmd : s.cmd = p :: ps) (fence : decodePacket p = .instr (.fence arg)) : ∃ t, Reaches s t ∧ t.cmd = ps := by
  obtain ⟨u, reached, poised, waited, empty⟩ := blocks_worked_off h
  have quiet : ∃ w, Reaches u w ∧ Poised w ∧ Waited u w ∧ shutdownEnabled w = false := by
    cases enabled : shutdownEnabled u with
    | false => exact ⟨u, .refl u, poised, .refl u, enabled⟩
    | true =>
      obtain ⟨k, turn⟩ := turn_comes .cp u
      exact shutdown_made k poised enabled turn
  obtain ⟨w, reached', poised', waited', off⟩ := quiet
  obtain ⟨k, turn⟩ := turn_comes .cp w
  obtain ⟨t, reached'', done⟩ := fence_executed k poised' (waited'.queues.noBlocks empty) off
    (waited'.cmd.trans (waited.cmd.trans cmd)) fence turn
  exact ⟨t, (reached.trans reached').trans reached'', done⟩

/-- Settles O16: totality by the branches of the step, fairness by the schedule, and progress by the number of
blocks that wait, which no step of a poised state raises. -/
theorem everyStepHasASuccessor : Obligations.EveryStepHasASuccessor := by
  refine ⟨step_answers, exec_answers, fun s a => ?_, fun s p ps arg script cmd fence lifecycle streams => ?_,
    fun s script cmd lifecycle streams => ?_⟩
  · obtain ⟨u, ⟨n, run⟩, rest⟩ := agent_takes_turn s a
    exact ⟨n, u, run, rest⟩
  · obtain ⟨t, ⟨n, run⟩, done⟩ :=
      fence_completes ⟨script, lifecycle, streams, .inr ⟨p, ps, arg, cmd, fence⟩⟩ cmd fence
    exact ⟨n, t, run, done⟩
  · obtain ⟨t, ⟨n, run⟩, _, waited, empty⟩ := blocks_worked_off ⟨script, lifecycle, streams, .inl cmd⟩
    refine ⟨n, t, run, empty, fun latch => ?_⟩
    exact (waited.still (by simp [shutdownEnabled, latch])).2

end Sys2Proof.Machine
end
